-- ==== Sys2Proof/Word.lean ====
section
/-! DEFINITION. Word.lean: the widths of the block's words (00_scope.md R6, R9, R10). -/

namespace Sys2Proof

/-- A 32-bit word: a host address, a host data word, a weight or counter (R6 `W_W`, R61). -/
abbrev Word := BitVec 32

/-- A byte, which is also a symbol (R6 `SYM_W`, R8). -/
abbrev Byte := BitVec 8

/-- A node index (R6 `IDX_W`). -/
abbrev NodeIdx := BitVec 9

/-- A bit sequence of R10: the first element is the first bit, `true` is 1. -/
abbrev BitSeq := List Bool

end Sys2Proof
end

