-- ==== Sys2Proof/Syntax.lean ====
section
/-! DEFINITION. Syntax.lean: the twelve commands of 30_encoding.md R81. No command has an operand
(R82), so no constructor has a field. -/

namespace Sys2Proof

/-- The commands, in the order of the opcode map (R81). -/
inductive Instr where
  | clr
  | hist
  | build
  | genc
  | tser
  | enc
  | asm
  | parse
  | tdes
  | dec
  | comp
  | decomp
  deriving DecidableEq, Repr

/-- The two fields of the one command format `C` (R80). -/
structure CommandWord where
  /-- Bits [31:8]. -/
  rsvd : BitVec 24
  /-- Bits [7:0]. -/
  opcode : Byte
  deriving DecidableEq, Repr

end Sys2Proof
end

