-- ==== Sys2Proof/WellFormed.lean ====
section
/-! DEFINITION. WellFormed.lean: which words are commands (30_encoding.md R80, R83). An instruction has
no operand to check (R82); what can be ill formed is the word that stands for it. -/

namespace Sys2Proof

/-- The opcodes R81 defines. -/
def definedOpcodes : List Byte :=
  [0x01, 0x10, 0x11, 0x12, 0x13, 0x14, 0x15, 0x20, 0x21, 0x22, 0x30, 0x31]

/-- The fields of a 32-bit word, by R80. -/
def CommandWord.ofWord (w : Word) : CommandWord :=
  { rsvd := w.extractLsb' 8 24, opcode := w.extractLsb' 0 8 }

/-- R80: the reserved field must be 0. -/
def CommandWord.rsvdOk (c : CommandWord) : Bool := c.rsvd == 0

/-- R81: the opcode must be a defined one. -/
def CommandWord.opcodeOk (c : CommandWord) : Bool := definedOpcodes.contains c.opcode

/-- R83: a word is a command exactly when both checks pass. -/
def CommandWord.wf (c : CommandWord) : Bool := c.rsvdOk && c.opcodeOk

/-- R82: a command has no operand, so every instruction is well formed. One arm per constructor, so
that a later constructor cannot slip past. -/
def Instr.wf : Instr → Bool
  | .clr => true
  | .hist => true
  | .build => true
  | .genc => true
  | .tser => true
  | .enc => true
  | .asm => true
  | .parse => true
  | .tdes => true
  | .dec => true
  | .comp => true
  | .decomp => true

end Sys2Proof
end

