-- ==== Sys2Proof/Decode.lean ====
section
/-! DEFINITION. Decode.lean: the decoder of command words and its encoder (30_encoding.md R80, R81, R83). -/

namespace Sys2Proof

/-- Why a word is no command (R83). -/
inductive DecodeError where
  /-- A bit of [31:8] is 1. -/
  | reservedBits (w : Word)
  /-- The opcode is none of the twelve. -/
  | unusedOpcode (w : Word)
  deriving DecidableEq, Repr

/-- The opcode map of R81. -/
def opcodeMap : List (Byte × Instr) :=
  [(0x01, .clr), (0x10, .hist), (0x11, .build), (0x12, .genc), (0x13, .tser), (0x14, .enc),
   (0x15, .asm), (0x20, .parse), (0x21, .tdes), (0x22, .dec), (0x30, .comp), (0x31, .decomp)]

/-- The command whose opcode is the given byte, if R81 lists it. -/
def instrOfOpcode (op : Byte) : Option Instr :=
  (opcodeMap.find? (fun row => row.1 == op)).map (fun row => row.2)

/-- Decoding a command word (R80, R83), total on every word. -/
def decode (w : Word) : Except DecodeError Instr :=
  if w.extractLsb' 8 24 = 0 then
    match instrOfOpcode (w.extractLsb' 0 8) with
    | some i => .ok i
    | none => .error (.unusedOpcode w)
  else .error (.reservedBits w)

/-- The opcode of a command (R81). -/
def opcodeOf : Instr → Byte
  | .clr => 0x01
  | .hist => 0x10
  | .build => 0x11
  | .genc => 0x12
  | .tser => 0x13
  | .enc => 0x14
  | .asm => 0x15
  | .parse => 0x20
  | .tdes => 0x21
  | .dec => 0x22
  | .comp => 0x30
  | .decomp => 0x31

/-- The command word of a command: bits [31:8] zero, bits [7:0] the opcode (R80). -/
def encode (i : Instr) : Word := (0 : BitVec 24) ++ opcodeOf i

/-- The 32-bit command word that the opcode table's numbering describes: its low `nbits` bits, every bit
above them 0. `none` when the bits do not fit the one 32-bit format (R80). -/
def tableWord (nbits w : Nat) : Option Word :=
  let v := w % 2 ^ nbits
  if v < 2 ^ 32 then some (BitVec.ofNat 32 v) else none

/-- The instruction the decoder reads from an instruction whose bits are `w`, numbered as
spec/opcode_table.json numbers them. A command word is one 32-bit item (R80, R61), so there is no byte
order to apply. -/
def decodeTableWord (nbits w : Nat) : Option Instr :=
  match tableWord nbits w with
  | some v =>
    match decode v with
    | .ok i => some i
    | .error _ => none
  | none => none

end Sys2Proof
end

