-- ==== Sys2Proof/Config.lean ====
section
/-! DEFINITION. Config.lean: the parameter, the constants and the free values (00_scope.md R6, R16;
93_implementation_defined.md). -/

namespace Sys2Proof

/-- How far `BUF_CAP` lies above its least value 1024. No body: R6 leaves it open (log entry 1). -/
opaque Config.bufCapSlack : Fin 268434433

/-- `BUF_CAP`, the one open parameter of R6: 1024 to 2^28 bytes (log entry 1). -/
def Config.bufCap : Nat := Config.bufCapSlack.val + 1024

/-- What the `ID` register reads (10_state.md R33). -/
def Config.idWord : Word := 0x48554601

/-- `NIL`, the node index meaning "no node" (R6). -/
def Config.nil : NodeIdx := 0x1FF

/-- `TOPO_MAX` and `NODE_CAP` (R6). -/
def Config.nodeCap : Nat := 511

/-- `NSYM_MAX` and `ALPHA_MAX` (R6). -/
def Config.nsymMax : Nat := 256

/-- `TOPO_BYTES` (R6). -/
def Config.topoBytes : Nat := 64

/-- `HDR_LEN` (R6). -/
def Config.hdrLen : Nat := 12

/-- FREE VALUE. The byte at an offset of a memory whose content nobody has written since the epoch
began (10_state.md R50, 93_implementation_defined.md V1 to V4, V7; log entry 5). First argument: the
epoch; second: the offset. -/
opaque Config.unspecByte : Nat → Nat → Byte

/-- FREE VALUE. The 59 bits of a `NODE` entry whose content is unspecified (10_state.md R40, V1 to V4;
log entry 6). First argument: the epoch; second: the index. -/
opaque Config.unspecNode : Nat → Nat → BitVec 59

/-- FREE VALUE. What a host read returns where the spec leaves it unspecified (20_memory.md R64, R73,
V3, V5; log entry 4). The argument is the draw's number, so two reads need not agree. -/
opaque Config.unspecRead : Nat → Word

end Sys2Proof
end

