-- ==== Sys2Proof/Machine/State.lean ====
section
/-! DEFINITION. Machine/State.lean: the complete state of the block (10_state.md R20), the host's side of
the port as data, and the machine after reset (R50). -/

namespace Sys2Proof.Machine

/-- The control state of 10_state.md R21. -/
inductive Fsm where
  | idle
  | busy
  | faulted
  deriving DecidableEq, Repr

/-- A node's `kind` bit: 1 is Leaf, 0 is Internal (10_state.md R40, 00_scope.md R14). -/
inductive NodeKind where
  | leaf
  | internal
  deriving DecidableEq, Repr

/-- One entry of the `NODE` arena with its five fields (10_state.md R40). -/
structure Node where
  kind : NodeKind
  weight : Word
  left : NodeIdx
  right : NodeIdx
  tsym : Byte
  deriving DecidableEq, Repr

/-- A byte memory (10_state.md R44 to R47): the bytes whose content is known, by rising offset, and the
epoch that names the content of every other byte (log entry 5). -/
structure Memory where
  cells : List Host.Cell
  epoch : Nat
  deriving DecidableEq, Repr

/-- The `NODE` table (10_state.md R40): the entries from index 0 on whose content is known, and the epoch
that names the content of every other entry (log entry 6). -/
structure Arena where
  entries : List Node
  epoch : Nat
  deriving DecidableEq, Repr

/-- One turn of an agent (00_scope.md R15, 20_memory.md R60, 70_reset_and_hazards.md R280; log entry 2). -/
inductive Turn where
  /-- `HostWrite(a, v)`. -/
  | write (a v : Word)
  /-- `HostRead(a)`. -/
  | read (a : Word)
  /-- The block's turn: it completes its command if it has one. -/
  | block
  /-- The reset event. -/
  | reset
  deriving DecidableEq, Repr

/-- The kinds of fault a command can raise (60_exceptions.md R250). `InputUnreadable` (code 1) is none of
them: the block never raises it (R252). -/
inductive ErrKind where
  | emptyInput
  | invalidContainer
  | malformedTopology
  | decodeDesync
  | symbolNotInTable
  | capacityExceeded
  | notReady
  | badCommand
  deriving DecidableEq, Repr

/-- The reasons for which the MODEL stops. A fault of the block itself is no stop: it is taken, as
60_exceptions.md R260 says, and the machine goes on. -/
inductive Fault where
  /-- Raised by GENC and TSER, and by COMP through them, when the entries reachable from `ROOT` are no
  tree the rules could walk: a path of more than 255 branches (R126: "a bit sequence of at most 255
  bits"), or, at TSER, more than 511 nodes or 256 leaves (R136: "a list of at most 256 bytes"). Only a
  state that breaks 10_state.md R41 can raise it. SAFE: the model stops where the spec gives no effect
  (log entry 10). -/
  | notATree
  deriving DecidableEq, Repr

/-- The reasons for which an instruction has no meaning. -/
inductive Refusal where
  /-- Answered by `exec` for an instruction that has no meaning yet; no arm does so. SAFE. -/
  | notModelled (mnemonic : String)
  deriving DecidableEq, Repr

/-- The complete state (10_state.md R20), and three fields of the model's own: `agenda`, `hostData` and
`free` (log entries 2, 3, 8). -/
structure State where
  /-- `FSM` (R21). -/
  fsm : Fsm
  /-- Whether `BUSY` was entered from `FAULTED` (R21). -/
  fromFaulted : Bool
  /-- `PENDING`, the accepted command word (R21, R23). -/
  pending : Word
  /-- `STATUS.DONE` (R24, R25). -/
  doneFlag : Bool
  /-- `STATUS.STAGE` (R27). -/
  stage : Byte
  /-- `ERRCODE` (R26). -/
  errCode : BitVec 4
  /-- `ERRINFO` (R28). -/
  errInfo : Word
  /-- `IN_LEN` (R29). -/
  inLen : BitVec 29
  /-- `OUT_LEN` (R30). -/
  outLen : BitVec 29
  /-- `ALPHA_LEN` (R31). -/
  alphaLen : BitVec 9
  /-- `TOPO_BITS` (R31). -/
  topoBits : BitVec 10
  /-- `PAY_BITS` (R31). -/
  payBits : Word
  /-- `ROOT` (R32). -/
  root : NodeIdx
  /-- `NODE_CNT` (R32). -/
  nodeCnt : BitVec 10
  /-- `NSYM` (R32). -/
  nsym : BitVec 9
  /-- `FREQ[0..255]` (R42). -/
  freq : Vector Word 256
  /-- `NODE[0..510]` (R40). -/
  nodes : Arena
  /-- `CODE_VALID`, `CODE_LEN`, `CODE_BITS` (R43): an entry is present when `CODE_VALID` is 1, and is then
  the bit sequence `code[0 .. CODE_LEN)` (log entry 7). -/
  code : Vector (Option BitSeq) 256
  /-- `IN_MEM` (R44). -/
  inMem : Memory
  /-- `OUT_MEM` (R45). -/
  outMem : Memory
  /-- `PAY_MEM` (R47). -/
  payMem : Memory
  /-- `ALPHA_MEM` (R46). -/
  alphaMem : Memory
  /-- `TOPO_MEM` (R47). -/
  topoMem : Memory
  /-- The turns still to come (log entry 2). -/
  agenda : List Turn
  /-- The value the last `HostRead` returned (log entry 3). -/
  hostData : Word
  /-- How many free values have been drawn (log entry 8). -/
  free : Nat
  deriving DecidableEq, Repr

/-- A memory of which nothing is known, in the given epoch. -/
def Memory.unknown (epoch : Nat) : Memory := { cells := [], epoch := epoch }

/-- A node table of which nothing is known, in the given epoch. -/
def Arena.unknown (epoch : Nat) : Arena := { entries := [], epoch := epoch }

/-- The machine right after reset (10_state.md R50, 70_reset_and_hazards.md R280). `pending`,
`fromFaulted` and the model's own fields are the log's (entries 2, 3, 8, 9). -/
def State.reset : State where
  fsm := .idle
  fromFaulted := false
  pending := 0
  doneFlag := false
  stage := 0
  errCode := 0
  errInfo := 0
  inLen := 0
  outLen := 0
  alphaLen := 0
  topoBits := 0
  payBits := 0
  root := Config.nil
  nodeCnt := 0
  nsym := 0
  freq := Vector.replicate 256 0
  nodes := Arena.unknown 5
  code := Vector.replicate 256 none
  inMem := Memory.unknown 0
  outMem := Memory.unknown 1
  payMem := Memory.unknown 2
  alphaMem := Memory.unknown 3
  topoMem := Memory.unknown 4
  agenda := []
  hostData := 0
  free := 6

end Sys2Proof.Machine
end

