-- ==== Sys2Proof/Machine/Ops.lean ====
section
/-! DEFINITION. Machine/Ops.lean: the named operations over memories, tables and registers, how a stage
ends, and taking a fault (00_scope.md R11, R12; 20_memory.md; 60_exceptions.md R260, R261). -/

namespace Sys2Proof.Machine

/-! ### Integers and bytes -/

/-- `ceil8(n) = (n + 7) div 8` (R11). -/
def ceil8 (n : Nat) : Nat := (n + 7) / 8

/-- `be32(v)`: the four bytes of `v`, most significant first (R12, R65). -/
def be32 (v : Word) : List Byte :=
  [v.extractLsb' 24 8, v.extractLsb' 16 8, v.extractLsb' 8 8, v.extractLsb' 0 8]

/-- `rd_be32`: four bytes, most significant first, as one word (R12, R65). -/
def rdBe32 (b0 b1 b2 b3 : Byte) : Word := b0 ++ b1 ++ b2 ++ b3

/-- The 256 symbols in ascending order (R8, R113). -/
def allSymbols : List Byte := (List.range 256).map (BitVec.ofNat 8)

/-! ### Byte memories -/

/-- The listed byte at an offset. -/
def cellFind (a : Nat) : List Host.Cell → Option Byte
  | [] => none
  | c :: cs => if c.1 = a then some c.2 else cellFind a cs

/-- Listing a byte at an offset, in the place its offset gives it. -/
def cellPut (a : Nat) (b : Byte) : List Host.Cell → List Host.Cell
  | [] => [(a, b)]
  | c :: cs =>
    if a < c.1 then (a, b) :: c :: cs
    else if c.1 = a then (a, b) :: cs
    else c :: cellPut a b cs

/-- The given bytes listed at consecutive offsets. -/
def cellsFrom (a : Nat) : List Byte → List Host.Cell
  | [] => []
  | b :: bs => (a, b) :: cellsFrom (a + 1) bs

/-- Offsets strictly rise. -/
def cellsRising : List Host.Cell → Bool
  | [] => true
  | [_] => true
  | c :: d :: cs => decide (c.1 < d.1) && cellsRising (d :: cs)

/-- The canonical form of a memory: offsets strictly rising, so no repeats. An unlisted byte has no known
value (log entry 5), so no listed byte can equal it. -/
def Memory.wf (m : Memory) : Bool := cellsRising m.cells

/-- Every listed byte lies below `n`. -/
def Memory.below (n : Nat) (m : Memory) : Bool := m.cells.all (fun c => decide (c.1 < n))

/-- `MemRead(space, a, 1)` (R12). A byte nobody has written in this epoch is a free value (log entry 5). -/
def memRead (m : Memory) (a : Nat) : Byte :=
  match cellFind a m.cells with
  | some b => b
  | none => Config.unspecByte m.epoch a

/-- `MemWrite(space, a, 1, b)` (R12). -/
def memWrite (m : Memory) (a : Nat) (b : Byte) : Memory := { m with cells := cellPut a b m.cells }

/-- A memory that holds the given bytes from offset 0 on and whose other bytes are unspecified from now
on (10_state.md R45, 20_memory.md R64). -/
def memLoad (bs : List Byte) (epoch : Nat) : Memory := { cells := cellsFrom 0 bs, epoch := epoch }

/-- The first `n` bytes of a memory. -/
def memBytes (m : Memory) (n : Nat) : List Byte := (List.range n).map (memRead m)

/-! ### Node table -/

/-- The node a free 59-bit value stands for, field by field in the order of R40 (log entry 6). -/
def nodeOfBits (v : BitVec 59) : Node where
  kind := if v.getLsbD 58 then .leaf else .internal
  weight := v.extractLsb' 26 32
  left := v.extractLsb' 17 9
  right := v.extractLsb' 8 9
  tsym := v.extractLsb' 0 8

/-- `NODE[i]` (R12, R40). An entry that is not known is a free value (log entry 6). -/
def nodeAt (t : Arena) (i : NodeIdx) : Node :=
  match t.entries[i.toNat]? with
  | some n => n
  | none => nodeOfBits (Config.unspecNode t.epoch i.toNat)

/-! ### Writing the products

Each operation writes one product with the register that covers it; what the product's memory holds
beyond it is unspecified from then on, so the memory gets a fresh epoch (10_state.md R45, R40;
60_exceptions.md R261; log entry 5). -/

/-- `OUT_MEM[0 ..) <- bs`, `OUT_LEN <- length` (R30, R45). -/
def setOut (bs : List Byte) (s : State) : State :=
  { s with
    outMem := memLoad bs s.free
    outLen := BitVec.ofNat 29 bs.length
    free := s.free + 1 }

/-- `ALPHA_MEM[0 ..) <- bs`, `ALPHA_LEN <- length` (R31, R46). -/
def setAlpha (bs : List Byte) (s : State) : State :=
  { s with
    alphaMem := memLoad bs s.free
    alphaLen := BitVec.ofNat 9 bs.length
    free := s.free + 1 }

/-- `TOPO_MEM[0 ..) <- bs`, `TOPO_BITS <- bits` (R31, R47). -/
def setTopo (bs : List Byte) (bits : Nat) (s : State) : State :=
  { s with
    topoMem := memLoad bs s.free
    topoBits := BitVec.ofNat 10 bits
    free := s.free + 1 }

/-- `PAY_MEM[0 ..) <- bs`, `PAY_BITS <- bits` (R31, R47). -/
def setPay (bs : List Byte) (bits : Nat) (s : State) : State :=
  { s with
    payMem := memLoad bs s.free
    payBits := BitVec.ofNat 32 bits
    free := s.free + 1 }

/-- `NODE[0 ..) <- ns`, `ROOT <- root`, `NODE_CNT <- length`, `NSYM <- nsym` (R32, R40). -/
def setTree (ns : List Node) (root nsym : Nat) (s : State) : State :=
  { s with
    nodes := { entries := ns, epoch := s.free }
    root := BitVec.ofNat 9 root
    nodeCnt := BitVec.ofNat 10 ns.length
    nsym := BitVec.ofNat 9 nsym
    free := s.free + 1 }

/-! ### Invalidating the products (60_exceptions.md R261) -/

/-- `OUT_LEN <- 0`; the bytes become unspecified. -/
def dropOut (s : State) : State := setOut [] s

/-- `ALPHA_LEN <- 0`; the bytes become unspecified. -/
def dropAlpha (s : State) : State := setAlpha [] s

/-- `TOPO_BITS <- 0`; the bytes become unspecified. -/
def dropTopo (s : State) : State := setTopo [] 0 s

/-- `PAY_BITS <- 0`; the bytes become unspecified. -/
def dropPay (s : State) : State := setPay [] 0 s

/-- `ROOT <- NIL`, `NODE_CNT <- 0`, `NSYM <- 0`; the entries become unspecified. -/
def dropTree (s : State) : State :=
  { s with
    nodes := Arena.unknown s.free
    root := Config.nil
    nodeCnt := 0
    nsym := 0
    free := s.free + 1 }

/-- `FREQ[s] <- 0` for every symbol. -/
def clearFreq (s : State) : State := { s with freq := Vector.replicate 256 0 }

/-- `CODE_VALID[s] <- 0` for every symbol. -/
def clearCode (s : State) : State := { s with code := Vector.replicate 256 none }

/-- What CLR writes: every register and table at its reset value. `IN_MEM` keeps its content; the other
memories and the node table become unspecified (49_control.md R224). -/
def clearAll (s : State) : State :=
  { s with
    stage := 0
    errCode := 0
    errInfo := 0
    inLen := 0
    outLen := 0
    alphaLen := 0
    topoBits := 0
    payBits := 0
    root := Config.nil
    nodeCnt := 0
    nsym := 0
    freq := Vector.replicate 256 0
    code := Vector.replicate 256 none
    outMem := Memory.unknown s.free
    payMem := Memory.unknown (s.free + 1)
    alphaMem := Memory.unknown (s.free + 2)
    topoMem := Memory.unknown (s.free + 3)
    nodes := Arena.unknown (s.free + 4)
    free := s.free + 5 }

/-- `STAGE <- opcode` (10_state.md R27). -/
def setStage (i : Instr) (s : State) : State := { s with stage := opcodeOf i }

/-! ### How a stage ends -/

/-- The end of a stage's rule. -/
inductive Ran where
  /-- The rule ran to its end and left this state. -/
  | done (s : State)
  /-- `raise K(info)` was reached; the state is what the rule had written by then (R12, R260). -/
  | raised (k : ErrKind) (info : Word) (s : State)
  /-- The model stops. -/
  | halted (f : Fault)
  deriving DecidableEq, Repr

/-- Running a stage on the state the one before left, unless that one raised (49_control.md R225). -/
def andThen (r : Ran) (next : State → Ran) : Ran :=
  match r with
  | .done s => next s
  | .raised k info s => .raised k info s
  | .halted f => .halted f

/-- What COMP and DECOMP add at the first raise: `OUT_LEN <- 0` (49_control.md R225, R226). -/
def dropOutOnRaise (r : Ran) : Ran :=
  match r with
  | .done s => .done s
  | .raised k info s => .raised k info (dropOut s)
  | .halted f => .halted f

/-! ### Taking a fault, and completion -/

/-- `code(K)` (60_exceptions.md R250). -/
def errCodeOf : ErrKind → BitVec 4
  | .emptyInput => 2
  | .invalidContainer => 3
  | .malformedTopology => 4
  | .decodeDesync => 5
  | .symbolNotInTable => 6
  | .capacityExceeded => 7
  | .notReady => 8
  | .badCommand => 9

/-- Fault entry (60_exceptions.md R260): the record, `FSM <- FAULTED`, `DONE <- 0`; `STAGE` keeps the
stage that raised. -/
def enterFault (k : ErrKind) (info : Word) (s : State) : State :=
  { s with
    errCode := errCodeOf k
    errInfo := info
    fsm := .faulted
    fromFaulted := false
    doneFlag := false }

/-- Completion without error (49_control.md R222): `DONE` is 1 unless the command was CLR. From `FAULTED`
only CLR is accepted, so this is also the return from a fault (60_exceptions.md R264). -/
def completeOk (isClr : Bool) (s : State) : State :=
  { s with
    errCode := 0
    errInfo := 0
    fsm := .idle
    fromFaulted := false
    doneFlag := !isClr }

/-- The completion step's outcome for a stage's end (49_control.md R222). -/
def complete (isClr : Bool) (r : Ran) : Host.Outcome State Fault Refusal :=
  match r with
  | .done s => .next (completeOk isClr s)
  | .raised k info s => .next (enterFault k info s)
  | .halted f => .fault f

/-- Completion of a word that is no command: `STAGE <- 0x00`, `BadCommand(word)`, nothing else
(49_control.md R222, 60_exceptions.md R259). -/
def badCommand (s : State) : State := enterFault .badCommand s.pending { s with stage := 0 }

end Sys2Proof.Machine
end

