-- ==== Sys2Proof/Machine/BitPacker.lean ====
section
/-! DEFINITION. Machine/BitPacker.lean: the BitPacker and the BitUnpacker (45_bit_packer_unpacker.md). -/

namespace Sys2Proof.Machine

/-- The packer's hidden state (R161). The target's bytes written so far are `written`, so `BP` is their
number. -/
structure Packer where
  acc : Byte
  nb : Nat
  written : List Byte
  tot : Nat
  deriving DecidableEq, Repr

/-- `bp_reset` (R161). -/
def bpReset : Packer := { acc := 0, nb := 0, written := [], tot := 0 }

/-- `bp_push(bit)` (R162). -/
def bpPush (p : Packer) (bit : Bool) : Packer :=
  let acc := (p.acc <<< 1) ||| (BitVec.ofBool bit).setWidth 8
  if p.nb + 1 = 8 then { acc := 0, nb := 0, written := p.written ++ [acc], tot := p.tot + 1 }
  else { p with acc := acc, nb := p.nb + 1, tot := p.tot + 1 }

/-- `bp_push_code` (R162): the code's bits in order. -/
def bpPushCode (p : Packer) (code : BitSeq) : Packer := code.foldl bpPush p

/-- The bytes `bp_flush` leaves in the target; it returns `tot` (R163). -/
def bpFlush (p : Packer) : List Byte :=
  if 0 < p.nb then p.written ++ [p.acc <<< (8 - p.nb)] else p.written

/-- A whole packing run: reset, push the bits in order, flush (R164). -/
def pack (b : BitSeq) : List Byte := bpFlush (bpPushCode bpReset b)

/-- `getbit(mem, k)` (R166, R10): bit `7 - (k mod 8)` of byte `k div 8`. -/
def getBit (m : Memory) (k : Nat) : Bool := (memRead m (k / 8)).getLsbD (7 - k % 8)

/-- `unpack(mem, L)` (R167). -/
def unpack (m : Memory) (len : Nat) : BitSeq := (List.range len).map (getBit m)

/-- Clearing the padding bits of the last of the bytes that hold `len` bits (48_container.md R202,
R204): `byte & (0xFF << (8 - len mod 8)) & 0xFF` when `len mod 8 != 0`. -/
def clearPadding (len : Nat) (bs : List Byte) : List Byte :=
  if len % 8 = 0 then bs
  else bs.modify (ceil8 len - 1) (fun b => b &&& ((0xFF : Byte) <<< (8 - len % 8)))

end Sys2Proof.Machine
end

