-- ==== Sys2Proof/Machine/Operands.lean ====
section
/-! DEFINITION. Machine/Operands.lean: the implicit operands of the commands (30_encoding.md R82), each
read over the extent its length register gives (20_memory.md R64). -/

namespace Sys2Proof.Machine

/-- `IN_MEM[0 .. IN_LEN)` (10_state.md R29, R44). -/
def inBytes (s : State) : List Byte := memBytes s.inMem s.inLen.toNat

/-- `OUT_MEM[0 .. OUT_LEN)` (R30, R45). -/
def outBytes (s : State) : List Byte := memBytes s.outMem s.outLen.toNat

/-- `ALPHA_MEM[0 .. ALPHA_LEN)` (R31, R46). -/
def alphaBytes (s : State) : List Byte := memBytes s.alphaMem s.alphaLen.toNat

/-- `TOPO_MEM[0 .. ceil8(TOPO_BITS))` (R31, R47). -/
def topoBytes (s : State) : List Byte := memBytes s.topoMem (ceil8 s.topoBits.toNat)

/-- `PAY_MEM[0 .. ceil8(PAY_BITS))` (R31, R47). -/
def payBytes (s : State) : List Byte := memBytes s.payMem (ceil8 s.payBits.toNat)

/-- The topology bits `t[0 .. TOPO_BITS)` (R47, 45_bit_packer_unpacker.md R167). -/
def topoSeq (s : State) : BitSeq := unpack s.topoMem s.topoBits.toNat

/-- The payload bits `p[0 .. PAY_BITS)` (R47, 45_bit_packer_unpacker.md R167). -/
def paySeq (s : State) : BitSeq := unpack s.payMem s.payBits.toNat

/-- `FREQ[sym]` (R42). -/
def freqAt (s : State) (sym : Byte) : Word := s.freq[sym.toNat]'sym.isLt

/-- The CodeTable's entry for a symbol; absent when `CODE_VALID[sym]` is 0 (R43). -/
def codeAt (s : State) (sym : Byte) : Option BitSeq := s.code[sym.toNat]'sym.isLt

/-- `CODE_VALID[sym]` (R43). -/
def codeValid (s : State) (sym : Byte) : Bool := (codeAt s sym).isSome

/-- `CODE_LEN[sym]` of a valid entry, and 0 otherwise, as the host window shows it (R43,
30_encoding.md R88). -/
def codeLen (s : State) (sym : Byte) : Nat :=
  match codeAt s sym with
  | some c => c.length
  | none => 0

/-- `ROOT == NIL`: the block holds no tree (R32). -/
def noTree (s : State) : Bool := s.root == Config.nil

end Sys2Proof.Machine
end

