-- ==== Sys2Proof/Machine/Trees.lean ====
section
/-! DEFINITION. Machine/Trees.lean: the tree that the entries reachable from `ROOT` form, and the two
traversals of it as the spec's closed forms give them (10_state.md R40, R41; 42_code_table.md R125;
43_tree_serializer.md R135). -/

namespace Sys2Proof.Machine

/-- A tree of the arena, without indices and weights, as 41_tree_builder.md R117 compares trees. `absent`
is a `NIL` child. -/
inductive Tree where
  | absent
  | leaf (sym : Byte)
  | internal (left right : Tree)
  deriving DecidableEq, Repr

/-- The tree at a node index, walked at most `fuel` levels deep; `none` where it is deeper. -/
def readTree (t : Arena) : Nat → NodeIdx → Option Tree
  | 0, i => if i = Config.nil then some .absent else none
  | fuel + 1, i =>
    if i = Config.nil then some .absent
    else
      match (nodeAt t i).kind with
      | .leaf => some (.leaf (nodeAt t i).tsym)
      | .internal =>
        match readTree t fuel (nodeAt t i).left, readTree t fuel (nodeAt t i).right with
        | some l, some r => some (.internal l r)
        | _, _ => none

/-- The tree at `ROOT`. A path has at most 255 branches (42_code_table.md R126, R129), so 256 levels of
nodes are all a walk can meet; `none` where the entries go deeper. -/
def treeOf (s : State) : Option Tree := readTree s.nodes 256 s.root

/-- `walk(n, path)` (R125, R126): the symbols with their paths, left subtree first. -/
def walkCodes : Tree → BitSeq → List (Byte × BitSeq)
  | .absent, _ => []
  | .leaf sym, path => [(sym, path)]
  | .internal l r, path => walkCodes l (path ++ [false]) ++ walkCodes r (path ++ [true])

/-- `emit(n)` (R135): the post-order topology bits, 1 for a Leaf, 0 for an Internal node, nothing for an
absent child. -/
def emitTopology : Tree → BitSeq
  | .absent => []
  | .leaf _ => [true]
  | .internal l r => emitTopology l ++ emitTopology r ++ [false]

/-- The side list (R135): the Leaf symbols from left to right. -/
def sideList : Tree → List Byte
  | .absent => []
  | .leaf sym => [sym]
  | .internal l r => sideList l ++ sideList r

end Sys2Proof.Machine
end

