-- ==== Sys2Proof/Machine/CodeTable.lean ====
section
/-! DEFINITION. Machine/CodeTable.lean: the CodeTableGenerator unit, command GENC (42_code_table.md). -/

namespace Sys2Proof.Machine

/-- Recording a symbol's code (R126): `CODE_VALID <- 1`, `CODE_LEN` and `CODE_BITS <- path`. -/
def recordCode (table : Vector (Option BitSeq) 256) (e : Byte × BitSeq) : Vector (Option BitSeq) 256 :=
  table.set e.1.toNat (some e.2) e.1.isLt

/-- The CodeTable of a tree: all entries cleared, then the Leaves recorded in walk order, so that of two
Leaves with one symbol the later stays (R126, R128). -/
def codeTableOf (t : Tree) : Vector (Option BitSeq) 256 :=
  (walkCodes t []).foldl recordCode (Vector.replicate 256 none)

/-- The rule of GENC (R126). -/
def runGenc (s : State) : Ran :=
  let s := clearCode (setStage .genc s)
  if noTree s then .raised .notReady 0 s
  else
    match treeOf s with
    | some t => .done { s with code := codeTableOf t }
    | none => .halted .notATree

/-- GENC (R126), completed as R222 says. -/
def execGenc (s : State) : Host.Outcome State Fault Refusal := complete false (runGenc s)

end Sys2Proof.Machine
end

