-- ==== Sys2Proof/Machine/Container.lean ====
section
/-! DEFINITION. Machine/Container.lean: the ContainerFormat unit, commands ASM and PARSE
(48_container.md). -/

namespace Sys2Proof.Machine

/-- The container's bytes (R200): three big-endian length fields, the Alphabet, the topology bytes, the
payload bytes. -/
def containerBytes (a t p : Word) (alpha topo pay : List Byte) : List Byte :=
  be32 a ++ be32 t ++ be32 p ++ alpha ++ topo ++ pay

/-- The container's length in bytes, exact (R200, R203). -/
def containerLen (a t p : Nat) : Nat := Config.hdrLen + a + ceil8 t + ceil8 p

/-- The rule of ASM (R201). -/
def runAsm (s : State) : Ran :=
  let s := setStage .asm s
  if containerLen s.alphaLen.toNat s.topoBits.toNat s.payBits.toNat ≤ Config.bufCap then
    .done (setOut
      (containerBytes (s.alphaLen.setWidth 32) (s.topoBits.setWidth 32) s.payBits
        (alphaBytes s) (topoBytes s) (payBytes s)) s)
  else .raised .capacityExceeded 3 (dropOut s)

/-- ASM (R201), completed as R222 says. -/
def execAsm (s : State) : Host.Outcome State Fault Refusal := complete false (runAsm s)

/-- The header field at an offset of a memory (R202). -/
def headerField (m : Memory) (a : Nat) : Word :=
  rdBe32 (memRead m a) (memRead m (a + 1)) (memRead m (a + 2)) (memRead m (a + 3))

/-- `n` bytes of a memory from an offset on. -/
def memSlice (m : Memory) (a n : Nat) : List Byte := (List.range n).map (fun j => memRead m (a + j))

/-- The invalidation of a PARSE that faults: the three lengths (R202). -/
def dropParsed (s : State) : State := dropPay (dropTopo (dropAlpha s))

/-- The rule of PARSE (R202): the checks in their order, then the three copies with their padding bits
cleared (R204). -/
def runParse (s : State) : Ran :=
  let s := setStage .parse s
  let a := (headerField s.inMem 0).toNat
  let t := (headerField s.inMem 4).toNat
  let p := (headerField s.inMem 8).toNat
  if s.inLen.toNat < Config.hdrLen then .raised .invalidContainer 1 (dropParsed s)
  else if containerLen a t p ≠ s.inLen.toNat then .raised .invalidContainer 2 (dropParsed s)
  else if Config.nsymMax < a then .raised .invalidContainer 3 (dropParsed s)
  else if Config.nodeCap < t then .raised .invalidContainer 4 (dropParsed s)
  else
    .done
      (setPay (clearPadding p (memSlice s.inMem (Config.hdrLen + a + ceil8 t) (ceil8 p))) p
        (setTopo (clearPadding t (memSlice s.inMem (Config.hdrLen + a) (ceil8 t))) t
          (setAlpha (memSlice s.inMem Config.hdrLen a) s)))

/-- PARSE (R202), completed as R222 says. -/
def execParse (s : State) : Host.Outcome State Fault Refusal := complete false (runParse s)

end Sys2Proof.Machine
end

