-- ==== Sys2Proof/Machine/Decoder.lean ====
section
/-! DEFINITION. Machine/Decoder.lean: the Decoder unit, command DEC (47_decoder.md). -/

namespace Sys2Proof.Machine

/-- How the decoding loop ends: the symbols, or the raise that stopped it. -/
inductive Decoded where
  | symbols (bs : List Byte)
  | raise (k : ErrKind) (info : Word)
  deriving DecidableEq, Repr

/-- The child a bit selects (R185): 0 left, 1 right. -/
def childAt (t : Arena) (cur : NodeIdx) (bit : Bool) : NodeIdx :=
  if bit then (nodeAt t cur).right else (nodeAt t cur).left

/-- The loop of DEC (R186) over the bits still to consume, at the walk position `cur` and with `out` the
symbols stored by then. `cap` is `BUF_CAP`. -/
def decodeLoop (cap : Nat) (t : Arena) (root : NodeIdx) : BitSeq → NodeIdx → List Byte → Decoded
  | [], cur, out => if cur = root then .symbols out else .raise .decodeDesync 1
  | bit :: rest, cur, out =>
    let next := childAt t cur bit
    if next = Config.nil then .raise .decodeDesync 2
    else
      match (nodeAt t next).kind with
      | .leaf =>
        if out.length = cap then .raise .capacityExceeded 4
        else decodeLoop cap t root rest root (out ++ [(nodeAt t next).tsym])
      | .internal => decodeLoop cap t root rest next out

/-- What DEC makes of a payload, given a tree (R186): a root that is a bare Leaf decodes the empty payload
only (R188). -/
def decodePayload (cap : Nat) (t : Arena) (root : NodeIdx) (p : BitSeq) : Decoded :=
  match (nodeAt t root).kind with
  | .leaf => if p.length = 0 then .symbols [] else .raise .decodeDesync 3
  | .internal => decodeLoop cap t root p root []

/-- The rule of DEC (R186). -/
def runDec (s : State) : Ran :=
  let s := setStage .dec s
  if noTree s then .raised .notReady 0 (dropOut s)
  else
    match decodePayload Config.bufCap s.nodes s.root (paySeq s) with
    | .symbols bs => .done (setOut bs s)
    | .raise k info => .raised k info (dropOut s)

/-- DEC (R186), completed as R222 says. -/
def execDec (s : State) : Host.Outcome State Fault Refusal := complete false (runDec s)

end Sys2Proof.Machine
end

