-- ==== Sys2Proof/Machine/Encoder.lean ====
section
/-! DEFINITION. Machine/Encoder.lean: the Encoder unit, command ENC (46_encoder.md). -/

namespace Sys2Proof.Machine

/-- How the encoding loop ends: the payload bits, or the raise that stopped it. -/
inductive Encoded where
  | bits (b : BitSeq)
  | raise (k : ErrKind) (info : Word)
  deriving DecidableEq, Repr

/-- The loop of ENC (R176) from input index `i` on, with `sofar` the bits pushed by then. `cap` is
`BUF_CAP`. -/
def encodeLoop (cap : Nat) (code : Vector (Option BitSeq) 256) : Nat → List Byte → BitSeq → Encoded
  | _, [], sofar => .bits sofar
  | i, sym :: rest, sofar =>
    match code[sym.toNat]'sym.isLt with
    | none => .raise .symbolNotInTable (BitVec.ofNat 32 i)
    | some c =>
      if 8 * cap < sofar.length + c.length then .raise .capacityExceeded 2
      else encodeLoop cap code (i + 1) rest (sofar ++ c)

/-- The rule of ENC (R176). -/
def runEnc (s : State) : Ran :=
  let s := setStage .enc s
  match encodeLoop Config.bufCap s.code 0 (inBytes s) [] with
  | .bits b => .done (setPay (pack b) b.length s)
  | .raise k info => .raised k info (dropPay s)

/-- ENC (R176), completed as R222 says. -/
def execEnc (s : State) : Host.Outcome State Fault Refusal := complete false (runEnc s)

end Sys2Proof.Machine
end

