-- ==== Sys2Proof/Machine/SymbolTable.lean ====
section
/-! DEFINITION. Machine/SymbolTable.lean: the SymbolTable unit, command HIST (40_symbol_table.md). -/

namespace Sys2Proof.Machine

/-- Occurrence counts of the 256 symbols in a byte sequence. A count never wraps, since a sequence has at
most 2^28 bytes (R100). -/
def histogram (bs : List Byte) : Vector Word 256 :=
  Vector.ofFn (fun i => BitVec.ofNat 32 (bs.count (BitVec.ofNat 8 i.val)))

/-- The rule of HIST (R100, R102). -/
def runHist (s : State) : Ran :=
  let s := setStage .hist s
  if s.inLen.toNat = 0 then .raised .emptyInput 0 (clearFreq s)
  else .done { s with freq := histogram (inBytes s) }

/-- HIST (R100), completed as R222 says. -/
def execHist (s : State) : Host.Outcome State Fault Refusal := complete false (runHist s)

end Sys2Proof.Machine
end

