-- ==== Sys2Proof/Machine/TreeBuilder.lean ====
section
/-! DEFINITION. Machine/TreeBuilder.lean: the TreeBuilder unit, command BUILD (41_tree_builder.md). -/

namespace Sys2Proof.Machine

/-- `key(x) < key(y)` for the key `(weight, tsym)` (R111). -/
def keyLt (x y : Node) : Bool :=
  decide (x.weight < y.weight) || (x.weight == y.weight && decide (x.tsym < y.tsym))

/-- `PQ.insert` (R112). The queue is held as the list of its members, index and node, by rising key, so
that `PQ.removeMin` takes the head; the structure cannot be observed, the keys of the members being
pairwise different (R119). -/
def pqInsert (x : Nat × Node) : List (Nat × Node) → List (Nat × Node)
  | [] => [x]
  | y :: ys => if keyLt x.2 y.2 then x :: y :: ys else y :: pqInsert x ys

/-- A Leaf as BUILD makes it (R113). -/
def leafNode (weight : Word) (sym : Byte) : Node :=
  { kind := .leaf, weight := weight, left := Config.nil, right := Config.nil, tsym := sym }

/-- `min` of two symbols (R111). -/
def minSym (a b : Byte) : Byte := if a ≤ b then a else b

/-- The Leaves in ascending symbol order, one for each nonzero count (R113). -/
def leafNodes (freq : Vector Word 256) : List Node :=
  allSymbols.filterMap (fun sym =>
    let w := freq[sym.toNat]'sym.isLt
    if w = 0 then none else some (leafNode w sym))

/-- The queue after the Leaves have been inserted in the order of their indices (R113). -/
def initialQueue (leaves : List Node) : List (Nat × Node) :=
  (leaves.zipIdx).foldl (fun q x => pqInsert (x.2, x.1) q) []

/-- The Internal node over the two removed members `a` and `b` (R110, R114). -/
def mergedNode (a b : Nat × Node) : Node where
  kind := .internal
  weight := a.2.weight + b.2.weight
  left := BitVec.ofNat 9 a.1
  right := BitVec.ofNat 9 b.1
  tsym := minSym a.2.tsym b.2.tsym

/-- The merge loop (R114, R116): the arena it leaves, or `none` where a sum exceeds 2^32-1 (R120). `fuel`
bounds the rounds; each round makes the queue one member shorter. -/
def mergeLoop : Nat → List (Nat × Node) → List Node → Option (List Node)
  | fuel + 1, a :: b :: rest, arena =>
    if 0xFFFFFFFF < a.2.weight.toNat + b.2.weight.toNat then none
    else
      mergeLoop fuel (pqInsert (arena.length, mergedNode a b) rest) (arena ++ [mergedNode a b])
  | _, _, arena => some arena

/-- The synthetic wrapper over the single Leaf, node 0 (R115). -/
def wrapperNode (leaf : Node) : Node :=
  { kind := .internal, weight := leaf.weight, left := 0, right := Config.nil, tsym := leaf.tsym }

/-- The arena BUILD makes of two or more Leaves (R114). -/
def mergeLeaves (leaves : List Node) : Option (List Node) :=
  mergeLoop leaves.length (initialQueue leaves) leaves

/-- The rule of BUILD (R116). The root is the node created last (R114, R115). -/
def runBuild (s : State) : Ran :=
  let s := setStage .build s
  match leafNodes s.freq with
  | [] => .raised .emptyInput 0 (dropTree s)
  | [leaf] => .done (setTree [leaf, wrapperNode leaf] 1 1 s)
  | leaves =>
    match mergeLeaves leaves with
    | none => .raised .capacityExceeded 1 (dropTree s)
    | some arena => .done (setTree arena (arena.length - 1) leaves.length s)

/-- BUILD (R116), completed as R222 says. -/
def execBuild (s : State) : Host.Outcome State Fault Refusal := complete false (runBuild s)

end Sys2Proof.Machine
end

