-- ==== Sys2Proof/Machine/TreeDeserializer.lean ====
section
/-! DEFINITION. Machine/TreeDeserializer.lean: the TreeDeserializer unit, command TDES
(44_tree_deserializer.md). -/

namespace Sys2Proof.Machine

/-- What one call of `rec` leaves (R145): the node entries it wrote, in the order of their indices, which
start at the call's own `cnt`; the bits not yet popped, the next to pop first; and the alphabet cursor. -/
structure Rebuilt where
  entries : List Node
  rest : BitSeq
  ai : Nat
  deriving DecidableEq, Repr

/-- A node as TDES makes it: weight 0, and `tsym` 0 for an Internal node (R145, R149). -/
def rebuiltLeaf (sym : Byte) : Node :=
  { kind := .leaf, weight := 0, left := Config.nil, right := Config.nil, tsym := sym }

/-- An Internal node as TDES makes it (R145, R149). -/
def rebuiltInternal (left right : NodeIdx) : Node :=
  { kind := .internal, weight := 0, left := left, right := right, tsym := 0 }

/-- `rec()` (R145) on the bits still to pop, with `cnt` the index of the node it makes: right subtree
first, then left. `none` is premature exhaustion. `alpha` is `ALPHA_MEM`. Every level pops a bit, so `fuel` levels
suffice for fewer than `fuel` bits, and no bit is left where the fuel ends. -/
def rebuild (alpha : Memory) : Nat → BitSeq → Nat → Nat → Option Rebuilt
  | 0, _, _, _ => none
  | _ + 1, [], _, _ => none
  | _ + 1, true :: rest, _, ai =>
    some { entries := [rebuiltLeaf (memRead alpha ai)], rest := rest, ai := ai + 1 }
  | fuel + 1, false :: rest, cnt, ai =>
    match rebuild alpha fuel rest (cnt + 1) ai with
    | none => none
    | some r =>
      match rebuild alpha fuel r.rest (cnt + 1 + r.entries.length) r.ai with
      | none => none
      | some l =>
        some
          { entries :=
              rebuiltInternal (BitVec.ofNat 9 (cnt + 1 + r.entries.length)) (BitVec.ofNat 9 (cnt + 1))
                :: (r.entries ++ l.entries)
            rest := l.rest
            ai := l.ai }

/-- The wrapper's topology `1 0` (R147). -/
def wrapperTopology : BitSeq := [true, false]

/-- The rule of TDES (R146): the Leaf count first (R148), then the wrapper (R147), then the walk from the
end of the topology (R145), which must use up every bit. -/
def runTdes (s : State) : Ran :=
  let s := setStage .tdes s
  let t := topoSeq s
  if t.count true ≠ s.alphaLen.toNat then .raised .invalidContainer 5 (dropTree s)
  else if t = wrapperTopology then
    .done (setTree [rebuiltInternal 1 Config.nil, rebuiltLeaf (memRead s.alphaMem 0)] 0 1 s)
  else
    match rebuild s.alphaMem (t.length + 1) t.reverse 0 0 with
    | none => .raised .malformedTopology 1 (dropTree s)
    | some b =>
      if b.rest = [] then .done (setTree b.entries 0 b.ai s)
      else .raised .malformedTopology 2 (dropTree s)

/-- TDES (R146), completed as R222 says. -/
def execTdes (s : State) : Host.Outcome State Fault Refusal := complete false (runTdes s)

end Sys2Proof.Machine
end

