-- ==== Sys2Proof/Machine/TreeSerializer.lean ====
section
/-! DEFINITION. Machine/TreeSerializer.lean: the TreeSerializer unit, command TSER
(43_tree_serializer.md). -/

namespace Sys2Proof.Machine

/-- The topology and the side list fit `TOPO_MEM` and `ALPHA_MEM`, as those of every tree of R41 do
(R136). -/
def serialFits (t : Tree) : Bool :=
  decide ((emitTopology t).length ≤ Config.nodeCap) && decide ((sideList t).length ≤ Config.nsymMax)

/-- The rule of TSER (R136): the packed topology bits, and the side list reversed (R137). -/
def runTser (s : State) : Ran :=
  let s := setStage .tser s
  if noTree s then .raised .notReady 0 (dropTopo (dropAlpha s))
  else
    match treeOf s with
    | some t =>
      if serialFits t then
        .done (setAlpha (sideList t).reverse
          (setTopo (pack (emitTopology t)) (emitTopology t).length s))
      else .halted .notATree
    | none => .halted .notATree

/-- TSER (R136), completed as R222 says. -/
def execTser (s : State) : Host.Outcome State Fault Refusal := complete false (runTser s)

end Sys2Proof.Machine
end

