-- ==== Sys2Proof/Machine/Control.lean ====
section
/-! DEFINITION. Machine/Control.lean: the commands CLR, COMP and DECOMP (49_control.md). -/

namespace Sys2Proof.Machine

/-- The rule of CLR (R224): it never raises. -/
def runClr (s : State) : Ran := .done (clearAll s)

/-- CLR (R224), completed as R222 says. It is the return from a fault (60_exceptions.md R264). -/
def execClr (s : State) : Host.Outcome State Fault Refusal := complete true (runClr s)

/-- The first four stages of COMP: HIST, BUILD, GENC, TSER (R225). -/
def compFront (s : State) : Ran :=
  andThen (andThen (andThen (runHist s) runBuild) runGenc) runTser

/-- The rule of COMP (R225): the six stages in order; at the first raise also `OUT_LEN <- 0`. -/
def runComp (s : State) : Ran := dropOutOnRaise (andThen (andThen (compFront s) runEnc) runAsm)

/-- COMP (R225), completed as R222 says. -/
def execComp (s : State) : Host.Outcome State Fault Refusal := complete false (runComp s)

/-- The rule of DECOMP (R226): the three stages in order; at the first raise also `OUT_LEN <- 0`. -/
def runDecomp (s : State) : Ran := dropOutOnRaise (andThen (andThen (runParse s) runTdes) runDec)

/-- DECOMP (R226), completed as R222 says. -/
def execDecomp (s : State) : Host.Outcome State Fault Refusal := complete false (runDecomp s)

end Sys2Proof.Machine
end

