-- ==== Sys2Proof/Machine/Dispatch.lean ====
section
/-! DEFINITION. Machine/Dispatch.lean: one arm per command (49_control.md R222). -/

namespace Sys2Proof.Machine

def exec (i : Instr) (s : State) : Host.Outcome State Fault Refusal :=
  match i with
  | .clr => Sys2Proof.Machine.execClr s
  | .hist => Sys2Proof.Machine.execHist s
  | .build => Sys2Proof.Machine.execBuild s
  | .genc => Sys2Proof.Machine.execGenc s
  | .tser => Sys2Proof.Machine.execTser s
  | .enc => Sys2Proof.Machine.execEnc s
  | .asm => Sys2Proof.Machine.execAsm s
  | .parse => Sys2Proof.Machine.execParse s
  | .tdes => Sys2Proof.Machine.execTdes s
  | .dec => Sys2Proof.Machine.execDec s
  | .comp => Sys2Proof.Machine.execComp s
  | .decomp => Sys2Proof.Machine.execDecomp s

end Sys2Proof.Machine
end

