-- ==== Sys2Proof/Machine/Flags.lean ====
section
/-! DEFINITION. Machine/Flags.lean: the status flags and the `STATUS` word (10_state.md R24, R25). -/

namespace Sys2Proof.Machine

/-- `BUSY` (R21, R24). -/
def busyFlag (s : State) : Bool := s.fsm == .busy

/-- `ERR` (R21, R24). -/
def errFlag (s : State) : Bool := s.fsm == .faulted

/-- One flag as a bit. -/
def flagBit (b : Bool) : BitVec 1 := BitVec.ofBool b

/-- The `STATUS` word while the block is not busy (R24). -/
def statusWord (s : State) : Word :=
  (0 : BitVec 16) ++ s.stage ++ (0 : BitVec 5) ++ flagBit (errFlag s) ++ flagBit s.doneFlag
    ++ flagBit (busyFlag s)

/-- What a read of `STATUS` returns while the block is busy: bit 0 is 1, the other bits are those of a
free value (R24, 20_memory.md R73). -/
def busyStatusWord (unspec : Word) : Word := unspec ||| 1

end Sys2Proof.Machine
end

