-- ==== Sys2Proof/Machine/HostPort.lean ====
section
/-! DEFINITION. Machine/HostPort.lean: the host's transactions and the reset event (20_memory.md R60 to
R64, R73; 10_state.md R22 to R34; 30_encoding.md R87, R88; 49_control.md R221; 70_reset_and_hazards.md
R280). -/

namespace Sys2Proof.Machine

/-- The space of a host address (R61). -/
def spaceOf (a : Word) : Nat := (a.extractLsb' 28 4).toNat

/-- The offset of a host address in its space (R61). -/
def offsetOf (a : Word) : Nat := (a.extractLsb' 0 28).toNat

/-- What a host read finds at an address. -/
inductive HostItem where
  /-- A defined value. -/
  | value (v : Word)
  /-- An item outside its valid extent: any value (R64). -/
  | unspecified
  deriving DecidableEq, Repr

/-! ### Reads -/

/-- The register file as the host reads it (R22, R23, R33, R34). -/
def readRegister (s : State) (n : Nat) : Word :=
  match n with
  | 1 => statusWord s
  | 2 => s.errCode.setWidth 32
  | 3 => s.errInfo
  | 4 => s.inLen.setWidth 32
  | 5 => s.outLen.setWidth 32
  | 6 => s.alphaLen.setWidth 32
  | 7 => s.topoBits.setWidth 32
  | 8 => s.payBits
  | 9 => s.root.setWidth 32
  | 10 => s.nodeCnt.setWidth 32
  | 11 => s.nsym.setWidth 32
  | 12 => BitVec.ofNat 32 Config.bufCap
  | 13 => Config.idWord
  | _ => 0

/-- A byte memory of `size` bytes of which the first `extent` are valid (R62, R64). -/
def readByteItem (m : Memory) (size extent offset : Nat) : HostItem :=
  if size ≤ offset then .value 0
  else if offset < extent then .value ((memRead m offset).setWidth 32)
  else .unspecified

/-- The `kind` bit (10_state.md R40). -/
def kindBit : NodeKind → BitVec 1
  | .leaf => 1
  | .internal => 0

/-- The link word of a node (R87). -/
def linkWord (n : Node) : Word := kindBit n.kind ++ (0 : BitVec 5) ++ n.left ++ n.right ++ n.tsym

/-- The `NODE` space (R87): offset `2i` the weight, `2i+1` the link word. -/
def readNodeItem (s : State) (offset : Nat) : HostItem :=
  if 2 * Config.nodeCap ≤ offset then .value 0
  else if offset / 2 < s.nodeCnt.toNat then
    let n := nodeAt s.nodes (BitVec.ofNat 9 (offset / 2))
    .value (if offset % 2 = 0 then n.weight else linkWord n)
  else .unspecified

/-- A word of 32 code bits, MSB first: bit `31-m` is `code[from+m]`, 0 beyond the code (R88). -/
def codeBitsWord (c : BitSeq) (start : Nat) : Word :=
  BitVec.ofNat 32
    ((List.range 32).foldl (fun acc m => 2 * acc + (c.getD (start + m) false).toNat) 0)

/-- The `CODE` space (R88), sixteen words per symbol. -/
def readCodeItem (s : State) (offset : Nat) : HostItem :=
  if 4096 ≤ offset then .value 0
  else
    match codeAt s (BitVec.ofNat 8 (offset / 16)) with
    | none => .value 0
    | some c =>
      let j := offset % 16
      if j = 0 then .value ((1 : BitVec 1) ++ (0 : BitVec 23) ++ BitVec.ofNat 8 c.length)
      else if j ≤ 8 then .value (codeBitsWord c (32 * (j - 1)))
      else .value 0

/-- The `FREQ` space (R61, R62). -/
def readFreqItem (s : State) (offset : Nat) : HostItem :=
  if 256 ≤ offset then .value 0 else .value (freqAt s (BitVec.ofNat 8 offset))

/-- What a host read finds while the block is not busy (R61, R62, R64). -/
def hostItem (s : State) (a : Word) : HostItem :=
  let o := offsetOf a
  match spaceOf a with
  | 0 => .value (readRegister s o)
  | 1 => readByteItem s.inMem Config.bufCap s.inLen.toNat o
  | 2 => readByteItem s.outMem Config.bufCap s.outLen.toNat o
  | 3 => readFreqItem s o
  | 4 => readNodeItem s o
  | 5 => readCodeItem s o
  | 6 => readByteItem s.alphaMem Config.nsymMax s.alphaLen.toNat o
  | 7 => readByteItem s.topoMem Config.topoBytes (ceil8 s.topoBits.toNat) o
  | 8 => readByteItem s.payMem Config.bufCap (ceil8 s.payBits.toNat) o
  | _ => .value 0

/-- A free value handed to the host (log entry 4). -/
def giveUnspecified (f : Word → Word) (s : State) : State :=
  { s with hostData := f (Config.unspecRead s.free), free := s.free + 1 }

/-- `HostRead(a)` (R60, R62, R64, R73). The value goes to `hostData` (log entry 3). -/
def hostRead (a : Word) (s : State) : State :=
  if busyFlag s then
    if a = 1 then giveUnspecified busyStatusWord s else giveUnspecified id s
  else
    match hostItem s a with
    | .value v => { s with hostData := v }
    | .unspecified => giveUnspecified id s

/-! ### Writes -/

/-- Acceptance of a command word (49_control.md R221): in `IDLE` every word, in `FAULTED` the word of CLR
only, in `BUSY` none. -/
def acceptCommand (w : Word) (s : State) : State :=
  match s.fsm with
  | .idle => { s with pending := w, fsm := .busy, fromFaulted := false, doneFlag := false }
  | .faulted =>
    if w = encode .clr then
      { s with pending := w, fsm := .busy, fromFaulted := true, doneFlag := false }
    else s
  | .busy => s

/-- A host write to a register (R22, R29, R34). -/
def writeRegister (n : Nat) (v : Word) (s : State) : State :=
  match n with
  | 0 => acceptCommand v s
  | 4 => if v.toNat ≤ Config.bufCap then { s with inLen := v.setWidth 29 } else s
  | _ => s

/-- A host write to `IN_MEM` (R44, R62). -/
def writeInMem (offset : Nat) (v : Word) (s : State) : State :=
  if offset < Config.bufCap then { s with inMem := memWrite s.inMem offset (v.setWidth 8) } else s

/-- A host write to `FREQ` (R42, R62). -/
def writeFreq (offset : Nat) (v : Word) (s : State) : State :=
  if h : offset < 256 then { s with freq := s.freq.set offset v h } else s

/-- `HostWrite(a, v)` (R60 to R62, R73): dropped while the block is busy, and ignored where the item is
read-only or absent. -/
def hostWrite (a v : Word) (s : State) : State :=
  if busyFlag s then s
  else
    match spaceOf a with
    | 0 => writeRegister (offsetOf a) v s
    | 1 => writeInMem (offsetOf a) v s
    | 3 => writeFreq (offsetOf a) v s
    | _ => s

/-! ### Reset -/

/-- The reset event (70_reset_and_hazards.md R280): everything the block holds as after reset. The
memories whose content reset leaves unspecified get fresh epochs, and the host's side of the port stays
(log entries 2, 3, 8). -/
def resetEvent (s : State) : State :=
  { State.reset with
    inMem := Memory.unknown s.free
    outMem := Memory.unknown (s.free + 1)
    payMem := Memory.unknown (s.free + 2)
    alphaMem := Memory.unknown (s.free + 3)
    topoMem := Memory.unknown (s.free + 4)
    nodes := Arena.unknown (s.free + 5)
    agenda := s.agenda
    hostData := s.hostData
    free := s.free + 6 }

end Sys2Proof.Machine
end

