-- ==== Sys2Proof/Machine/Agents.lean ====
section
/-! DEFINITION. Machine/Agents.lean: whose turn it is, and what that agent does in it (00_scope.md R15,
49_control.md R222). -/

namespace Sys2Proof.Machine

/-- The completion step for the word in `PENDING` (49_control.md R222). -/
def completePending (s : State) : Host.Outcome State Fault Refusal :=
  match decode s.pending with
  | .ok i => exec i s
  | .error _ => .next (badCommand s)

/-- The block's turn: completion, enabled exactly when `FSM == BUSY`; otherwise the block waits
(49_control.md R222, 10_state.md R50). -/
def blockTurn (s : State) : Host.Outcome State Fault Refusal :=
  match s.fsm with
  | .busy => completePending s
  | .idle => .next s
  | .faulted => .next s

/-- One turn of the agenda. -/
def takeTurn (t : Turn) (s : State) : Host.Outcome State Fault Refusal :=
  match t with
  | .write a v => .next (hostWrite a v s)
  | .read a => .next (hostRead a s)
  | .block => blockTurn s
  | .reset => .next (resetEvent s)

/-- One step: the agenda's next turn, and the block's turn once the agenda is used up (log entry 2). -/
def advance (s : State) : Host.Outcome State Fault Refusal :=
  match s.agenda with
  | [] => blockTurn s
  | t :: rest => takeTurn t { s with agenda := rest }

/-- The block busy with the given word, and its completion the next turn (log entry 12). -/
def placeCommand (w : Word) (s : State) : State :=
  { s with
    pending := w
    fsm := .busy
    fromFaulted := errFlag s
    doneFlag := false
    agenda := .block :: s.agenda }

end Sys2Proof.Machine
end

