-- ==== Sys2Proof/Machine/Step.lean ====
section
/-! DEFINITION. Machine/Step.lean: the step, and how a command is put where the step takes its next one. -/

namespace Sys2Proof.Machine

/-- One step of the machine: the next turn of the host, of the block or of reset. -/
def step (s : State) : Host.Outcome State Fault Refusal := advance s

/-- `s` with the given command accepted, so that the next step completes it. -/
def State.withFetchWord (s : State) (nbits w : Nat) : State :=
  placeCommand (BitVec.ofNat 32 (w % 2 ^ nbits)) s

end Sys2Proof.Machine
end

