-- ==== Sys2Proof/Safety.lean ====
section
/-! DEFINITION. Safety.lean: what counts as a safe state and a safe outcome, in the terms the statements
use. -/

namespace Sys2Proof.Safety

open Sys2Proof.Machine

/-! ### Outcomes -/

/-- The command `i` has completed without error (49_control.md R222): `FSM` idle, no fault record, `DONE`
unless it was CLR, and `STAGE` as given. -/
def Completed (isClr : Bool) (stage : Byte) (t : State) : Prop :=
  t.fsm = .idle ∧ t.doneFlag = !isClr ∧ t.errCode = 0 ∧ t.errInfo = 0 ∧ t.stage = stage

/-- A fault has been taken (60_exceptions.md R260): `FSM` faulted, `DONE` 0, the record of the kind and of
the information word, and the stage that raised. -/
def FaultTaken (k : ErrKind) (info : Word) (stage : Byte) (t : State) : Prop :=
  t.fsm = .faulted ∧ t.doneFlag = false ∧ t.errCode = errCodeOf k ∧ t.errInfo = info ∧ t.stage = stage

/-! ### Frames: what is the same in two states -/

/-- `IN_MEM` and `IN_LEN`. -/
def SameInput (s t : State) : Prop := t.inLen = s.inLen ∧ ∀ a, memRead t.inMem a = memRead s.inMem a

/-- `OUT_MEM` and `OUT_LEN`. -/
def SameOutput (s t : State) : Prop :=
  t.outLen = s.outLen ∧ ∀ a, memRead t.outMem a = memRead s.outMem a

/-- `ALPHA_MEM` and `ALPHA_LEN`. -/
def SameAlphabet (s t : State) : Prop :=
  t.alphaLen = s.alphaLen ∧ ∀ a, memRead t.alphaMem a = memRead s.alphaMem a

/-- `TOPO_MEM` and `TOPO_BITS`. -/
def SameTopology (s t : State) : Prop :=
  t.topoBits = s.topoBits ∧ ∀ a, memRead t.topoMem a = memRead s.topoMem a

/-- `PAY_MEM` and `PAY_BITS`. -/
def SamePayload (s t : State) : Prop :=
  t.payBits = s.payBits ∧ ∀ a, memRead t.payMem a = memRead s.payMem a

/-- `NODE`, `ROOT`, `NODE_CNT` and `NSYM`. -/
def SameTree (s t : State) : Prop :=
  t.root = s.root ∧ t.nodeCnt = s.nodeCnt ∧ t.nsym = s.nsym ∧ ∀ i, nodeAt t.nodes i = nodeAt s.nodes i

/-- The CodeTable. -/
def SameCode (s t : State) : Prop := ∀ sym, codeAt t sym = codeAt s sym

/-- `FREQ`. -/
def SameFreq (s t : State) : Prop := ∀ sym, freqAt t sym = freqAt s sym

/-- What no command touches: `PENDING` and the host's side of the port. -/
def SamePort (s t : State) : Prop :=
  t.pending = s.pending ∧ t.agenda = s.agenda ∧ t.hostData = s.hostData

/-! ### Trees (10_state.md R41) -/

/-- The number of nodes. -/
def treeSize : Tree → Nat
  | .absent => 0
  | .leaf _ => 1
  | .internal l r => treeSize l + treeSize r + 1

/-- The number of Leaves. -/
def treeLeaves : Tree → Nat
  | .absent => 0
  | .leaf _ => 1
  | .internal l r => treeLeaves l + treeLeaves r

/-- Every Internal node has two children. -/
def fullTree : Tree → Bool
  | .absent => false
  | .leaf _ => true
  | .internal l r => fullTree l && fullTree r

/-- The synthetic wrapper over one Leaf (41_tree_builder.md R115). -/
def wrapperTree : Tree → Bool
  | .internal (.leaf _) .absent => true
  | _ => false

/-- R41 (a) and (b): full, or the wrapper. -/
def properTree (t : Tree) : Bool := fullTree t || wrapperTree t

/-- The Leaf with this symbol stands at the end of this path from the root: 0 left, 1 right
(42_code_table.md R125). -/
def leafAt : Tree → BitSeq → Byte → Prop
  | .leaf sym, [], x => sym = x
  | .internal l _, false :: p, x => leafAt l p x
  | .internal _ r, true :: p, x => leafAt r p x
  | _, _, _ => False

/-- An Internal node stands at the end of this path from the root. -/
def internalAt : Tree → BitSeq → Prop
  | .internal _ _, [] => True
  | .internal l _, false :: p => internalAt l p
  | .internal _ r, true :: p => internalAt r p
  | _, _ => False

/-- The path leads to an absent child (47_decoder.md R187 case 2). -/
def absentAt : Tree → BitSeq → Prop
  | .absent, [] => True
  | .internal l _, false :: p => absentAt l p
  | .internal _ r, true :: p => absentAt r p
  | _, _ => False

/-- Of two paths from the root the first ends further left in the tree: where they part it goes left
(42_code_table.md R125, R128). -/
def leftOf : BitSeq → BitSeq → Prop
  | false :: _, true :: _ => True
  | false :: p, false :: q => leftOf p q
  | true :: p, true :: q => leftOf p q
  | _, _ => False

/-- `key(x) < key(y)` for the key `(weight, tsym)`, as 41_tree_builder.md R111 writes it. -/
def LesserKey (x y : Node) : Prop :=
  x.weight.toNat < y.weight.toNat ∨
  (x.weight.toNat = y.weight.toNat ∧ x.tsym.toNat < y.tsym.toNat)

/-- Node `j` was there when node `k` was made, and was then a child of no node: it was a member of the
queue (41_tree_builder.md R112, R114). -/
def UnmergedBelow (t : Arena) (k j : NodeIdx) : Prop :=
  j.toNat < k.toNat ∧
  ∀ m : NodeIdx, m.toNat < k.toNat → (nodeAt t m).left ≠ j ∧ (nodeAt t m).right ≠ j

/-- The indices of the nodes at and below a node, each path counted, walked at most `fuel` levels deep. -/
def indicesBelow (t : Arena) : Nat → NodeIdx → List Nat
  | 0, _ => []
  | fuel + 1, i =>
    if i = Config.nil then []
    else
      match (nodeAt t i).kind with
      | .leaf => [i.toNat]
      | .internal =>
        i.toNat :: (indicesBelow t fuel (nodeAt t i).left ++ indicesBelow t fuel (nodeAt t i).right)

/-! ### Invariants -/

/-- A code of R250 that the block writes: 2 to 9 (R252). -/
def faultCode (c : BitVec 4) : Prop := 2 ≤ c.toNat ∧ c.toNat ≤ 9

/-- The control registers fit the control state (10_state.md R21, R25, R26, R28). -/
def ControlOk (s : State) : Prop :=
  (s.fsm = .idle → s.errCode = 0 ∧ s.errInfo = 0) ∧
  (s.fsm = .faulted → faultCode s.errCode ∧ s.doneFlag = false) ∧
  (s.fsm = .busy → s.doneFlag = false) ∧
  (s.fsm = .busy → s.fromFaulted = false → s.errCode = 0 ∧ s.errInfo = 0) ∧
  (s.fsm = .busy → s.fromFaulted = true → faultCode s.errCode ∧ s.pending = encode .clr)

/-- The data registers hold legal values (10_state.md R29 to R32). -/
def RegistersOk (s : State) : Prop :=
  s.inLen.toNat ≤ Config.bufCap ∧ s.outLen.toNat ≤ Config.bufCap ∧
  s.alphaLen.toNat ≤ Config.nsymMax ∧ s.topoBits.toNat ≤ Config.nodeCap ∧
  s.payBits.toNat ≤ 8 * Config.bufCap ∧
  s.nodeCnt.toNat ≤ Config.nodeCap ∧ s.nsym.toNat ≤ Config.nsymMax

/-- The memories keep their canonical form and hold no byte beyond their end (10_state.md R44 to R47). -/
def MemoriesOk (s : State) : Prop :=
  (s.inMem.wf ∧ s.inMem.below Config.bufCap) ∧
  (s.outMem.wf ∧ s.outMem.below Config.bufCap) ∧
  (s.payMem.wf ∧ s.payMem.below Config.bufCap) ∧
  (s.alphaMem.wf ∧ s.alphaMem.below Config.nsymMax) ∧
  (s.topoMem.wf ∧ s.topoMem.below Config.topoBytes)

/-- The two BitBuffers obey their invariant: the padding bits of the last byte are 0 (10_state.md R47,
45_bit_packer_unpacker.md R160). -/
def BuffersOk (s : State) : Prop :=
  (∀ k, s.topoBits.toNat ≤ k → k < 8 * ceil8 s.topoBits.toNat → getBit s.topoMem k = false) ∧
  (∀ k, s.payBits.toNat ≤ k → k < 8 * ceil8 s.payBits.toNat → getBit s.payMem k = false)

/-- A code has at most 255 bits (42_code_table.md R129, 10_state.md R43). -/
def CodesOk (s : State) : Prop := ∀ sym c, codeAt s sym = some c → c.length ≤ 255

/-- `ROOT`, `NODE_CNT` and `NSYM` fit the tree, and the tree has the shape R41 (a) and (b) allow
(10_state.md R32, R41). -/
def TreeOk (s : State) : Prop :=
  (s.root = Config.nil → s.nodeCnt = 0 ∧ s.nsym = 0) ∧
  (s.root ≠ Config.nil →
    ∃ t, treeOf s = some t ∧ properTree t = true ∧ treeSize t = s.nodeCnt.toNat ∧
      treeLeaves t = s.nsym.toNat ∧ treeSize t ≤ Config.nodeCap ∧ treeLeaves t ≤ Config.nsymMax)

/-- R41 (c) and (d): the nodes reached from `ROOT` are the indices below `NODE_CNT`, each by one path. -/
def IndicesOk (s : State) : Prop :=
  s.root ≠ Config.nil → (indicesBelow s.nodes 256 s.root).Perm (List.range s.nodeCnt.toNat)

/-- A safe step: the machine goes on. -/
def GoesOn (s : State) : Prop := ∃ t, step s = .next t

/-- The values 10_state.md R50 gives the registers and tables after reset, and which CLR gives them too
(49_control.md R224). -/
def ResetValues (s : State) : Prop :=
  s.fsm = .idle ∧ statusWord s = 0 ∧ s.errCode = 0 ∧ s.errInfo = 0 ∧
  s.inLen = 0 ∧ s.outLen = 0 ∧ s.alphaLen = 0 ∧ s.topoBits = 0 ∧ s.payBits = 0 ∧
  s.root = 0x1FF ∧ s.nodeCnt = 0 ∧ s.nsym = 0 ∧
  readRegister s 12 = BitVec.ofNat 32 Config.bufCap ∧ readRegister s 13 = 0x48554601 ∧
  (∀ sym, freqAt s sym = 0) ∧ (∀ sym, codeValid s sym = false)

/-! ### Sums over the symbols and the input -/

/-- The sum of all counters `FREQ[s]`, exact. -/
def freqTotal (s : State) : Nat := (allSymbols.map (fun sym => (freqAt s sym).toNat)).sum

/-- The symbols with a nonzero counter, ascending. -/
def countedSymbols (s : State) : List Byte := allSymbols.filter (fun sym => freqAt s sym != 0)

/-- The sum of the code lengths of the given symbols (46_encoder.md R180). -/
def codeTotal (s : State) (bs : List Byte) : Nat := (bs.map (codeLen s)).sum

/-- The sum of `2^(-len)` over the symbols that have a code (42_code_table.md R130). -/
def kraftSum (s : State) : ℚ :=
  (allSymbols.map (fun sym => if codeValid s sym then (1 / 2 : ℚ) ^ codeLen s sym else 0)).sum

/-- The state in which the host has loaded the given bytes into `IN_MEM` from offset 0 on and set
`IN_LEN` to their number (30_encoding.md R86 `LDIN`). -/
def Loaded (bs : List Byte) (s : State) : Prop :=
  s.inLen.toNat = bs.length ∧ inBytes s = bs

end Sys2Proof.Safety
end

