-- ==== Sys2Proof/Certificates/Slice0/Obligations.lean ====
section
/-! DEFINITION. Certificates/Slice0/Obligations.lean: the statements for the provers. Each docstring names
the rule of spec/ it formalises; OBLIGATIONS.json lists them. -/

open Sys2Proof Sys2Proof.Machine Sys2Proof.Safety

/-! ### Reset, encoding, control -/

/-- R50, R280: the values of registers and tables after reset, and after the reset event from every state,
BUSY included, whose pending command does not complete. Memories R50 leaves unspecified are not
mentioned; the agenda stays (log entry 2). -/
def Obligations.ResetValuesFromEveryState : Prop :=
  ResetValues State.reset ∧
  ∀ (s : State) (rest : List Turn), ∃ t, step { s with agenda := .reset :: rest } = .next t ∧
    ResetValues t ∧ t.agenda = rest

/-- R81: each of the twelve words decodes to its command. -/
def Obligations.OpcodeMapDecodes : Prop :=
  decode 0x00000001 = .ok .clr ∧ decode 0x00000010 = .ok .hist ∧ decode 0x00000011 = .ok .build ∧
  decode 0x00000012 = .ok .genc ∧ decode 0x00000013 = .ok .tser ∧ decode 0x00000014 = .ok .enc ∧
  decode 0x00000015 = .ok .asm ∧ decode 0x00000020 = .ok .parse ∧ decode 0x00000021 = .ok .tdes ∧
  decode 0x00000022 = .ok .dec ∧ decode 0x00000030 = .ok .comp ∧ decode 0x00000031 = .ok .decomp

/-- R80, R81, R83: a word decodes to a command exactly when it is that command's word, so decoding and
encoding are inverse in both directions; a word is a command exactly when its reserved field is 0 and its
opcode is one of the twelve. -/
def Obligations.DecodeEncodeInverse : Prop :=
  (∀ (w : Word) (i : Instr), decode w = .ok i ↔ w = encode i) ∧
  (∀ w : Word, (∃ i, decode w = .ok i) ↔
    w.extractLsb' 8 24 = 0 ∧ w.extractLsb' 0 8 ∈ definedOpcodes)

/-- R60, R222: when the word in `PENDING` decodes to a command, the block's turn is that command on the
state: the agenda's turn is taken off first, and the block's turn comes when the agenda is used up (log
entry 2). A host transaction takes effect at its turn; a block that is not busy waits. -/
def Obligations.StepRunsDecodedCommand : Prop :=
  (∀ (s : State) (i : Instr), s.fsm = .busy → decode s.pending = .ok i →
    (s.agenda = [] → step s = exec i s) ∧
    (∀ rest, s.agenda = .block :: rest → step s = exec i { s with agenda := rest })) ∧
  (∀ (s : State) (rest : List Turn),
    (∀ a v, s.agenda = .write a v :: rest → step s = .next (hostWrite a v { s with agenda := rest })) ∧
    (∀ a, s.agenda = .read a :: rest → step s = .next (hostRead a { s with agenda := rest })) ∧
    (s.fsm ≠ .busy → s.agenda = .block :: rest → step s = .next { s with agenda := rest }) ∧
    (s.fsm ≠ .busy → s.agenda = [] → step s = .next s))

/-- R83, R259: a word that is no command completes, at the block's turn, with `BadCommand(word)` and `STAGE`
0x00, and changes no other state. The block's turn is the agenda's or, the agenda used up, every one (log
entry 2); the note of R21 is put to false (log entry 9). -/
def Obligations.IllegalWordFaults : Prop :=
  ∀ s : State, s.fsm = .busy → (∀ i, decode s.pending ≠ .ok i) →
    (s.agenda = [] → step s = .next { s with
      fsm := .faulted, fromFaulted := false, doneFlag := false, stage := 0, errCode := 9,
      errInfo := s.pending }) ∧
    (∀ rest, s.agenda = .block :: rest → step s = .next { s with
      agenda := rest, fsm := .faulted, fromFaulted := false, doneFlag := false, stage := 0, errCode := 9,
      errInfo := s.pending })

/-- R221: acceptance, in each control state, by the host's write to host address 0. -/
def Obligations.AcceptanceByControlState : Prop :=
  ∀ (s : State) (w : Word),
    (s.fsm = .idle → hostWrite 0x00000000 w s =
      { s with pending := w, fsm := .busy, fromFaulted := false, doneFlag := false }) ∧
    (s.fsm = .faulted → w = 0x00000001 → hostWrite 0x00000000 w s =
      { s with pending := w, fsm := .busy, fromFaulted := true, doneFlag := false }) ∧
    (s.fsm = .faulted → w ≠ 0x00000001 → hostWrite 0x00000000 w s = s) ∧
    (s.fsm = .busy → hostWrite 0x00000000 w s = s)

/-- R264, R221: a fault is left by an accepted CLR or by reset and by nothing else. -/
def Obligations.FaultLeftByClrOrReset : Prop :=
  ∀ s t : State, s.fsm = .faulted → step s = .next t →
    (t.fsm = .faulted ∧ t.errCode = s.errCode ∧ t.errInfo = s.errInfo ∧ t.stage = s.stage) ∨
    (∃ a rest, s.agenda = .write a 0x00000001 :: rest ∧ t.fsm = .busy ∧ t.pending = 0x00000001) ∨
    (∃ rest, s.agenda = .reset :: rest)

/-! ### The host port -/

/-- R62, R73: no host read, busy or not, has a side effect on the block. While BUSY a host write to any
address is dropped and a read of `STATUS` has bit 0 = 1. -/
def Obligations.HostReadsHarmlessAndBusyShutsOut : Prop :=
  (∀ (a : Word) (s : State), ∃ v n, hostRead a s = { s with hostData := v, free := n }) ∧
  (∀ s : State, s.fsm = .busy → (∀ a v, hostWrite a v s = s) ∧
    (hostRead 0x00000001 s).hostData.getLsbD 0 = true)

/-- R22, R24, R33, R34: what a host read of each register returns while the block is not busy, `STATUS` field
by field, reserved numbers included. -/
def Obligations.RegisterFileReads : Prop :=
  ∀ s : State, s.fsm ≠ .busy →
    let status := (hostRead 0x00000001 s).hostData
    (hostRead 0x00000000 s).hostData = 0 ∧
    (status.getLsbD 0 = false ∧ status.getLsbD 1 = s.doneFlag ∧
      status.getLsbD 2 = (s.fsm == .faulted) ∧ status.extractLsb' 3 5 = 0 ∧
      status.extractLsb' 8 8 = s.stage ∧ status.extractLsb' 16 16 = 0) ∧
    (hostRead 0x00000002 s).hostData = s.errCode.setWidth 32 ∧
    (hostRead 0x00000003 s).hostData = s.errInfo ∧
    (hostRead 0x00000004 s).hostData = s.inLen.setWidth 32 ∧
    (hostRead 0x00000005 s).hostData = s.outLen.setWidth 32 ∧
    (hostRead 0x00000006 s).hostData = s.alphaLen.setWidth 32 ∧
    (hostRead 0x00000007 s).hostData = s.topoBits.setWidth 32 ∧
    (hostRead 0x00000008 s).hostData = s.payBits ∧
    (hostRead 0x00000009 s).hostData = s.root.setWidth 32 ∧
    (hostRead 0x0000000A s).hostData = s.nodeCnt.setWidth 32 ∧
    (hostRead 0x0000000B s).hostData = s.nsym.setWidth 32 ∧
    (hostRead 0x0000000C s).hostData.toNat = Config.bufCap ∧
    (hostRead 0x0000000D s).hostData = 0x48554601 ∧
    (∀ a : Word, 14 ≤ a.toNat → a.toNat < 2 ^ 28 → (hostRead a s).hostData = 0)

/-- R29: a host write of `IN_LEN` within `BUF_CAP` sets that register to the value and changes nothing else,
any other is ignored; of the commands only CLR writes the register, to 0. That the write takes effect in
`FAULTED` as in `IDLE` is the model's inference (log entry 11). -/
def Obligations.InLenWrittenByHostAndClr : Prop :=
  (∀ (s : State) (v : Word), s.fsm ≠ .busy →
    (v.toNat ≤ Config.bufCap → hostWrite 0x00000004 v s = { s with inLen := v.setWidth 29 } ∧
      (hostWrite 0x00000004 v s).inLen.toNat = v.toNat) ∧
    (Config.bufCap < v.toNat → hostWrite 0x00000004 v s = s)) ∧
  (∀ (i : Instr) (s t : State), exec i s = .next t → t.inLen = if i = .clr then 0 else s.inLen)

/-- R34, R42, R44, R62: a host write to an offset of `IN_MEM` stores the low byte there, one to `FREQ` sets
that counter; every other byte or counter and everything else stays. A write to a read-only register, a
reserved register number, a read-only or unmapped space, or beyond the range of a writable one changes
nothing. (`CMD` and `IN_LEN`: AcceptanceByControlState, InLenWrittenByHostAndClr.) That the writes take
effect in `FAULTED` as in `IDLE` is the model's inference (log entry 11). -/
def Obligations.HostWritesOneItem : Prop :=
  ∀ (s : State) (a v : Word), s.fsm ≠ .busy →
    (spaceOf a = 1 → offsetOf a < Config.bufCap → ∃ m, hostWrite a v s = { s with inMem := m } ∧
      ∀ b, memRead m b = if b = offsetOf a then v.extractLsb' 0 8 else memRead s.inMem b) ∧
    (spaceOf a = 3 → offsetOf a < 256 → ∃ f, hostWrite a v s = { s with freq := f } ∧
      ∀ sym : Byte, freqAt { s with freq := f } sym =
        if sym.toNat = offsetOf a then v else freqAt s sym) ∧
    (spaceOf a = 0 → offsetOf a ≠ 0 → offsetOf a ≠ 4 → hostWrite a v s = s) ∧
    (spaceOf a = 1 → Config.bufCap ≤ offsetOf a → hostWrite a v s = s) ∧
    (spaceOf a = 3 → 256 ≤ offsetOf a → hostWrite a v s = s) ∧
    (spaceOf a ≠ 0 → spaceOf a ≠ 1 → spaceOf a ≠ 3 → hostWrite a v s = s)

/-- R61, R62, R64: a read of a byte item inside its valid extent returns the byte, zero-extended; one of a
`FREQ` item the 32-bit counter; a read beyond the range of its space, in each of the eight spaces, and a read
of an unmapped space return 0. -/
def Obligations.HostWindowsRead : Prop :=
  ∀ (s : State) (a : Word), s.fsm ≠ .busy →
    (spaceOf a = 1 → offsetOf a < Config.bufCap → offsetOf a < s.inLen.toNat →
      (hostRead a s).hostData = (memRead s.inMem (offsetOf a)).setWidth 32) ∧
    (spaceOf a = 2 → offsetOf a < Config.bufCap → offsetOf a < s.outLen.toNat →
      (hostRead a s).hostData = (memRead s.outMem (offsetOf a)).setWidth 32) ∧
    (spaceOf a = 6 → offsetOf a < 256 → offsetOf a < s.alphaLen.toNat →
      (hostRead a s).hostData = (memRead s.alphaMem (offsetOf a)).setWidth 32) ∧
    (spaceOf a = 7 → offsetOf a < 64 → offsetOf a < ceil8 s.topoBits.toNat →
      (hostRead a s).hostData = (memRead s.topoMem (offsetOf a)).setWidth 32) ∧
    (spaceOf a = 8 → offsetOf a < Config.bufCap → offsetOf a < ceil8 s.payBits.toNat →
      (hostRead a s).hostData = (memRead s.payMem (offsetOf a)).setWidth 32) ∧
    (spaceOf a = 3 → ∀ sym : Byte, sym.toNat = offsetOf a → (hostRead a s).hostData = freqAt s sym) ∧
    (spaceOf a = 1 ∨ spaceOf a = 2 ∨ spaceOf a = 8 → Config.bufCap ≤ offsetOf a →
      (hostRead a s).hostData = 0) ∧
    (spaceOf a = 3 ∨ spaceOf a = 6 → 256 ≤ offsetOf a → (hostRead a s).hostData = 0) ∧
    (spaceOf a = 7 → 64 ≤ offsetOf a → (hostRead a s).hostData = 0) ∧
    (spaceOf a = 4 → 1022 ≤ offsetOf a → (hostRead a s).hostData = 0) ∧
    (spaceOf a = 5 → 4096 ≤ offsetOf a → (hostRead a s).hostData = 0) ∧
    (9 ≤ spaceOf a → (hostRead a s).hostData = 0)

/-- R87: the two words of a valid node, field by field. -/
def Obligations.NodeWindowWords : Prop :=
  ∀ (s : State) (i : NodeIdx), s.fsm ≠ .busy → i ≠ Config.nil → i.toNat < s.nodeCnt.toNat →
    let n := nodeAt s.nodes i
    let w := (hostRead (BitVec.ofNat 32 (0x40000000 + 2 * i.toNat + 1)) s).hostData
    (hostRead (BitVec.ofNat 32 (0x40000000 + 2 * i.toNat)) s).hostData = n.weight ∧
    w.getLsbD 31 = (n.kind == .leaf) ∧ w.extractLsb' 26 5 = 0 ∧ w.extractLsb' 17 9 = n.left ∧
    w.extractLsb' 8 9 = n.right ∧ w.extractLsb' 0 8 = n.tsym

/-- R88: the sixteen words of a symbol: valid bit and length in word 0, the code bits MSB first in words 1
to 8 with 0 beyond the code, 0 in the others, and all 0 for a symbol without entry. -/
def Obligations.CodeWindowWords : Prop :=
  ∀ (s : State) (sym : Byte) (j : Nat), s.fsm ≠ .busy → CodesOk s → j < 16 →
    let w := (hostRead (BitVec.ofNat 32 (0x50000000 + 16 * sym.toNat + j)) s).hostData
    (j = 0 → w.getLsbD 31 = codeValid s sym ∧ w.extractLsb' 8 23 = 0 ∧
      (w.extractLsb' 0 8).toNat = codeLen s sym) ∧
    (1 ≤ j → j ≤ 8 → ∀ m, m < 32 →
      w.getLsbD (31 - m) = ((codeAt s sym).getD []).getD (32 * (j - 1) + m) false) ∧
    (9 ≤ j → w = 0)

/-! ### What each command touches, and what a fault invalidates -/

/-- R63: the memories, tables and registers each command leaves as they were, whether it completes or
faults. `PENDING`, the agenda and the host's data are no command's. -/
def Obligations.CommandFrames : Prop :=
  ∀ s t : State,
    (∀ i, exec i s = .next t → SamePort s t ∧ ∀ a, memRead t.inMem a = memRead s.inMem a) ∧
    (exec .hist s = .next t → SameInput s t ∧ SameOutput s t ∧ SameAlphabet s t ∧ SameTopology s t ∧
      SamePayload s t ∧ SameTree s t ∧ SameCode s t) ∧
    (exec .build s = .next t → SameInput s t ∧ SameOutput s t ∧ SameAlphabet s t ∧ SameTopology s t ∧
      SamePayload s t ∧ SameCode s t ∧ SameFreq s t) ∧
    (exec .genc s = .next t → SameInput s t ∧ SameOutput s t ∧ SameAlphabet s t ∧ SameTopology s t ∧
      SamePayload s t ∧ SameTree s t ∧ SameFreq s t) ∧
    (exec .tser s = .next t → SameInput s t ∧ SameOutput s t ∧ SamePayload s t ∧ SameTree s t ∧
      SameCode s t ∧ SameFreq s t) ∧
    (exec .enc s = .next t → SameInput s t ∧ SameOutput s t ∧ SameAlphabet s t ∧ SameTopology s t ∧
      SameTree s t ∧ SameCode s t ∧ SameFreq s t) ∧
    (exec .asm s = .next t → SameInput s t ∧ SameAlphabet s t ∧ SameTopology s t ∧ SamePayload s t ∧
      SameTree s t ∧ SameCode s t ∧ SameFreq s t) ∧
    (exec .parse s = .next t → SameInput s t ∧ SameOutput s t ∧ SameTree s t ∧ SameCode s t ∧
      SameFreq s t) ∧
    (exec .tdes s = .next t → SameInput s t ∧ SameOutput s t ∧ SameAlphabet s t ∧ SameTopology s t ∧
      SamePayload s t ∧ SameCode s t ∧ SameFreq s t) ∧
    (exec .dec s = .next t → SameInput s t ∧ SameAlphabet s t ∧ SameTopology s t ∧ SamePayload s t ∧
      SameTree s t ∧ SameCode s t ∧ SameFreq s t) ∧
    (exec .comp s = .next t → SameInput s t) ∧
    (exec .decomp s = .next t → SameInput s t ∧ SameCode s t ∧ SameFreq s t)

/-- R261: what each command that faults leaves invalid; for COMP and DECOMP what the stage that faulted does,
told by `STAGE`, and `OUT_LEN` 0. (Inside COMP only HIST, ENC and ASM can fault: CompFaults. An illegal word
invalidates nothing: IllegalWordFaults.) -/
def Obligations.FaultInvalidates : Prop :=
  ∀ s t : State, t.fsm = .faulted →
    (exec .hist s = .next t → ∀ sym, freqAt t sym = 0) ∧
    (exec .build s = .next t → t.root = Config.nil ∧ t.nodeCnt = 0 ∧ t.nsym = 0) ∧
    (exec .tdes s = .next t → t.root = Config.nil ∧ t.nodeCnt = 0 ∧ t.nsym = 0) ∧
    (exec .genc s = .next t → ∀ sym, codeValid t sym = false) ∧
    (exec .tser s = .next t → t.alphaLen = 0 ∧ t.topoBits = 0) ∧
    (exec .enc s = .next t → t.payBits = 0) ∧
    (exec .asm s = .next t → t.outLen = 0) ∧
    (exec .dec s = .next t → t.outLen = 0) ∧
    (exec .parse s = .next t → t.alphaLen = 0 ∧ t.topoBits = 0 ∧ t.payBits = 0) ∧
    (exec .comp s = .next t → t.outLen = 0 ∧
      (t.stage = 0x10 → ∀ sym, freqAt t sym = 0) ∧
      (t.stage = 0x14 → t.payBits = 0)) ∧
    (exec .decomp s = .next t → t.outLen = 0 ∧
      (t.stage = 0x20 → t.alphaLen = 0 ∧ t.topoBits = 0 ∧ t.payBits = 0) ∧
      (t.stage = 0x21 → t.root = Config.nil ∧ t.nodeCnt = 0 ∧ t.nsym = 0))

/-- R224: CLR completes from every state, with every register and table at its reset value and `IN_MEM`
kept. -/
def Obligations.ClrCompletes : Prop :=
  ∀ s : State, ∃ t, exec .clr s = .next t ∧ Completed true 0x00 t ∧ ResetValues t ∧
    ∀ a, memRead t.inMem a = memRead s.inMem a

/-! ### HIST -/

/-- R100: HIST with a non-empty input completes, and each counter is the number of times its symbol occurs
in `IN_MEM[0 .. IN_LEN)`. -/
def Obligations.HistCompletes : Prop :=
  ∀ s : State, s.inLen ≠ 0 → ∃ t, exec .hist s = .next t ∧ Completed false 0x10 t ∧
    ∀ sym, (freqAt t sym).toNat = (inBytes s).count sym

/-- R101: after a HIST that did not fault the counters add up to `IN_LEN`, a counter is nonzero exactly for
the symbols that occur, and one is nonzero. -/
def Obligations.HistTotals : Prop :=
  ∀ s t : State, exec .hist s = .next t → t.fsm = .idle →
    freqTotal t = s.inLen.toNat ∧ (∀ sym, freqAt t sym ≠ 0 ↔ sym ∈ inBytes s) ∧
    ∃ sym, freqAt t sym ≠ 0

/-! ### BUILD -/

/-- R100, R102, R116: HIST of an empty input and BUILD of an all-zero table fault with `EmptyInput(0)`, with
all counters 0 and with no tree. -/
def Obligations.EmptyInputFaults : Prop :=
  ∀ s : State,
    (s.inLen = 0 → ∃ t, exec .hist s = .next t ∧ FaultTaken .emptyInput 0 0x10 t ∧
      ∀ sym, freqAt t sym = 0) ∧
    (countedSymbols s = [] → ∃ t, exec .build s = .next t ∧ FaultTaken .emptyInput 0 0x11 t ∧
      t.root = Config.nil ∧ t.nodeCnt = 0 ∧ t.nsym = 0)

/-- R115: one distinct symbol gives the Leaf as node 0 and the wrapper as node 1. -/
def Obligations.BuildWrapsSingleSymbol : Prop :=
  ∀ (s : State) (sym : Byte), countedSymbols s = [sym] → ∃ t, exec .build s = .next t ∧
    Completed false 0x11 t ∧ t.root = 1 ∧ t.nodeCnt = 2 ∧ t.nsym = 1 ∧
    nodeAt t.nodes 0 =
      { kind := .leaf, weight := freqAt s sym, left := 0x1FF, right := 0x1FF, tsym := sym } ∧
    nodeAt t.nodes 1 =
      { kind := .internal, weight := freqAt s sym, left := 0, right := 0x1FF, tsym := sym }

/-- R113, R114, R118: N distinct symbols, N at least 2, whose weights add up to at most 2^32-1, give 2N-1
nodes: the Leaves first, in ascending symbol order, the root last, of the total weight. -/
def Obligations.BuildCompletes : Prop :=
  ∀ s : State, 2 ≤ (countedSymbols s).length → freqTotal s ≤ 0xFFFFFFFF →
    ∃ t, exec .build s = .next t ∧ Completed false 0x11 t ∧
      t.nsym.toNat = (countedSymbols s).length ∧
      t.nodeCnt.toNat = 2 * (countedSymbols s).length - 1 ∧
      t.root.toNat = 2 * (countedSymbols s).length - 2 ∧
      (∀ k, ∀ h : k < (countedSymbols s).length,
        nodeAt t.nodes (BitVec.ofNat 9 k) =
          { kind := .leaf, weight := freqAt s (countedSymbols s)[k], left := 0x1FF, right := 0x1FF,
            tsym := (countedSymbols s)[k] }) ∧
      (nodeAt t.nodes t.root).weight.toNat = freqTotal s

/-- R120: with at least two distinct symbols BUILD faults with `CapacityExceeded(1)` exactly when the
weights add up to more than 2^32-1. -/
def Obligations.BuildOverflowsExactly : Prop :=
  ∀ s : State, 2 ≤ (countedSymbols s).length →
    ((∃ t, exec .build s = .next t ∧ FaultTaken .capacityExceeded 1 0x11 t ∧ t.root = Config.nil) ↔
      0xFFFFFFFF < freqTotal s)

/-- R41 (e), R111, R114: in a tree BUILD made, a Leaf has weight at least 1 and no child; an Internal node
has the sum of its children's weights and the smaller of their `tsym`, and its children stand at lower
indices. -/
def Obligations.BuildNodesSumTheirChildren : Prop :=
  ∀ s t : State, exec .build s = .next t → t.fsm = .idle → ∀ k : NodeIdx, k.toNat < t.nodeCnt.toNat →
    let n := nodeAt t.nodes k
    let l := nodeAt t.nodes n.left
    let r := nodeAt t.nodes n.right
    (n.kind = .leaf → n.weight ≠ 0 ∧ n.left = Config.nil ∧ n.right = Config.nil) ∧
    (n.kind = .internal → n.left.toNat < k.toNat) ∧
    (n.kind = .internal → n.right = Config.nil → n.weight = l.weight ∧ n.tsym = l.tsym) ∧
    (n.kind = .internal → n.right ≠ Config.nil → n.right.toNat < k.toNat ∧
      n.weight.toNat = l.weight.toNat + r.weight.toNat ∧
      n.tsym.toNat = min l.tsym.toNat r.tsym.toNat)

/-- R110, R111, R112, R114: in a tree BUILD made, every Internal node `k` with two children was made of the
two nodes that had the least keys `(weight, tsym)` of all nodes there at the time that were children of
no node yet, the least as left child, the next as right child. -/
def Obligations.BuildMergesLeastKeys : Prop :=
  ∀ s t : State, exec .build s = .next t → t.fsm = .idle → ∀ k : NodeIdx, k.toNat < t.nodeCnt.toNat →
    let n := nodeAt t.nodes k
    n.kind = .internal → n.right ≠ Config.nil →
      UnmergedBelow t.nodes k n.left ∧ UnmergedBelow t.nodes k n.right ∧
      LesserKey (nodeAt t.nodes n.left) (nodeAt t.nodes n.right) ∧
      ∀ j : NodeIdx, UnmergedBelow t.nodes k j → j ≠ n.left → j ≠ n.right →
        LesserKey (nodeAt t.nodes n.right) (nodeAt t.nodes j)

/-- R232, R119: BUILD from equal tables gives equal trees, index for index, and equal outcomes. -/
def Obligations.BuildDependsOnWeightsOnly : Prop :=
  ∀ s1 s2 t1 t2 : State, (∀ sym, freqAt s1 sym = freqAt s2 sym) →
    exec .build s1 = .next t1 → exec .build s2 = .next t2 →
    t1.root = t2.root ∧ t1.nodeCnt = t2.nodeCnt ∧ t1.nsym = t2.nsym ∧ t1.errCode = t2.errCode ∧
    t1.errInfo = t2.errInfo ∧
    ∀ i : NodeIdx, i.toNat < t1.nodeCnt.toNat → nodeAt t1.nodes i = nodeAt t2.nodes i

/-! ### GENC -/

/-- R125, R126, R128: GENC completes on every tree. A symbol's entry is the path from the root to a Leaf of
that symbol, 0 for left and 1 for right; of several Leaves of one symbol, to the one furthest right; a
symbol of no Leaf has no entry. No code begins the code of another symbol, repeated symbols or not. -/
def Obligations.GencCompletes : Prop :=
  ∀ (s : State) (x : Tree), s.root ≠ Config.nil → treeOf s = some x →
    ∃ t, exec .genc s = .next t ∧ Completed false 0x12 t ∧
      (∀ sym p, codeAt t sym = some p ↔
        leafAt x p sym ∧ ∀ q, leafAt x q sym → q = p ∨ leftOf q p) ∧
      (∀ sym, codeAt t sym = none ↔ ∀ p, ¬ leafAt x p sym) ∧
      (∀ (a b : Byte) (c d : BitSeq), a ≠ b → codeAt t a = some c → codeAt t b = some d → ¬ c <+: d)

/-- R259, R251: GENC, TSER and DEC without a tree fault with `NotReady(0)`. -/
def Obligations.StagesWithoutTreeFault : Prop :=
  ∀ s : State, s.root = Config.nil →
    (∃ t, exec .genc s = .next t ∧ FaultTaken .notReady 0 0x12 t ∧ ∀ sym, codeValid t sym = false) ∧
    (∃ t, exec .tser s = .next t ∧ FaultTaken .notReady 0 0x13 t ∧ t.alphaLen = 0 ∧ t.topoBits = 0) ∧
    (∃ t, exec .dec s = .next t ∧ FaultTaken .notReady 0 0x22 t ∧ t.outLen = 0)

/-- R130: for the table GENC writes from a tree of R41 with distinct Leaf symbols, no code begins the code
of another symbol, and the Kraft sum over all symbols is at most 1: exactly 1 where every Internal node
has two children, one half for the wrapper. -/
def Obligations.CodesPrefixFreeAndKraft : Prop :=
  ∀ (s : State) (x : Tree), s.root ≠ Config.nil → treeOf s = some x → properTree x = true →
    (sideList x).Nodup → ∃ t, exec .genc s = .next t ∧ Completed false 0x12 t ∧
      (∀ (a b : Byte) (c d : BitSeq), a ≠ b → codeAt t a = some c → codeAt t b = some d → ¬ c <+: d) ∧
      kraftSum t ≤ 1 ∧ (fullTree x = true → kraftSum t = 1) ∧
      (wrapperTree x = true → kraftSum t = 1 / 2)

/-! ### TSER and TDES -/

/-- R136, R137, R139: TSER completes on every tree that fits, with the post-order topology in `TOPO_MEM`,
packed with its padding 0, and the Leaf symbols from right to left in `ALPHA_MEM`. -/
def Obligations.TserCompletes : Prop :=
  ∀ (s : State) (x : Tree), s.root ≠ Config.nil → treeOf s = some x → treeSize x ≤ 511 →
    treeLeaves x ≤ 256 → ∃ t, exec .tser s = .next t ∧ Completed false 0x13 t ∧
      topoSeq t = emitTopology x ∧ topoBytes t = pack (emitTopology x) ∧
      alphaBytes t = (sideList x).reverse ∧
      t.topoBits.toNat = treeSize x ∧ t.alphaLen.toNat = treeLeaves x

/-- R138: one topology bit per node, one 1 bit per Leaf; the topology of a tree whose Internal nodes all
have two children has odd length, ends in 0 when it has more than one node, and the wrapper's is `1 0`. -/
def Obligations.TopologyCounts : Prop :=
  ∀ x : Tree, (emitTopology x).length = treeSize x ∧ (emitTopology x).count true = treeLeaves x ∧
    (fullTree x = true → treeSize x = 2 * treeLeaves x - 1 ∧ 1 ≤ treeLeaves x ∧
      (emitTopology x).head? = some true ∧
      (2 ≤ treeSize x → (emitTopology x).getLast? = some false)) ∧
    (wrapperTree x = true → emitTopology x = [true, false])

/-- R145, R146, R147, R149: TDES of the topology and Alphabet of a tree of R41 completes and rebuilds that
tree. Its nodes are numbered from the root 0 on in the order their bits are popped, from the last bit to the
first, so a right child follows its parent; every weight and every Internal `tsym` is 0. The wrapper's
absent child is its right one. -/
def Obligations.TdesCompletes : Prop :=
  ∀ (s : State) (x : Tree), properTree x = true → treeSize x ≤ 511 → topoSeq s = emitTopology x →
    alphaBytes s = (sideList x).reverse → ∃ t, exec .tdes s = .next t ∧ Completed false 0x21 t ∧
      treeOf t = some x ∧ t.root = 0 ∧ t.nodeCnt = s.topoBits ∧ t.nsym = s.alphaLen ∧
      (∀ k : NodeIdx, k.toNat < t.nodeCnt.toNat →
        let n := nodeAt t.nodes k
        n.weight = 0 ∧
        (n.kind = .leaf ↔ (topoSeq s).getD (s.topoBits.toNat - 1 - k.toNat) false = true) ∧
        (n.kind = .internal → n.tsym = 0) ∧
        (n.kind = .internal → fullTree x = true → n.right.toNat = k.toNat + 1)) ∧
      (wrapperTree x = true → (nodeAt t.nodes 0).left = 1 ∧ (nodeAt t.nodes 0).right = Config.nil)

/-- R146, R148, R255: TDES without as many 1 bits as Alphabet entries faults with `InvalidContainer(5)`;
with them it completes exactly on the topologies of trees of R41. Any other is `MalformedTopology`: 2,
leftover bits, when a proper final part of the bits is the topology of a complete tree, and else 1,
premature exhaustion. -/
def Obligations.TdesAcceptsExactlyTreeTopologies : Prop :=
  ∀ s : State, s.topoBits.toNat ≤ 511 →
    ((topoSeq s).count true ≠ s.alphaLen.toNat →
      ∃ t, exec .tdes s = .next t ∧ FaultTaken .invalidContainer 5 0x21 t) ∧
    ((topoSeq s).count true = s.alphaLen.toNat →
      (∃ x, properTree x = true ∧ topoSeq s = emitTopology x) →
      ∃ t, exec .tdes s = .next t ∧ Completed false 0x21 t) ∧
    ((topoSeq s).count true = s.alphaLen.toNat →
      ¬ (∃ x, properTree x = true ∧ topoSeq s = emitTopology x) →
      (∃ x front, fullTree x = true ∧ front ≠ [] ∧ topoSeq s = front ++ emitTopology x) →
      ∃ t, exec .tdes s = .next t ∧ FaultTaken .malformedTopology 2 0x21 t) ∧
    ((topoSeq s).count true = s.alphaLen.toNat →
      ¬ (∃ x, properTree x = true ∧ topoSeq s = emitTopology x) →
      ¬ (∃ x front, fullTree x = true ∧ front ≠ [] ∧ topoSeq s = front ++ emitTopology x) →
      ∃ t, exec .tdes s = .next t ∧ FaultTaken .malformedTopology 1 0x21 t)

/-- R152: TDES of what TSER wrote from a tree does not fault and yields the same tree. -/
def Obligations.TserThenTdesRestoresTree : Prop :=
  ∀ s t : State, TreeOk s → s.root ≠ Config.nil → exec .tser s = .next t →
    ∃ u, exec .tdes t = .next u ∧ Completed false 0x21 u ∧ treeOf u = treeOf s ∧
      u.nodeCnt = s.nodeCnt ∧ u.nsym = s.nsym

/-- R140: TSER after a TDES that did not fault writes back the topology and the Alphabet TDES read, with the
padding bits zero. -/
def Obligations.TdesThenTserRestoresTopology : Prop :=
  ∀ s t : State, RegistersOk s → exec .tdes s = .next t → t.fsm = .idle →
    ∃ u, exec .tser t = .next u ∧ Completed false 0x13 u ∧ u.topoBits = s.topoBits ∧
      u.alphaLen = s.alphaLen ∧ topoSeq u = topoSeq s ∧ alphaBytes u = alphaBytes s ∧
      topoBytes u = pack (topoSeq s)

/-! ### BitPacker and BitUnpacker -/

/-- R164: the closed form of a packing run, bit by bit, with 0 beyond the sequence. -/
def Obligations.PackClosedForm : Prop :=
  ∀ b : BitSeq, (pack b).length = ceil8 b.length ∧
    ∀ j, ∀ h : j < (pack b).length, ∀ i, i < 8 →
      ((pack b)[j]).getLsbD (7 - i) = b.getD (8 * j + i) false

/-- R169: packing and unpacking are inverse. -/
def Obligations.PackUnpackInverse : Prop :=
  (∀ (b : BitSeq) (e : Nat), unpack (memLoad (pack b) e) b.length = b) ∧
  (∀ (m : Memory) (len : Nat),
    (∀ k, len ≤ k → k < 8 * ceil8 len → getBit m k = false) →
    pack (unpack m len) = memBytes m (ceil8 len))

/-! ### ENC and DEC -/

/-- R175, R176, R180: ENC completes when every input byte has a code and the codes fit `PAY_MEM`; the
payload is the codes one after another, packed. -/
def Obligations.EncCompletes : Prop :=
  ∀ s : State, (∀ x ∈ inBytes s, codeValid s x = true) →
    codeTotal s (inBytes s) ≤ 8 * Config.bufCap → ∃ t, exec .enc s = .next t ∧
      Completed false 0x14 t ∧ t.payBits.toNat = codeTotal s (inBytes s) ∧
      paySeq t = (inBytes s).flatMap (fun x => (codeAt s x).getD []) ∧ payBytes t = pack (paySeq t)

/-- R176, R177, R178, R262: the first input byte without a code, or whose code no longer fits, is the one
ENC faults at; of the two the missing code is found first. -/
def Obligations.EncFaults : Prop :=
  ∀ (s : State) (done : List Byte) (x : Byte) (rest : List Byte), inBytes s = done ++ x :: rest →
    (∀ y ∈ done, codeValid s y = true) → codeTotal s done ≤ 8 * Config.bufCap →
    (codeValid s x = false → ∃ t, exec .enc s = .next t ∧
      FaultTaken .symbolNotInTable (BitVec.ofNat 32 done.length) 0x14 t ∧ t.payBits = 0) ∧
    (codeValid s x = true → 8 * Config.bufCap < codeTotal s done + codeLen s x →
      ∃ t, exec .enc s = .next t ∧ FaultTaken .capacityExceeded 2 0x14 t ∧ t.payBits = 0)

/-- R185, R186, R190: DEC of a payload that is a sequence of root-to-Leaf paths, with a tree whose root is
an Internal node, completes with the symbols of those Leaves. -/
def Obligations.DecCompletes : Prop :=
  ∀ (s : State) (l r : Tree) (es : List (BitSeq × Byte)), treeOf s = some (.internal l r) →
    (∀ e ∈ es, leafAt (.internal l r) e.1 e.2) → paySeq s = es.flatMap (fun e => e.1) →
    es.length ≤ Config.bufCap → ∃ t, exec .dec s = .next t ∧ Completed false 0x22 t ∧
      t.outLen.toNat = es.length ∧ outBytes t = es.map (fun e => e.2)

/-- R186, R187: a DEC that completes, with a tree whose root is an Internal node, has read a sequence of
root-to-Leaf paths to the end. -/
def Obligations.DecReadsOnlyWholeCodes : Prop :=
  ∀ (s t : State) (l r : Tree), treeOf s = some (.internal l r) → exec .dec s = .next t →
    t.fsm = .idle → ∃ es : List (BitSeq × Byte), (∀ e ∈ es, leafAt (.internal l r) e.1 e.2) ∧
      paySeq s = es.flatMap (fun e => e.1) ∧ outBytes t = es.map (fun e => e.2) ∧
      es.length ≤ Config.bufCap

/-- R187, R189, R262: the faults of DEC with a tree whose root is an Internal node: bits that end inside a
code, a bit that selects an absent child, one symbol more than `OUT_MEM` holds. -/
def Obligations.DecFaults : Prop :=
  ∀ (s : State) (l r : Tree) (es : List (BitSeq × Byte)) (p rest : BitSeq),
    treeOf s = some (.internal l r) → (∀ e ∈ es, leafAt (.internal l r) e.1 e.2) →
    es.length ≤ Config.bufCap → paySeq s = es.flatMap (fun e => e.1) ++ (p ++ rest) →
    (p ≠ [] → rest = [] → internalAt (.internal l r) p →
      ∃ t, exec .dec s = .next t ∧ FaultTaken .decodeDesync 1 0x22 t ∧ t.outLen = 0) ∧
    (absentAt (.internal l r) p →
      ∃ t, exec .dec s = .next t ∧ FaultTaken .decodeDesync 2 0x22 t ∧ t.outLen = 0) ∧
    (∀ sym, leafAt (.internal l r) p sym → es.length = Config.bufCap →
      ∃ t, exec .dec s = .next t ∧ FaultTaken .capacityExceeded 4 0x22 t ∧ t.outLen = 0)

/-- R188: with a root that is a bare Leaf, DEC of no bits completes with no symbol, and of any bit faults
with `DecodeDesync(3)`. -/
def Obligations.DecBareLeafRoot : Prop :=
  ∀ (s : State) (sym : Byte), treeOf s = some (.leaf sym) →
    (s.payBits = 0 → ∃ t, exec .dec s = .next t ∧ Completed false 0x22 t ∧ t.outLen = 0) ∧
    (s.payBits ≠ 0 → ∃ t, exec .dec s = .next t ∧ FaultTaken .decodeDesync 3 0x22 t ∧ t.outLen = 0)

/-! ### ASM and PARSE -/

/-- R200, R201: ASM completes when the container fits, and `OUT_MEM` then holds the container's bytes;
otherwise it faults with `CapacityExceeded(3)`. -/
def Obligations.AsmCompletes : Prop :=
  ∀ s : State,
    (12 + s.alphaLen.toNat + ceil8 s.topoBits.toNat + ceil8 s.payBits.toNat ≤ Config.bufCap →
      ∃ t, exec .asm s = .next t ∧ Completed false 0x15 t ∧
        t.outLen.toNat = 12 + s.alphaLen.toNat + ceil8 s.topoBits.toNat + ceil8 s.payBits.toNat ∧
        outBytes t = be32 (BitVec.ofNat 32 s.alphaLen.toNat) ++ be32 (BitVec.ofNat 32 s.topoBits.toNat)
          ++ be32 s.payBits ++ alphaBytes s ++ topoBytes s ++ payBytes s) ∧
    (Config.bufCap < 12 + s.alphaLen.toNat + ceil8 s.topoBits.toNat + ceil8 s.payBits.toNat →
      ∃ t, exec .asm s = .next t ∧ FaultTaken .capacityExceeded 3 0x15 t ∧ t.outLen = 0)

/-- R202, R203, R262: the four checks of PARSE in their order, on exact integers. -/
def Obligations.ParseFaults : Prop :=
  ∀ s : State,
    let a := (rdBe32 (memRead s.inMem 0) (memRead s.inMem 1) (memRead s.inMem 2) (memRead s.inMem 3)).toNat
    let t := (rdBe32 (memRead s.inMem 4) (memRead s.inMem 5) (memRead s.inMem 6) (memRead s.inMem 7)).toNat
    let p := (rdBe32 (memRead s.inMem 8) (memRead s.inMem 9) (memRead s.inMem 10) (memRead s.inMem 11)).toNat
    let faultsWith := fun sub : Word => ∃ u, exec .parse s = .next u ∧
      FaultTaken .invalidContainer sub 0x20 u ∧ u.alphaLen = 0 ∧ u.topoBits = 0 ∧ u.payBits = 0
    (s.inLen.toNat < 12 → faultsWith 1) ∧
    (12 ≤ s.inLen.toNat → 12 + a + ceil8 t + ceil8 p ≠ s.inLen.toNat → faultsWith 2) ∧
    (12 ≤ s.inLen.toNat → 12 + a + ceil8 t + ceil8 p = s.inLen.toNat → 256 < a → faultsWith 3) ∧
    (12 ≤ s.inLen.toNat → 12 + a + ceil8 t + ceil8 p = s.inLen.toNat → a ≤ 256 → 511 < t →
      faultsWith 4)

/-- R202, R204: a container that passes the checks is split: the lengths are the header's, the Alphabet and
the bits are those of the regions, and every padding bit of the copies is 0. -/
def Obligations.ParseCompletes : Prop :=
  ∀ s : State,
    let a := (rdBe32 (memRead s.inMem 0) (memRead s.inMem 1) (memRead s.inMem 2) (memRead s.inMem 3)).toNat
    let t := (rdBe32 (memRead s.inMem 4) (memRead s.inMem 5) (memRead s.inMem 6) (memRead s.inMem 7)).toNat
    let p := (rdBe32 (memRead s.inMem 8) (memRead s.inMem 9) (memRead s.inMem 10) (memRead s.inMem 11)).toNat
    12 + a + ceil8 t + ceil8 p = s.inLen.toNat → a ≤ 256 → t ≤ 511 →
    ∃ u, exec .parse s = .next u ∧ Completed false 0x20 u ∧
      u.alphaLen.toNat = a ∧ u.topoBits.toNat = t ∧ u.payBits.toNat = p ∧
      (∀ j, j < a → memRead u.alphaMem j = memRead s.inMem (12 + j)) ∧
      (∀ k, k < 8 * ceil8 t → getBit u.topoMem k =
        if k < t then (memRead s.inMem (12 + a + k / 8)).getLsbD (7 - k % 8) else false) ∧
      (∀ k, k < 8 * ceil8 p → getBit u.payMem k =
        if k < p then (memRead s.inMem (12 + a + ceil8 t + k / 8)).getLsbD (7 - k % 8) else false)

/-- R205: the container ASM writes, loaded as input, is split by PARSE into what ASM read. -/
def Obligations.AsmThenParseRestores : Prop :=
  ∀ s t v : State, RegistersOk s → BuffersOk s → exec .asm s = .next t → t.fsm = .idle →
    Loaded (outBytes t) v → ∃ u, exec .parse v = .next u ∧ Completed false 0x20 u ∧
      u.alphaLen = s.alphaLen ∧ u.topoBits = s.topoBits ∧ u.payBits = s.payBits ∧
      alphaBytes u = alphaBytes s ∧ topoBytes u = topoBytes s ∧ payBytes u = payBytes s

/-! ### COMP and DECOMP -/

/-- R225, R206: COMP of a non-empty input runs its first four stages to their end, whatever the input, and
completes when the container fits; the container is the header, the Alphabet, the topology and the
payload those stages and ENC give. -/
def Obligations.CompCompletes : Prop :=
  ∀ s : State, s.inLen ≠ 0 → ∃ u, compFront s = .done u ∧
    u.alphaLen.toNat = (allSymbols.filter (fun x => (inBytes s).contains x)).length ∧
    u.topoBits.toNat = (if u.alphaLen = 1 then 2 else 2 * u.alphaLen.toNat - 1) ∧
    (∀ x ∈ inBytes s, codeValid u x = true) ∧
    (12 + u.alphaLen.toNat + ceil8 u.topoBits.toNat + ceil8 (codeTotal u (inBytes s)) ≤ Config.bufCap →
      ∃ t, exec .comp s = .next t ∧ Completed false 0x15 t ∧
        t.outLen.toNat =
          12 + u.alphaLen.toNat + ceil8 u.topoBits.toNat + ceil8 (codeTotal u (inBytes s)) ∧
        outBytes t = be32 (BitVec.ofNat 32 u.alphaLen.toNat) ++ be32 (BitVec.ofNat 32 u.topoBits.toNat)
          ++ be32 (BitVec.ofNat 32 (codeTotal u (inBytes s))) ++ alphaBytes u ++ topoBytes u
          ++ pack ((inBytes s).flatMap (fun x => (codeAt u x).getD [])))

/-- R225: the faults of COMP: `EmptyInput` from HIST exactly when the input is empty, else
`CapacityExceeded(2)` from ENC or `CapacityExceeded(3)` from ASM. -/
def Obligations.CompFaults : Prop :=
  ∀ s : State, ∃ t, exec .comp s = .next t ∧
    (s.inLen = 0 → FaultTaken .emptyInput 0 0x10 t ∧ t.outLen = 0) ∧
    (s.inLen ≠ 0 → Completed false 0x15 t ∨
      (t.outLen = 0 ∧ (FaultTaken .capacityExceeded 2 0x14 t ∨ FaultTaken .capacityExceeded 3 0x15 t)))

/-- R226: DECOMP completes when PARSE does, the parts are the topology and Alphabet of a tree of R41 and the
payload is a sequence of that tree's nonempty root-to-Leaf paths; the output is the symbols of those
Leaves. For the bare Leaf the payload is empty (R188). -/
def Obligations.DecompCompletes : Prop :=
  ∀ (s u : State) (x : Tree) (es : List (BitSeq × Byte)), runParse s = .done u →
    properTree x = true → topoSeq u = emitTopology x → alphaBytes u = (sideList x).reverse →
    (∀ e ∈ es, leafAt x e.1 e.2 ∧ e.1 ≠ []) → paySeq u = es.flatMap (fun e => e.1) →
    es.length ≤ Config.bufCap → ∃ t, exec .decomp s = .next t ∧ Completed false 0x22 t ∧
      t.outLen.toNat = es.length ∧ outBytes t = es.map (fun e => e.2) ∧ treeOf t = some x

/-- R230: for every non-empty input for which COMP does not raise `CapacityExceeded`, DECOMP of the
container gives the input back. -/
def Obligations.RoundTrip : Prop :=
  ∀ s t v : State, RegistersOk s → exec .comp s = .next t → t.fsm = .idle → Loaded (outBytes t) v →
    ∃ u, exec .decomp v = .next u ∧ Completed false 0x22 u ∧ u.outLen.toNat = s.inLen.toNat ∧
      outBytes u = inBytes s

/-- R231, first half: the container of n copies of one symbol. -/
def Obligations.SingleSymbolContainer : Prop :=
  ∀ (s : State) (n : Nat) (sym : Byte), 1 ≤ n → inBytes s = List.replicate n sym →
    14 + ceil8 n ≤ Config.bufCap → ∃ t, exec .comp s = .next t ∧ Completed false 0x15 t ∧
      outBytes t = [0, 0, 0, 1, 0, 0, 0, 2] ++ be32 (BitVec.ofNat 32 n) ++ [sym, 0x80]
        ++ List.replicate (ceil8 n) 0

/-- R283: the result of COMP or DECOMP depends on `IN_MEM[0 .. IN_LEN)` and `IN_LEN` only. -/
def Obligations.FlowsDependOnInputOnly : Prop :=
  ∀ (i : Instr) (s1 s2 t1 t2 : State), i = .comp ∨ i = .decomp → s1.inLen = s2.inLen →
    inBytes s1 = inBytes s2 → exec i s1 = .next t1 → exec i s2 = .next t2 →
    t1.outLen = t2.outLen ∧ outBytes t1 = outBytes t2 ∧ t1.errCode = t2.errCode ∧
    t1.errInfo = t2.errInfo ∧ t1.fsm = t2.fsm ∧ t1.stage = t2.stage

/-! ### Invariants and whole-machine rules -/

/-- The invariants hold after reset. -/
def Obligations.ResetMeetsEveryInvariant : Prop :=
  ControlOk State.reset ∧ RegistersOk State.reset ∧ MemoriesOk State.reset ∧ BuffersOk State.reset ∧
  CodesOk State.reset ∧ TreeOk State.reset ∧ IndicesOk State.reset

/-- R21, R25, R26: every step keeps the control registers consistent with the control state. -/
def Obligations.StepKeepsControl : Prop :=
  ∀ s t : State, ControlOk s → step s = .next t → ControlOk t

/-- R29 to R32, R43, R129: every step keeps the data registers within their legal values, and every code at
most 255 bits long. -/
def Obligations.StepKeepsRegistersAndCodes : Prop :=
  ∀ s t : State, step s = .next t → (RegistersOk s → RegistersOk t) ∧ (CodesOk s → CodesOk t)

/-- R44 to R47, R160, R168: every step keeps the memories in canonical form and within their sizes, and the
padding bits of both BitBuffers 0. -/
def Obligations.StepKeepsMemories : Prop :=
  ∀ s t : State, step s = .next t →
    (RegistersOk s → MemoriesOk s → MemoriesOk t) ∧ (BuffersOk s → BuffersOk t)

/-- R41 (a), (b), R32: every step keeps `ROOT` at a tree of the shape R41 allows, with `NODE_CNT` and `NSYM`
its counts, or at `NIL` with both 0. -/
def Obligations.StepKeepsTreeShape : Prop :=
  ∀ s t : State, RegistersOk s → TreeOk s → step s = .next t → TreeOk t

/-- R41 (c), (d): every step keeps the nodes below `NODE_CNT` each reached from `ROOT` by exactly one
path. -/
def Obligations.StepKeepsTreeIndices : Prop :=
  ∀ s t : State, RegistersOk s → TreeOk s → IndicesOk s → step s = .next t → IndicesOk t

/-- R237: from every state with a tree of R41 or none, the step goes on: no command stops the machine. -/
def Obligations.EveryStepGoesOn : Prop := ∀ s : State, TreeOk s → GoesOn s
end

