-- ==== Sys2Proof/Laws/Memory.lean ====
section
/-! SUPPORT. Laws/Memory.lean: reading after writing, the canonical form of the byte memories, and what a
freshly loaded memory holds. -/

namespace Sys2Proof.Machine

/-! ### Reading after writing -/

theorem cellFind_cellPut (a b : Nat) (v : Byte) (cs : List Host.Cell) :
    cellFind a (cellPut b v cs) = if b = a then some v else cellFind a cs := by
  induction cs with
  | nil => simp [cellPut, cellFind]
  | cons c cs ih =>
    unfold cellPut
    split
    · next hlt => simp [cellFind]
    · next hlt =>
      split
      · next heq => by_cases hba : b = a <;> simp [cellFind, heq, hba]
      · next heq =>
        by_cases hca : c.1 = a
        · have : b ≠ a := fun h => heq (by omega)
          simp [cellFind, hca, this]
        · simp [cellFind, hca, ih]

/-- A read gives the byte written there, and every other byte as before. -/
theorem memRead_memWrite (m : Memory) (a b : Nat) (v : Byte) :
    memRead (memWrite m b v) a = if b = a then v else memRead m a := by
  unfold memRead memWrite
  rw [cellFind_cellPut]
  by_cases h : b = a <;> simp [h]

/-! ### The canonical form -/

theorem cellsRising_cons (c : Host.Cell) (cs : List Host.Cell) :
    cellsRising (c :: cs) = true ↔ (∀ d ∈ cs.head?, c.1 < d.1) ∧ cellsRising cs = true := by
  cases cs <;> simp [cellsRising]

theorem cellPut_head (a : Nat) (v : Byte) (cs : List Host.Cell) :
    ∀ d ∈ (cellPut a v cs).head?, d.1 = a ∨ d ∈ cs.head? := by
  cases cs with
  | nil => simp [cellPut]
  | cons c cs =>
    intro d
    unfold cellPut
    split <;> (try split) <;> simp <;> intro h <;> simp [← h]

theorem cellsRising_cellPut (a : Nat) (v : Byte) (cs : List Host.Cell) (h : cellsRising cs = true) :
    cellsRising (cellPut a v cs) = true := by
  induction cs with
  | nil => rfl
  | cons c cs ih =>
    obtain ⟨hhead, htail⟩ := (cellsRising_cons c cs).1 h
    unfold cellPut
    split
    · next hlt => exact (cellsRising_cons _ _).2 ⟨by simpa using hlt, h⟩
    · next hlt =>
      split
      · next heq => exact (cellsRising_cons _ _).2 ⟨fun d hd => heq ▸ hhead d hd, htail⟩
      · next heq =>
        refine (cellsRising_cons _ _).2 ⟨fun d hd => ?_, ih htail⟩
        rcases cellPut_head a v cs d hd with hd | hd
        · omega
        · exact hhead d hd

theorem memWrite_wf (m : Memory) (a : Nat) (v : Byte) (h : m.wf = true) : (memWrite m a v).wf = true :=
  cellsRising_cellPut a v m.cells h

theorem memWrite_below (m : Memory) (n a : Nat) (v : Byte) (ha : a < n) (h : m.below n = true) :
    (memWrite m a v).below n = true := by
  have key : ∀ cs : List Host.Cell, (cs.all fun c => decide (c.1 < n)) = true →
      ((cellPut a v cs).all fun c => decide (c.1 < n)) = true := by
    intro cs
    induction cs with
    | nil => intro _; simp [cellPut, ha]
    | cons c cs ih =>
      intro h
      have h' : c.1 < n ∧ (cs.all fun c => decide (c.1 < n)) = true := by simpa using h
      unfold cellPut
      split
      · simpa [ha] using h'
      · split
        · simpa [ha] using h'.2
        · have := ih h'.2
          simp only [List.all_cons, this, Bool.and_true, decide_eq_true_eq]
          exact h'.1
  exact key m.cells h

/-! ### A freshly loaded memory -/

theorem cellFind_cellsFrom (a i : Nat) (bs : List Byte) :
    cellFind i (cellsFrom a bs) = if a ≤ i then bs[i - a]? else none := by
  induction bs generalizing a with
  | nil => simp [cellsFrom, cellFind]
  | cons b bs ih =>
    simp only [cellsFrom, cellFind, ih]
    rcases Nat.lt_trichotomy a i with h | h | h
    · have h1 : ¬ a = i := by omega
      have h2 : a + 1 ≤ i := by omega
      have h3 : i - a = (i - (a + 1)) + 1 := by omega
      simp [h1, h2, Nat.le_of_lt h, h3]
    · simp [h]
    · have h1 : ¬ a = i := by omega
      have h2 : ¬ a + 1 ≤ i := by omega
      have h3 : ¬ a ≤ i := by omega
      simp [h1, h2, h3]

theorem cellsRising_cellsFrom (a : Nat) (bs : List Byte) : cellsRising (cellsFrom a bs) = true := by
  induction bs generalizing a with
  | nil => rfl
  | cons b bs ih =>
    refine (cellsRising_cons _ _).2 ⟨?_, ih (a + 1)⟩
    cases bs <;> simp [cellsFrom]

theorem memLoad_wf (bs : List Byte) (e : Nat) : (memLoad bs e).wf = true :=
  cellsRising_cellsFrom 0 bs

theorem memLoad_below (bs : List Byte) (e n : Nat) (h : bs.length ≤ n) :
    (memLoad bs e).below n = true := by
  have key : ∀ (bs : List Byte) (a : Nat), a + bs.length ≤ n →
      ((cellsFrom a bs).all fun c => decide (c.1 < n)) = true := by
    intro bs
    induction bs with
    | nil => intro _ _; rfl
    | cons b bs ih =>
      intro a h
      simp only [List.length_cons] at h
      simp only [cellsFrom, List.all_cons, ih (a + 1) (by omega), Bool.and_true, decide_eq_true_eq]
      omega
  exact key bs 0 (by omega)

/-- A loaded memory reads as the bytes loaded. -/
theorem memRead_memLoad (bs : List Byte) (e i : Nat) (h : i < bs.length) :
    memRead (memLoad bs e) i = bs[i] := by
  simp [memRead, memLoad, cellFind_cellsFrom, h]

@[simp] theorem memBytes_length (m : Memory) (n : Nat) : (memBytes m n).length = n := by
  simp [memBytes]

theorem memBytes_getElem (m : Memory) (n i : Nat) (h : i < (memBytes m n).length) :
    (memBytes m n)[i] = memRead m i := by
  simp [memBytes]

/-- Its first bytes are the bytes loaded. -/
theorem memBytes_memLoad (bs : List Byte) (e : Nat) : memBytes (memLoad bs e) bs.length = bs := by
  refine List.ext_getElem (by simp) fun i h1 h2 => ?_
  rw [memBytes_getElem, memRead_memLoad _ _ _ h2]

end Sys2Proof.Machine
end

