-- ==== Sys2Proof/Laws/BitPacker.lean ====
section
/-! SUPPORT. Laws/BitPacker.lean: a packing run taken eight bits at a time, and the bits of a memory. -/

namespace Sys2Proof.Machine

/-- A packing run from an empty accumulator, with bytes already written. -/
theorem bpPushCode_written (b : BitSeq) (p : Packer) (w : List Byte) (n : Nat) :
    bpFlush (bpPushCode { p with written := w ++ p.written, tot := n } b) =
      w ++ bpFlush (bpPushCode p b) := by
  induction b generalizing p n with
  | nil =>
    simp only [bpPushCode, List.foldl_nil, bpFlush]
    by_cases h : 0 < p.nb <;> simp [h]
  | cons x xs ih =>
    simp only [bpPushCode, List.foldl_cons] at ih ⊢
    by_cases h : p.nb + 1 = 8
    · have := ih { acc := 0, nb := 0, written := p.written ++ [(p.acc <<< 1) ||| (BitVec.ofBool x).setWidth 8],
                   tot := p.tot + 1 } (n + 1)
      simpa [bpPush, h] using this
    · have := ih { p with acc := (p.acc <<< 1) ||| (BitVec.ofBool x).setWidth 8, nb := p.nb + 1,
                          tot := p.tot + 1 } (n + 1)
      simpa [bpPush, h] using this

/-- The byte eight pushes write (R162). -/
def byteOf (b0 b1 b2 b3 b4 b5 b6 b7 : Bool) : Byte :=
  [b1, b2, b3, b4, b5, b6, b7].foldl (fun acc x => (acc <<< 1) ||| (BitVec.ofBool x).setWidth 8)
    (((0 : Byte) <<< 1) ||| (BitVec.ofBool b0).setWidth 8)

theorem byteOf_bits : ∀ b0 b1 b2 b3 b4 b5 b6 b7 : Bool,
    (byteOf b0 b1 b2 b3 b4 b5 b6 b7).getLsbD 7 = b0 ∧ (byteOf b0 b1 b2 b3 b4 b5 b6 b7).getLsbD 6 = b1 ∧
    (byteOf b0 b1 b2 b3 b4 b5 b6 b7).getLsbD 5 = b2 ∧ (byteOf b0 b1 b2 b3 b4 b5 b6 b7).getLsbD 4 = b3 ∧
    (byteOf b0 b1 b2 b3 b4 b5 b6 b7).getLsbD 3 = b4 ∧ (byteOf b0 b1 b2 b3 b4 b5 b6 b7).getLsbD 2 = b5 ∧
    (byteOf b0 b1 b2 b3 b4 b5 b6 b7).getLsbD 1 = b6 ∧ (byteOf b0 b1 b2 b3 b4 b5 b6 b7).getLsbD 0 = b7 := by
  decide +kernel

/-- Eight bits make one byte, and the run goes on as from the start (R162). -/
theorem pack_cons8 (b0 b1 b2 b3 b4 b5 b6 b7 : Bool) (rest : BitSeq) :
    pack (b0 :: b1 :: b2 :: b3 :: b4 :: b5 :: b6 :: b7 :: rest) =
      byteOf b0 b1 b2 b3 b4 b5 b6 b7 :: pack rest := by
  have h := bpPushCode_written rest bpReset [byteOf b0 b1 b2 b3 b4 b5 b6 b7] 8
  simpa [pack, bpPushCode, bpPush, bpReset, byteOf] using h

/-- A sequence of one to seven bits makes one byte, padded with 0 (R163). -/
theorem pack_short (b : BitSeq) (h0 : 0 < b.length) (h : b.length < 8) :
    pack b = [byteOf (b.getD 0 false) (b.getD 1 false) (b.getD 2 false) (b.getD 3 false)
      (b.getD 4 false) (b.getD 5 false) (b.getD 6 false) (b.getD 7 false)] := by
  have key1 : ∀ b0, pack [b0] = [byteOf b0 false false false false false false false] := by decide +kernel
  have key2 : ∀ b0 b1, pack [b0, b1] = [byteOf b0 b1 false false false false false false] := by
    decide +kernel
  have key3 : ∀ b0 b1 b2, pack [b0, b1, b2] = [byteOf b0 b1 b2 false false false false false] := by
    decide +kernel
  have key4 : ∀ b0 b1 b2 b3, pack [b0, b1, b2, b3] = [byteOf b0 b1 b2 b3 false false false false] := by
    decide +kernel
  have key5 : ∀ b0 b1 b2 b3 b4, pack [b0, b1, b2, b3, b4] = [byteOf b0 b1 b2 b3 b4 false false false] := by
    decide +kernel
  have key6 : ∀ b0 b1 b2 b3 b4 b5,
      pack [b0, b1, b2, b3, b4, b5] = [byteOf b0 b1 b2 b3 b4 b5 false false] := by decide +kernel
  have key7 : ∀ b0 b1 b2 b3 b4 b5 b6,
      pack [b0, b1, b2, b3, b4, b5, b6] = [byteOf b0 b1 b2 b3 b4 b5 b6 false] := by decide +kernel
  match b, h0, h with
  | [b0], _, _ => exact key1 b0
  | [b0, b1], _, _ => exact key2 b0 b1
  | [b0, b1, b2], _, _ => exact key3 b0 b1 b2
  | [b0, b1, b2, b3], _, _ => exact key4 b0 b1 b2 b3
  | [b0, b1, b2, b3, b4], _, _ => exact key5 b0 b1 b2 b3 b4
  | [b0, b1, b2, b3, b4, b5], _, _ => exact key6 b0 b1 b2 b3 b4 b5
  | [b0, b1, b2, b3, b4, b5, b6], _, _ => exact key7 b0 b1 b2 b3 b4 b5 b6
  | _ :: _ :: _ :: _ :: _ :: _ :: _ :: _ :: _, _, h => simp at h; omega

@[simp] theorem pack_nil : pack [] = [] := rfl

/-- The number of pushed bits is what `bp_flush` returns (R163). -/
theorem bpPushCode_tot (b : BitSeq) (p : Packer) : (bpPushCode p b).tot = p.tot + b.length := by
  induction b generalizing p with
  | nil => rfl
  | cons x xs ih =>
    have hstep : (bpPush p x).tot = p.tot + 1 := by unfold bpPush; split <;> rfl
    have := ih (bpPush p x)
    simp only [bpPushCode, List.foldl_cons, List.length_cons] at this ⊢
    omega

@[simp] theorem unpack_length (m : Memory) (n : Nat) : (unpack m n).length = n := by simp [unpack]

theorem unpack_getElem (m : Memory) (n k : Nat) (h : k < (unpack m n).length) :
    (unpack m n)[k] = getBit m k := by
  simp [unpack]

end Sys2Proof.Machine
end

