-- ==== Sys2Proof/Laws/State.lean ====
section
/-! SUPPORT. Laws/State.lean: what each named update of the state leaves in each field, one lemma per field
per update, true by definition. -/

namespace Sys2Proof.Machine

/-! ### setStage -/

@[simp] theorem setStage_fsm (i : Instr) (s : State) : (setStage i s).fsm = s.fsm := rfl
@[simp] theorem setStage_fromFaulted (i : Instr) (s : State) :
    (setStage i s).fromFaulted = s.fromFaulted := rfl
@[simp] theorem setStage_pending (i : Instr) (s : State) : (setStage i s).pending = s.pending := rfl
@[simp] theorem setStage_doneFlag (i : Instr) (s : State) :
    (setStage i s).doneFlag = s.doneFlag := rfl
@[simp] theorem setStage_stage (i : Instr) (s : State) : (setStage i s).stage = opcodeOf i := rfl
@[simp] theorem setStage_errCode (i : Instr) (s : State) : (setStage i s).errCode = s.errCode := rfl
@[simp] theorem setStage_errInfo (i : Instr) (s : State) : (setStage i s).errInfo = s.errInfo := rfl
@[simp] theorem setStage_inLen (i : Instr) (s : State) : (setStage i s).inLen = s.inLen := rfl
@[simp] theorem setStage_outLen (i : Instr) (s : State) : (setStage i s).outLen = s.outLen := rfl
@[simp] theorem setStage_alphaLen (i : Instr) (s : State) :
    (setStage i s).alphaLen = s.alphaLen := rfl
@[simp] theorem setStage_topoBits (i : Instr) (s : State) :
    (setStage i s).topoBits = s.topoBits := rfl
@[simp] theorem setStage_payBits (i : Instr) (s : State) : (setStage i s).payBits = s.payBits := rfl
@[simp] theorem setStage_root (i : Instr) (s : State) : (setStage i s).root = s.root := rfl
@[simp] theorem setStage_nodeCnt (i : Instr) (s : State) : (setStage i s).nodeCnt = s.nodeCnt := rfl
@[simp] theorem setStage_nsym (i : Instr) (s : State) : (setStage i s).nsym = s.nsym := rfl
@[simp] theorem setStage_freq (i : Instr) (s : State) : (setStage i s).freq = s.freq := rfl
@[simp] theorem setStage_nodes (i : Instr) (s : State) : (setStage i s).nodes = s.nodes := rfl
@[simp] theorem setStage_code (i : Instr) (s : State) : (setStage i s).code = s.code := rfl
@[simp] theorem setStage_inMem (i : Instr) (s : State) : (setStage i s).inMem = s.inMem := rfl
@[simp] theorem setStage_outMem (i : Instr) (s : State) : (setStage i s).outMem = s.outMem := rfl
@[simp] theorem setStage_payMem (i : Instr) (s : State) : (setStage i s).payMem = s.payMem := rfl
@[simp] theorem setStage_alphaMem (i : Instr) (s : State) :
    (setStage i s).alphaMem = s.alphaMem := rfl
@[simp] theorem setStage_topoMem (i : Instr) (s : State) : (setStage i s).topoMem = s.topoMem := rfl
@[simp] theorem setStage_agenda (i : Instr) (s : State) : (setStage i s).agenda = s.agenda := rfl
@[simp] theorem setStage_hostData (i : Instr) (s : State) :
    (setStage i s).hostData = s.hostData := rfl
@[simp] theorem setStage_free (i : Instr) (s : State) : (setStage i s).free = s.free := rfl

/-! ### clearFreq -/

@[simp] theorem clearFreq_fsm (s : State) : (clearFreq s).fsm = s.fsm := rfl
@[simp] theorem clearFreq_fromFaulted (s : State) : (clearFreq s).fromFaulted = s.fromFaulted := rfl
@[simp] theorem clearFreq_pending (s : State) : (clearFreq s).pending = s.pending := rfl
@[simp] theorem clearFreq_doneFlag (s : State) : (clearFreq s).doneFlag = s.doneFlag := rfl
@[simp] theorem clearFreq_stage (s : State) : (clearFreq s).stage = s.stage := rfl
@[simp] theorem clearFreq_errCode (s : State) : (clearFreq s).errCode = s.errCode := rfl
@[simp] theorem clearFreq_errInfo (s : State) : (clearFreq s).errInfo = s.errInfo := rfl
@[simp] theorem clearFreq_inLen (s : State) : (clearFreq s).inLen = s.inLen := rfl
@[simp] theorem clearFreq_outLen (s : State) : (clearFreq s).outLen = s.outLen := rfl
@[simp] theorem clearFreq_alphaLen (s : State) : (clearFreq s).alphaLen = s.alphaLen := rfl
@[simp] theorem clearFreq_topoBits (s : State) : (clearFreq s).topoBits = s.topoBits := rfl
@[simp] theorem clearFreq_payBits (s : State) : (clearFreq s).payBits = s.payBits := rfl
@[simp] theorem clearFreq_root (s : State) : (clearFreq s).root = s.root := rfl
@[simp] theorem clearFreq_nodeCnt (s : State) : (clearFreq s).nodeCnt = s.nodeCnt := rfl
@[simp] theorem clearFreq_nsym (s : State) : (clearFreq s).nsym = s.nsym := rfl
@[simp] theorem clearFreq_freq (s : State) : (clearFreq s).freq = Vector.replicate 256 0 := rfl
@[simp] theorem clearFreq_nodes (s : State) : (clearFreq s).nodes = s.nodes := rfl
@[simp] theorem clearFreq_code (s : State) : (clearFreq s).code = s.code := rfl
@[simp] theorem clearFreq_inMem (s : State) : (clearFreq s).inMem = s.inMem := rfl
@[simp] theorem clearFreq_outMem (s : State) : (clearFreq s).outMem = s.outMem := rfl
@[simp] theorem clearFreq_payMem (s : State) : (clearFreq s).payMem = s.payMem := rfl
@[simp] theorem clearFreq_alphaMem (s : State) : (clearFreq s).alphaMem = s.alphaMem := rfl
@[simp] theorem clearFreq_topoMem (s : State) : (clearFreq s).topoMem = s.topoMem := rfl
@[simp] theorem clearFreq_agenda (s : State) : (clearFreq s).agenda = s.agenda := rfl
@[simp] theorem clearFreq_hostData (s : State) : (clearFreq s).hostData = s.hostData := rfl
@[simp] theorem clearFreq_free (s : State) : (clearFreq s).free = s.free := rfl

/-! ### clearCode -/

@[simp] theorem clearCode_fsm (s : State) : (clearCode s).fsm = s.fsm := rfl
@[simp] theorem clearCode_fromFaulted (s : State) : (clearCode s).fromFaulted = s.fromFaulted := rfl
@[simp] theorem clearCode_pending (s : State) : (clearCode s).pending = s.pending := rfl
@[simp] theorem clearCode_doneFlag (s : State) : (clearCode s).doneFlag = s.doneFlag := rfl
@[simp] theorem clearCode_stage (s : State) : (clearCode s).stage = s.stage := rfl
@[simp] theorem clearCode_errCode (s : State) : (clearCode s).errCode = s.errCode := rfl
@[simp] theorem clearCode_errInfo (s : State) : (clearCode s).errInfo = s.errInfo := rfl
@[simp] theorem clearCode_inLen (s : State) : (clearCode s).inLen = s.inLen := rfl
@[simp] theorem clearCode_outLen (s : State) : (clearCode s).outLen = s.outLen := rfl
@[simp] theorem clearCode_alphaLen (s : State) : (clearCode s).alphaLen = s.alphaLen := rfl
@[simp] theorem clearCode_topoBits (s : State) : (clearCode s).topoBits = s.topoBits := rfl
@[simp] theorem clearCode_payBits (s : State) : (clearCode s).payBits = s.payBits := rfl
@[simp] theorem clearCode_root (s : State) : (clearCode s).root = s.root := rfl
@[simp] theorem clearCode_nodeCnt (s : State) : (clearCode s).nodeCnt = s.nodeCnt := rfl
@[simp] theorem clearCode_nsym (s : State) : (clearCode s).nsym = s.nsym := rfl
@[simp] theorem clearCode_freq (s : State) : (clearCode s).freq = s.freq := rfl
@[simp] theorem clearCode_nodes (s : State) : (clearCode s).nodes = s.nodes := rfl
@[simp] theorem clearCode_code (s : State) : (clearCode s).code = Vector.replicate 256 none := rfl
@[simp] theorem clearCode_inMem (s : State) : (clearCode s).inMem = s.inMem := rfl
@[simp] theorem clearCode_outMem (s : State) : (clearCode s).outMem = s.outMem := rfl
@[simp] theorem clearCode_payMem (s : State) : (clearCode s).payMem = s.payMem := rfl
@[simp] theorem clearCode_alphaMem (s : State) : (clearCode s).alphaMem = s.alphaMem := rfl
@[simp] theorem clearCode_topoMem (s : State) : (clearCode s).topoMem = s.topoMem := rfl
@[simp] theorem clearCode_agenda (s : State) : (clearCode s).agenda = s.agenda := rfl
@[simp] theorem clearCode_hostData (s : State) : (clearCode s).hostData = s.hostData := rfl
@[simp] theorem clearCode_free (s : State) : (clearCode s).free = s.free := rfl

/-! ### setOut -/

@[simp] theorem setOut_fsm (bs : List Byte) (s : State) : (setOut bs s).fsm = s.fsm := rfl
@[simp] theorem setOut_fromFaulted (bs : List Byte) (s : State) :
    (setOut bs s).fromFaulted = s.fromFaulted := rfl
@[simp] theorem setOut_pending (bs : List Byte) (s : State) :
    (setOut bs s).pending = s.pending := rfl
@[simp] theorem setOut_doneFlag (bs : List Byte) (s : State) :
    (setOut bs s).doneFlag = s.doneFlag := rfl
@[simp] theorem setOut_stage (bs : List Byte) (s : State) : (setOut bs s).stage = s.stage := rfl
@[simp] theorem setOut_errCode (bs : List Byte) (s : State) :
    (setOut bs s).errCode = s.errCode := rfl
@[simp] theorem setOut_errInfo (bs : List Byte) (s : State) :
    (setOut bs s).errInfo = s.errInfo := rfl
@[simp] theorem setOut_inLen (bs : List Byte) (s : State) : (setOut bs s).inLen = s.inLen := rfl
@[simp] theorem setOut_outLen (bs : List Byte) (s : State) :
    (setOut bs s).outLen = BitVec.ofNat 29 bs.length := rfl
@[simp] theorem setOut_alphaLen (bs : List Byte) (s : State) :
    (setOut bs s).alphaLen = s.alphaLen := rfl
@[simp] theorem setOut_topoBits (bs : List Byte) (s : State) :
    (setOut bs s).topoBits = s.topoBits := rfl
@[simp] theorem setOut_payBits (bs : List Byte) (s : State) :
    (setOut bs s).payBits = s.payBits := rfl
@[simp] theorem setOut_root (bs : List Byte) (s : State) : (setOut bs s).root = s.root := rfl
@[simp] theorem setOut_nodeCnt (bs : List Byte) (s : State) :
    (setOut bs s).nodeCnt = s.nodeCnt := rfl
@[simp] theorem setOut_nsym (bs : List Byte) (s : State) : (setOut bs s).nsym = s.nsym := rfl
@[simp] theorem setOut_freq (bs : List Byte) (s : State) : (setOut bs s).freq = s.freq := rfl
@[simp] theorem setOut_nodes (bs : List Byte) (s : State) : (setOut bs s).nodes = s.nodes := rfl
@[simp] theorem setOut_code (bs : List Byte) (s : State) : (setOut bs s).code = s.code := rfl
@[simp] theorem setOut_inMem (bs : List Byte) (s : State) : (setOut bs s).inMem = s.inMem := rfl
@[simp] theorem setOut_outMem (bs : List Byte) (s : State) :
    (setOut bs s).outMem = memLoad bs s.free := rfl
@[simp] theorem setOut_payMem (bs : List Byte) (s : State) : (setOut bs s).payMem = s.payMem := rfl
@[simp] theorem setOut_alphaMem (bs : List Byte) (s : State) :
    (setOut bs s).alphaMem = s.alphaMem := rfl
@[simp] theorem setOut_topoMem (bs : List Byte) (s : State) :
    (setOut bs s).topoMem = s.topoMem := rfl
@[simp] theorem setOut_agenda (bs : List Byte) (s : State) : (setOut bs s).agenda = s.agenda := rfl
@[simp] theorem setOut_hostData (bs : List Byte) (s : State) :
    (setOut bs s).hostData = s.hostData := rfl
@[simp] theorem setOut_free (bs : List Byte) (s : State) : (setOut bs s).free = s.free + 1 := rfl

/-! ### setAlpha -/

@[simp] theorem setAlpha_fsm (bs : List Byte) (s : State) : (setAlpha bs s).fsm = s.fsm := rfl
@[simp] theorem setAlpha_fromFaulted (bs : List Byte) (s : State) :
    (setAlpha bs s).fromFaulted = s.fromFaulted := rfl
@[simp] theorem setAlpha_pending (bs : List Byte) (s : State) :
    (setAlpha bs s).pending = s.pending := rfl
@[simp] theorem setAlpha_doneFlag (bs : List Byte) (s : State) :
    (setAlpha bs s).doneFlag = s.doneFlag := rfl
@[simp] theorem setAlpha_stage (bs : List Byte) (s : State) : (setAlpha bs s).stage = s.stage := rfl
@[simp] theorem setAlpha_errCode (bs : List Byte) (s : State) :
    (setAlpha bs s).errCode = s.errCode := rfl
@[simp] theorem setAlpha_errInfo (bs : List Byte) (s : State) :
    (setAlpha bs s).errInfo = s.errInfo := rfl
@[simp] theorem setAlpha_inLen (bs : List Byte) (s : State) : (setAlpha bs s).inLen = s.inLen := rfl
@[simp] theorem setAlpha_outLen (bs : List Byte) (s : State) :
    (setAlpha bs s).outLen = s.outLen := rfl
@[simp] theorem setAlpha_alphaLen (bs : List Byte) (s : State) :
    (setAlpha bs s).alphaLen = BitVec.ofNat 9 bs.length := rfl
@[simp] theorem setAlpha_topoBits (bs : List Byte) (s : State) :
    (setAlpha bs s).topoBits = s.topoBits := rfl
@[simp] theorem setAlpha_payBits (bs : List Byte) (s : State) :
    (setAlpha bs s).payBits = s.payBits := rfl
@[simp] theorem setAlpha_root (bs : List Byte) (s : State) : (setAlpha bs s).root = s.root := rfl
@[simp] theorem setAlpha_nodeCnt (bs : List Byte) (s : State) :
    (setAlpha bs s).nodeCnt = s.nodeCnt := rfl
@[simp] theorem setAlpha_nsym (bs : List Byte) (s : State) : (setAlpha bs s).nsym = s.nsym := rfl
@[simp] theorem setAlpha_freq (bs : List Byte) (s : State) : (setAlpha bs s).freq = s.freq := rfl
@[simp] theorem setAlpha_nodes (bs : List Byte) (s : State) : (setAlpha bs s).nodes = s.nodes := rfl
@[simp] theorem setAlpha_code (bs : List Byte) (s : State) : (setAlpha bs s).code = s.code := rfl
@[simp] theorem setAlpha_inMem (bs : List Byte) (s : State) : (setAlpha bs s).inMem = s.inMem := rfl
@[simp] theorem setAlpha_outMem (bs : List Byte) (s : State) :
    (setAlpha bs s).outMem = s.outMem := rfl
@[simp] theorem setAlpha_payMem (bs : List Byte) (s : State) :
    (setAlpha bs s).payMem = s.payMem := rfl
@[simp] theorem setAlpha_alphaMem (bs : List Byte) (s : State) :
    (setAlpha bs s).alphaMem = memLoad bs s.free := rfl
@[simp] theorem setAlpha_topoMem (bs : List Byte) (s : State) :
    (setAlpha bs s).topoMem = s.topoMem := rfl
@[simp] theorem setAlpha_agenda (bs : List Byte) (s : State) :
    (setAlpha bs s).agenda = s.agenda := rfl
@[simp] theorem setAlpha_hostData (bs : List Byte) (s : State) :
    (setAlpha bs s).hostData = s.hostData := rfl
@[simp] theorem setAlpha_free (bs : List Byte) (s : State) :
    (setAlpha bs s).free = s.free + 1 := rfl

/-! ### setTopo -/

@[simp] theorem setTopo_fsm (bs : List Byte) (n : Nat) (s : State) :
    (setTopo bs n s).fsm = s.fsm := rfl
@[simp] theorem setTopo_fromFaulted (bs : List Byte) (n : Nat) (s : State) :
    (setTopo bs n s).fromFaulted = s.fromFaulted := rfl
@[simp] theorem setTopo_pending (bs : List Byte) (n : Nat) (s : State) :
    (setTopo bs n s).pending = s.pending := rfl
@[simp] theorem setTopo_doneFlag (bs : List Byte) (n : Nat) (s : State) :
    (setTopo bs n s).doneFlag = s.doneFlag := rfl
@[simp] theorem setTopo_stage (bs : List Byte) (n : Nat) (s : State) :
    (setTopo bs n s).stage = s.stage := rfl
@[simp] theorem setTopo_errCode (bs : List Byte) (n : Nat) (s : State) :
    (setTopo bs n s).errCode = s.errCode := rfl
@[simp] theorem setTopo_errInfo (bs : List Byte) (n : Nat) (s : State) :
    (setTopo bs n s).errInfo = s.errInfo := rfl
@[simp] theorem setTopo_inLen (bs : List Byte) (n : Nat) (s : State) :
    (setTopo bs n s).inLen = s.inLen := rfl
@[simp] theorem setTopo_outLen (bs : List Byte) (n : Nat) (s : State) :
    (setTopo bs n s).outLen = s.outLen := rfl
@[simp] theorem setTopo_alphaLen (bs : List Byte) (n : Nat) (s : State) :
    (setTopo bs n s).alphaLen = s.alphaLen := rfl
@[simp] theorem setTopo_topoBits (bs : List Byte) (n : Nat) (s : State) :
    (setTopo bs n s).topoBits = BitVec.ofNat 10 n := rfl
@[simp] theorem setTopo_payBits (bs : List Byte) (n : Nat) (s : State) :
    (setTopo bs n s).payBits = s.payBits := rfl
@[simp] theorem setTopo_root (bs : List Byte) (n : Nat) (s : State) :
    (setTopo bs n s).root = s.root := rfl
@[simp] theorem setTopo_nodeCnt (bs : List Byte) (n : Nat) (s : State) :
    (setTopo bs n s).nodeCnt = s.nodeCnt := rfl
@[simp] theorem setTopo_nsym (bs : List Byte) (n : Nat) (s : State) :
    (setTopo bs n s).nsym = s.nsym := rfl
@[simp] theorem setTopo_freq (bs : List Byte) (n : Nat) (s : State) :
    (setTopo bs n s).freq = s.freq := rfl
@[simp] theorem setTopo_nodes (bs : List Byte) (n : Nat) (s : State) :
    (setTopo bs n s).nodes = s.nodes := rfl
@[simp] theorem setTopo_code (bs : List Byte) (n : Nat) (s : State) :
    (setTopo bs n s).code = s.code := rfl
@[simp] theorem setTopo_inMem (bs : List Byte) (n : Nat) (s : State) :
    (setTopo bs n s).inMem = s.inMem := rfl
@[simp] theorem setTopo_outMem (bs : List Byte) (n : Nat) (s : State) :
    (setTopo bs n s).outMem = s.outMem := rfl
@[simp] theorem setTopo_payMem (bs : List Byte) (n : Nat) (s : State) :
    (setTopo bs n s).payMem = s.payMem := rfl
@[simp] theorem setTopo_alphaMem (bs : List Byte) (n : Nat) (s : State) :
    (setTopo bs n s).alphaMem = s.alphaMem := rfl
@[simp] theorem setTopo_topoMem (bs : List Byte) (n : Nat) (s : State) :
    (setTopo bs n s).topoMem = memLoad bs s.free := rfl
@[simp] theorem setTopo_agenda (bs : List Byte) (n : Nat) (s : State) :
    (setTopo bs n s).agenda = s.agenda := rfl
@[simp] theorem setTopo_hostData (bs : List Byte) (n : Nat) (s : State) :
    (setTopo bs n s).hostData = s.hostData := rfl
@[simp] theorem setTopo_free (bs : List Byte) (n : Nat) (s : State) :
    (setTopo bs n s).free = s.free + 1 := rfl

/-! ### setPay -/

@[simp] theorem setPay_fsm (bs : List Byte) (n : Nat) (s : State) :
    (setPay bs n s).fsm = s.fsm := rfl
@[simp] theorem setPay_fromFaulted (bs : List Byte) (n : Nat) (s : State) :
    (setPay bs n s).fromFaulted = s.fromFaulted := rfl
@[simp] theorem setPay_pending (bs : List Byte) (n : Nat) (s : State) :
    (setPay bs n s).pending = s.pending := rfl
@[simp] theorem setPay_doneFlag (bs : List Byte) (n : Nat) (s : State) :
    (setPay bs n s).doneFlag = s.doneFlag := rfl
@[simp] theorem setPay_stage (bs : List Byte) (n : Nat) (s : State) :
    (setPay bs n s).stage = s.stage := rfl
@[simp] theorem setPay_errCode (bs : List Byte) (n : Nat) (s : State) :
    (setPay bs n s).errCode = s.errCode := rfl
@[simp] theorem setPay_errInfo (bs : List Byte) (n : Nat) (s : State) :
    (setPay bs n s).errInfo = s.errInfo := rfl
@[simp] theorem setPay_inLen (bs : List Byte) (n : Nat) (s : State) :
    (setPay bs n s).inLen = s.inLen := rfl
@[simp] theorem setPay_outLen (bs : List Byte) (n : Nat) (s : State) :
    (setPay bs n s).outLen = s.outLen := rfl
@[simp] theorem setPay_alphaLen (bs : List Byte) (n : Nat) (s : State) :
    (setPay bs n s).alphaLen = s.alphaLen := rfl
@[simp] theorem setPay_topoBits (bs : List Byte) (n : Nat) (s : State) :
    (setPay bs n s).topoBits = s.topoBits := rfl
@[simp] theorem setPay_payBits (bs : List Byte) (n : Nat) (s : State) :
    (setPay bs n s).payBits = BitVec.ofNat 32 n := rfl
@[simp] theorem setPay_root (bs : List Byte) (n : Nat) (s : State) :
    (setPay bs n s).root = s.root := rfl
@[simp] theorem setPay_nodeCnt (bs : List Byte) (n : Nat) (s : State) :
    (setPay bs n s).nodeCnt = s.nodeCnt := rfl
@[simp] theorem setPay_nsym (bs : List Byte) (n : Nat) (s : State) :
    (setPay bs n s).nsym = s.nsym := rfl
@[simp] theorem setPay_freq (bs : List Byte) (n : Nat) (s : State) :
    (setPay bs n s).freq = s.freq := rfl
@[simp] theorem setPay_nodes (bs : List Byte) (n : Nat) (s : State) :
    (setPay bs n s).nodes = s.nodes := rfl
@[simp] theorem setPay_code (bs : List Byte) (n : Nat) (s : State) :
    (setPay bs n s).code = s.code := rfl
@[simp] theorem setPay_inMem (bs : List Byte) (n : Nat) (s : State) :
    (setPay bs n s).inMem = s.inMem := rfl
@[simp] theorem setPay_outMem (bs : List Byte) (n : Nat) (s : State) :
    (setPay bs n s).outMem = s.outMem := rfl
@[simp] theorem setPay_payMem (bs : List Byte) (n : Nat) (s : State) :
    (setPay bs n s).payMem = memLoad bs s.free := rfl
@[simp] theorem setPay_alphaMem (bs : List Byte) (n : Nat) (s : State) :
    (setPay bs n s).alphaMem = s.alphaMem := rfl
@[simp] theorem setPay_topoMem (bs : List Byte) (n : Nat) (s : State) :
    (setPay bs n s).topoMem = s.topoMem := rfl
@[simp] theorem setPay_agenda (bs : List Byte) (n : Nat) (s : State) :
    (setPay bs n s).agenda = s.agenda := rfl
@[simp] theorem setPay_hostData (bs : List Byte) (n : Nat) (s : State) :
    (setPay bs n s).hostData = s.hostData := rfl
@[simp] theorem setPay_free (bs : List Byte) (n : Nat) (s : State) :
    (setPay bs n s).free = s.free + 1 := rfl

/-! ### setTree -/

@[simp] theorem setTree_fsm (ns : List Node) (r k : Nat) (s : State) :
    (setTree ns r k s).fsm = s.fsm := rfl
@[simp] theorem setTree_fromFaulted (ns : List Node) (r k : Nat) (s : State) :
    (setTree ns r k s).fromFaulted = s.fromFaulted := rfl
@[simp] theorem setTree_pending (ns : List Node) (r k : Nat) (s : State) :
    (setTree ns r k s).pending = s.pending := rfl
@[simp] theorem setTree_doneFlag (ns : List Node) (r k : Nat) (s : State) :
    (setTree ns r k s).doneFlag = s.doneFlag := rfl
@[simp] theorem setTree_stage (ns : List Node) (r k : Nat) (s : State) :
    (setTree ns r k s).stage = s.stage := rfl
@[simp] theorem setTree_errCode (ns : List Node) (r k : Nat) (s : State) :
    (setTree ns r k s).errCode = s.errCode := rfl
@[simp] theorem setTree_errInfo (ns : List Node) (r k : Nat) (s : State) :
    (setTree ns r k s).errInfo = s.errInfo := rfl
@[simp] theorem setTree_inLen (ns : List Node) (r k : Nat) (s : State) :
    (setTree ns r k s).inLen = s.inLen := rfl
@[simp] theorem setTree_outLen (ns : List Node) (r k : Nat) (s : State) :
    (setTree ns r k s).outLen = s.outLen := rfl
@[simp] theorem setTree_alphaLen (ns : List Node) (r k : Nat) (s : State) :
    (setTree ns r k s).alphaLen = s.alphaLen := rfl
@[simp] theorem setTree_topoBits (ns : List Node) (r k : Nat) (s : State) :
    (setTree ns r k s).topoBits = s.topoBits := rfl
@[simp] theorem setTree_payBits (ns : List Node) (r k : Nat) (s : State) :
    (setTree ns r k s).payBits = s.payBits := rfl
@[simp] theorem setTree_root (ns : List Node) (r k : Nat) (s : State) :
    (setTree ns r k s).root = BitVec.ofNat 9 r := rfl
@[simp] theorem setTree_nodeCnt (ns : List Node) (r k : Nat) (s : State) :
    (setTree ns r k s).nodeCnt = BitVec.ofNat 10 ns.length := rfl
@[simp] theorem setTree_nsym (ns : List Node) (r k : Nat) (s : State) :
    (setTree ns r k s).nsym = BitVec.ofNat 9 k := rfl
@[simp] theorem setTree_freq (ns : List Node) (r k : Nat) (s : State) :
    (setTree ns r k s).freq = s.freq := rfl
@[simp] theorem setTree_nodes (ns : List Node) (r k : Nat) (s : State) :
    (setTree ns r k s).nodes = { entries := ns, epoch := s.free } := rfl
@[simp] theorem setTree_code (ns : List Node) (r k : Nat) (s : State) :
    (setTree ns r k s).code = s.code := rfl
@[simp] theorem setTree_inMem (ns : List Node) (r k : Nat) (s : State) :
    (setTree ns r k s).inMem = s.inMem := rfl
@[simp] theorem setTree_outMem (ns : List Node) (r k : Nat) (s : State) :
    (setTree ns r k s).outMem = s.outMem := rfl
@[simp] theorem setTree_payMem (ns : List Node) (r k : Nat) (s : State) :
    (setTree ns r k s).payMem = s.payMem := rfl
@[simp] theorem setTree_alphaMem (ns : List Node) (r k : Nat) (s : State) :
    (setTree ns r k s).alphaMem = s.alphaMem := rfl
@[simp] theorem setTree_topoMem (ns : List Node) (r k : Nat) (s : State) :
    (setTree ns r k s).topoMem = s.topoMem := rfl
@[simp] theorem setTree_agenda (ns : List Node) (r k : Nat) (s : State) :
    (setTree ns r k s).agenda = s.agenda := rfl
@[simp] theorem setTree_hostData (ns : List Node) (r k : Nat) (s : State) :
    (setTree ns r k s).hostData = s.hostData := rfl
@[simp] theorem setTree_free (ns : List Node) (r k : Nat) (s : State) :
    (setTree ns r k s).free = s.free + 1 := rfl

/-! ### dropOut -/

@[simp] theorem dropOut_fsm (s : State) : (dropOut s).fsm = s.fsm := rfl
@[simp] theorem dropOut_fromFaulted (s : State) : (dropOut s).fromFaulted = s.fromFaulted := rfl
@[simp] theorem dropOut_pending (s : State) : (dropOut s).pending = s.pending := rfl
@[simp] theorem dropOut_doneFlag (s : State) : (dropOut s).doneFlag = s.doneFlag := rfl
@[simp] theorem dropOut_stage (s : State) : (dropOut s).stage = s.stage := rfl
@[simp] theorem dropOut_errCode (s : State) : (dropOut s).errCode = s.errCode := rfl
@[simp] theorem dropOut_errInfo (s : State) : (dropOut s).errInfo = s.errInfo := rfl
@[simp] theorem dropOut_inLen (s : State) : (dropOut s).inLen = s.inLen := rfl
@[simp] theorem dropOut_outLen (s : State) : (dropOut s).outLen = 0 := rfl
@[simp] theorem dropOut_alphaLen (s : State) : (dropOut s).alphaLen = s.alphaLen := rfl
@[simp] theorem dropOut_topoBits (s : State) : (dropOut s).topoBits = s.topoBits := rfl
@[simp] theorem dropOut_payBits (s : State) : (dropOut s).payBits = s.payBits := rfl
@[simp] theorem dropOut_root (s : State) : (dropOut s).root = s.root := rfl
@[simp] theorem dropOut_nodeCnt (s : State) : (dropOut s).nodeCnt = s.nodeCnt := rfl
@[simp] theorem dropOut_nsym (s : State) : (dropOut s).nsym = s.nsym := rfl
@[simp] theorem dropOut_freq (s : State) : (dropOut s).freq = s.freq := rfl
@[simp] theorem dropOut_nodes (s : State) : (dropOut s).nodes = s.nodes := rfl
@[simp] theorem dropOut_code (s : State) : (dropOut s).code = s.code := rfl
@[simp] theorem dropOut_inMem (s : State) : (dropOut s).inMem = s.inMem := rfl
@[simp] theorem dropOut_outMem (s : State) : (dropOut s).outMem = memLoad [] s.free := rfl
@[simp] theorem dropOut_payMem (s : State) : (dropOut s).payMem = s.payMem := rfl
@[simp] theorem dropOut_alphaMem (s : State) : (dropOut s).alphaMem = s.alphaMem := rfl
@[simp] theorem dropOut_topoMem (s : State) : (dropOut s).topoMem = s.topoMem := rfl
@[simp] theorem dropOut_agenda (s : State) : (dropOut s).agenda = s.agenda := rfl
@[simp] theorem dropOut_hostData (s : State) : (dropOut s).hostData = s.hostData := rfl
@[simp] theorem dropOut_free (s : State) : (dropOut s).free = s.free + 1 := rfl

/-! ### dropAlpha -/

@[simp] theorem dropAlpha_fsm (s : State) : (dropAlpha s).fsm = s.fsm := rfl
@[simp] theorem dropAlpha_fromFaulted (s : State) : (dropAlpha s).fromFaulted = s.fromFaulted := rfl
@[simp] theorem dropAlpha_pending (s : State) : (dropAlpha s).pending = s.pending := rfl
@[simp] theorem dropAlpha_doneFlag (s : State) : (dropAlpha s).doneFlag = s.doneFlag := rfl
@[simp] theorem dropAlpha_stage (s : State) : (dropAlpha s).stage = s.stage := rfl
@[simp] theorem dropAlpha_errCode (s : State) : (dropAlpha s).errCode = s.errCode := rfl
@[simp] theorem dropAlpha_errInfo (s : State) : (dropAlpha s).errInfo = s.errInfo := rfl
@[simp] theorem dropAlpha_inLen (s : State) : (dropAlpha s).inLen = s.inLen := rfl
@[simp] theorem dropAlpha_outLen (s : State) : (dropAlpha s).outLen = s.outLen := rfl
@[simp] theorem dropAlpha_alphaLen (s : State) : (dropAlpha s).alphaLen = 0 := rfl
@[simp] theorem dropAlpha_topoBits (s : State) : (dropAlpha s).topoBits = s.topoBits := rfl
@[simp] theorem dropAlpha_payBits (s : State) : (dropAlpha s).payBits = s.payBits := rfl
@[simp] theorem dropAlpha_root (s : State) : (dropAlpha s).root = s.root := rfl
@[simp] theorem dropAlpha_nodeCnt (s : State) : (dropAlpha s).nodeCnt = s.nodeCnt := rfl
@[simp] theorem dropAlpha_nsym (s : State) : (dropAlpha s).nsym = s.nsym := rfl
@[simp] theorem dropAlpha_freq (s : State) : (dropAlpha s).freq = s.freq := rfl
@[simp] theorem dropAlpha_nodes (s : State) : (dropAlpha s).nodes = s.nodes := rfl
@[simp] theorem dropAlpha_code (s : State) : (dropAlpha s).code = s.code := rfl
@[simp] theorem dropAlpha_inMem (s : State) : (dropAlpha s).inMem = s.inMem := rfl
@[simp] theorem dropAlpha_outMem (s : State) : (dropAlpha s).outMem = s.outMem := rfl
@[simp] theorem dropAlpha_payMem (s : State) : (dropAlpha s).payMem = s.payMem := rfl
@[simp] theorem dropAlpha_alphaMem (s : State) : (dropAlpha s).alphaMem = memLoad [] s.free := rfl
@[simp] theorem dropAlpha_topoMem (s : State) : (dropAlpha s).topoMem = s.topoMem := rfl
@[simp] theorem dropAlpha_agenda (s : State) : (dropAlpha s).agenda = s.agenda := rfl
@[simp] theorem dropAlpha_hostData (s : State) : (dropAlpha s).hostData = s.hostData := rfl
@[simp] theorem dropAlpha_free (s : State) : (dropAlpha s).free = s.free + 1 := rfl

/-! ### dropTopo -/

@[simp] theorem dropTopo_fsm (s : State) : (dropTopo s).fsm = s.fsm := rfl
@[simp] theorem dropTopo_fromFaulted (s : State) : (dropTopo s).fromFaulted = s.fromFaulted := rfl
@[simp] theorem dropTopo_pending (s : State) : (dropTopo s).pending = s.pending := rfl
@[simp] theorem dropTopo_doneFlag (s : State) : (dropTopo s).doneFlag = s.doneFlag := rfl
@[simp] theorem dropTopo_stage (s : State) : (dropTopo s).stage = s.stage := rfl
@[simp] theorem dropTopo_errCode (s : State) : (dropTopo s).errCode = s.errCode := rfl
@[simp] theorem dropTopo_errInfo (s : State) : (dropTopo s).errInfo = s.errInfo := rfl
@[simp] theorem dropTopo_inLen (s : State) : (dropTopo s).inLen = s.inLen := rfl
@[simp] theorem dropTopo_outLen (s : State) : (dropTopo s).outLen = s.outLen := rfl
@[simp] theorem dropTopo_alphaLen (s : State) : (dropTopo s).alphaLen = s.alphaLen := rfl
@[simp] theorem dropTopo_topoBits (s : State) : (dropTopo s).topoBits = 0 := rfl
@[simp] theorem dropTopo_payBits (s : State) : (dropTopo s).payBits = s.payBits := rfl
@[simp] theorem dropTopo_root (s : State) : (dropTopo s).root = s.root := rfl
@[simp] theorem dropTopo_nodeCnt (s : State) : (dropTopo s).nodeCnt = s.nodeCnt := rfl
@[simp] theorem dropTopo_nsym (s : State) : (dropTopo s).nsym = s.nsym := rfl
@[simp] theorem dropTopo_freq (s : State) : (dropTopo s).freq = s.freq := rfl
@[simp] theorem dropTopo_nodes (s : State) : (dropTopo s).nodes = s.nodes := rfl
@[simp] theorem dropTopo_code (s : State) : (dropTopo s).code = s.code := rfl
@[simp] theorem dropTopo_inMem (s : State) : (dropTopo s).inMem = s.inMem := rfl
@[simp] theorem dropTopo_outMem (s : State) : (dropTopo s).outMem = s.outMem := rfl
@[simp] theorem dropTopo_payMem (s : State) : (dropTopo s).payMem = s.payMem := rfl
@[simp] theorem dropTopo_alphaMem (s : State) : (dropTopo s).alphaMem = s.alphaMem := rfl
@[simp] theorem dropTopo_topoMem (s : State) : (dropTopo s).topoMem = memLoad [] s.free := rfl
@[simp] theorem dropTopo_agenda (s : State) : (dropTopo s).agenda = s.agenda := rfl
@[simp] theorem dropTopo_hostData (s : State) : (dropTopo s).hostData = s.hostData := rfl
@[simp] theorem dropTopo_free (s : State) : (dropTopo s).free = s.free + 1 := rfl

/-! ### dropPay -/

@[simp] theorem dropPay_fsm (s : State) : (dropPay s).fsm = s.fsm := rfl
@[simp] theorem dropPay_fromFaulted (s : State) : (dropPay s).fromFaulted = s.fromFaulted := rfl
@[simp] theorem dropPay_pending (s : State) : (dropPay s).pending = s.pending := rfl
@[simp] theorem dropPay_doneFlag (s : State) : (dropPay s).doneFlag = s.doneFlag := rfl
@[simp] theorem dropPay_stage (s : State) : (dropPay s).stage = s.stage := rfl
@[simp] theorem dropPay_errCode (s : State) : (dropPay s).errCode = s.errCode := rfl
@[simp] theorem dropPay_errInfo (s : State) : (dropPay s).errInfo = s.errInfo := rfl
@[simp] theorem dropPay_inLen (s : State) : (dropPay s).inLen = s.inLen := rfl
@[simp] theorem dropPay_outLen (s : State) : (dropPay s).outLen = s.outLen := rfl
@[simp] theorem dropPay_alphaLen (s : State) : (dropPay s).alphaLen = s.alphaLen := rfl
@[simp] theorem dropPay_topoBits (s : State) : (dropPay s).topoBits = s.topoBits := rfl
@[simp] theorem dropPay_payBits (s : State) : (dropPay s).payBits = 0 := rfl
@[simp] theorem dropPay_root (s : State) : (dropPay s).root = s.root := rfl
@[simp] theorem dropPay_nodeCnt (s : State) : (dropPay s).nodeCnt = s.nodeCnt := rfl
@[simp] theorem dropPay_nsym (s : State) : (dropPay s).nsym = s.nsym := rfl
@[simp] theorem dropPay_freq (s : State) : (dropPay s).freq = s.freq := rfl
@[simp] theorem dropPay_nodes (s : State) : (dropPay s).nodes = s.nodes := rfl
@[simp] theorem dropPay_code (s : State) : (dropPay s).code = s.code := rfl
@[simp] theorem dropPay_inMem (s : State) : (dropPay s).inMem = s.inMem := rfl
@[simp] theorem dropPay_outMem (s : State) : (dropPay s).outMem = s.outMem := rfl
@[simp] theorem dropPay_payMem (s : State) : (dropPay s).payMem = memLoad [] s.free := rfl
@[simp] theorem dropPay_alphaMem (s : State) : (dropPay s).alphaMem = s.alphaMem := rfl
@[simp] theorem dropPay_topoMem (s : State) : (dropPay s).topoMem = s.topoMem := rfl
@[simp] theorem dropPay_agenda (s : State) : (dropPay s).agenda = s.agenda := rfl
@[simp] theorem dropPay_hostData (s : State) : (dropPay s).hostData = s.hostData := rfl
@[simp] theorem dropPay_free (s : State) : (dropPay s).free = s.free + 1 := rfl

/-! ### dropTree -/

@[simp] theorem dropTree_fsm (s : State) : (dropTree s).fsm = s.fsm := rfl
@[simp] theorem dropTree_fromFaulted (s : State) : (dropTree s).fromFaulted = s.fromFaulted := rfl
@[simp] theorem dropTree_pending (s : State) : (dropTree s).pending = s.pending := rfl
@[simp] theorem dropTree_doneFlag (s : State) : (dropTree s).doneFlag = s.doneFlag := rfl
@[simp] theorem dropTree_stage (s : State) : (dropTree s).stage = s.stage := rfl
@[simp] theorem dropTree_errCode (s : State) : (dropTree s).errCode = s.errCode := rfl
@[simp] theorem dropTree_errInfo (s : State) : (dropTree s).errInfo = s.errInfo := rfl
@[simp] theorem dropTree_inLen (s : State) : (dropTree s).inLen = s.inLen := rfl
@[simp] theorem dropTree_outLen (s : State) : (dropTree s).outLen = s.outLen := rfl
@[simp] theorem dropTree_alphaLen (s : State) : (dropTree s).alphaLen = s.alphaLen := rfl
@[simp] theorem dropTree_topoBits (s : State) : (dropTree s).topoBits = s.topoBits := rfl
@[simp] theorem dropTree_payBits (s : State) : (dropTree s).payBits = s.payBits := rfl
@[simp] theorem dropTree_root (s : State) : (dropTree s).root = Config.nil := rfl
@[simp] theorem dropTree_nodeCnt (s : State) : (dropTree s).nodeCnt = 0 := rfl
@[simp] theorem dropTree_nsym (s : State) : (dropTree s).nsym = 0 := rfl
@[simp] theorem dropTree_freq (s : State) : (dropTree s).freq = s.freq := rfl
@[simp] theorem dropTree_nodes (s : State) : (dropTree s).nodes = Arena.unknown s.free := rfl
@[simp] theorem dropTree_code (s : State) : (dropTree s).code = s.code := rfl
@[simp] theorem dropTree_inMem (s : State) : (dropTree s).inMem = s.inMem := rfl
@[simp] theorem dropTree_outMem (s : State) : (dropTree s).outMem = s.outMem := rfl
@[simp] theorem dropTree_payMem (s : State) : (dropTree s).payMem = s.payMem := rfl
@[simp] theorem dropTree_alphaMem (s : State) : (dropTree s).alphaMem = s.alphaMem := rfl
@[simp] theorem dropTree_topoMem (s : State) : (dropTree s).topoMem = s.topoMem := rfl
@[simp] theorem dropTree_agenda (s : State) : (dropTree s).agenda = s.agenda := rfl
@[simp] theorem dropTree_hostData (s : State) : (dropTree s).hostData = s.hostData := rfl
@[simp] theorem dropTree_free (s : State) : (dropTree s).free = s.free + 1 := rfl

/-! ### clearAll -/

@[simp] theorem clearAll_fsm (s : State) : (clearAll s).fsm = s.fsm := rfl
@[simp] theorem clearAll_fromFaulted (s : State) : (clearAll s).fromFaulted = s.fromFaulted := rfl
@[simp] theorem clearAll_pending (s : State) : (clearAll s).pending = s.pending := rfl
@[simp] theorem clearAll_doneFlag (s : State) : (clearAll s).doneFlag = s.doneFlag := rfl
@[simp] theorem clearAll_stage (s : State) : (clearAll s).stage = 0 := rfl
@[simp] theorem clearAll_errCode (s : State) : (clearAll s).errCode = 0 := rfl
@[simp] theorem clearAll_errInfo (s : State) : (clearAll s).errInfo = 0 := rfl
@[simp] theorem clearAll_inLen (s : State) : (clearAll s).inLen = 0 := rfl
@[simp] theorem clearAll_outLen (s : State) : (clearAll s).outLen = 0 := rfl
@[simp] theorem clearAll_alphaLen (s : State) : (clearAll s).alphaLen = 0 := rfl
@[simp] theorem clearAll_topoBits (s : State) : (clearAll s).topoBits = 0 := rfl
@[simp] theorem clearAll_payBits (s : State) : (clearAll s).payBits = 0 := rfl
@[simp] theorem clearAll_root (s : State) : (clearAll s).root = Config.nil := rfl
@[simp] theorem clearAll_nodeCnt (s : State) : (clearAll s).nodeCnt = 0 := rfl
@[simp] theorem clearAll_nsym (s : State) : (clearAll s).nsym = 0 := rfl
@[simp] theorem clearAll_freq (s : State) : (clearAll s).freq = Vector.replicate 256 0 := rfl
@[simp] theorem clearAll_nodes (s : State) : (clearAll s).nodes = Arena.unknown (s.free + 4) := rfl
@[simp] theorem clearAll_code (s : State) : (clearAll s).code = Vector.replicate 256 none := rfl
@[simp] theorem clearAll_inMem (s : State) : (clearAll s).inMem = s.inMem := rfl
@[simp] theorem clearAll_outMem (s : State) : (clearAll s).outMem = Memory.unknown s.free := rfl
@[simp] theorem clearAll_payMem (s : State) :
    (clearAll s).payMem = Memory.unknown (s.free + 1) := rfl
@[simp] theorem clearAll_alphaMem (s : State) :
    (clearAll s).alphaMem = Memory.unknown (s.free + 2) := rfl
@[simp] theorem clearAll_topoMem (s : State) :
    (clearAll s).topoMem = Memory.unknown (s.free + 3) := rfl
@[simp] theorem clearAll_agenda (s : State) : (clearAll s).agenda = s.agenda := rfl
@[simp] theorem clearAll_hostData (s : State) : (clearAll s).hostData = s.hostData := rfl
@[simp] theorem clearAll_free (s : State) : (clearAll s).free = s.free + 5 := rfl

/-! ### completeOk -/

@[simp] theorem completeOk_fsm (c : Bool) (s : State) : (completeOk c s).fsm = .idle := rfl
@[simp] theorem completeOk_fromFaulted (c : Bool) (s : State) :
    (completeOk c s).fromFaulted = false := rfl
@[simp] theorem completeOk_pending (c : Bool) (s : State) :
    (completeOk c s).pending = s.pending := rfl
@[simp] theorem completeOk_doneFlag (c : Bool) (s : State) : (completeOk c s).doneFlag = !c := rfl
@[simp] theorem completeOk_stage (c : Bool) (s : State) : (completeOk c s).stage = s.stage := rfl
@[simp] theorem completeOk_errCode (c : Bool) (s : State) : (completeOk c s).errCode = 0 := rfl
@[simp] theorem completeOk_errInfo (c : Bool) (s : State) : (completeOk c s).errInfo = 0 := rfl
@[simp] theorem completeOk_inLen (c : Bool) (s : State) : (completeOk c s).inLen = s.inLen := rfl
@[simp] theorem completeOk_outLen (c : Bool) (s : State) : (completeOk c s).outLen = s.outLen := rfl
@[simp] theorem completeOk_alphaLen (c : Bool) (s : State) :
    (completeOk c s).alphaLen = s.alphaLen := rfl
@[simp] theorem completeOk_topoBits (c : Bool) (s : State) :
    (completeOk c s).topoBits = s.topoBits := rfl
@[simp] theorem completeOk_payBits (c : Bool) (s : State) :
    (completeOk c s).payBits = s.payBits := rfl
@[simp] theorem completeOk_root (c : Bool) (s : State) : (completeOk c s).root = s.root := rfl
@[simp] theorem completeOk_nodeCnt (c : Bool) (s : State) :
    (completeOk c s).nodeCnt = s.nodeCnt := rfl
@[simp] theorem completeOk_nsym (c : Bool) (s : State) : (completeOk c s).nsym = s.nsym := rfl
@[simp] theorem completeOk_freq (c : Bool) (s : State) : (completeOk c s).freq = s.freq := rfl
@[simp] theorem completeOk_nodes (c : Bool) (s : State) : (completeOk c s).nodes = s.nodes := rfl
@[simp] theorem completeOk_code (c : Bool) (s : State) : (completeOk c s).code = s.code := rfl
@[simp] theorem completeOk_inMem (c : Bool) (s : State) : (completeOk c s).inMem = s.inMem := rfl
@[simp] theorem completeOk_outMem (c : Bool) (s : State) : (completeOk c s).outMem = s.outMem := rfl
@[simp] theorem completeOk_payMem (c : Bool) (s : State) : (completeOk c s).payMem = s.payMem := rfl
@[simp] theorem completeOk_alphaMem (c : Bool) (s : State) :
    (completeOk c s).alphaMem = s.alphaMem := rfl
@[simp] theorem completeOk_topoMem (c : Bool) (s : State) :
    (completeOk c s).topoMem = s.topoMem := rfl
@[simp] theorem completeOk_agenda (c : Bool) (s : State) : (completeOk c s).agenda = s.agenda := rfl
@[simp] theorem completeOk_hostData (c : Bool) (s : State) :
    (completeOk c s).hostData = s.hostData := rfl
@[simp] theorem completeOk_free (c : Bool) (s : State) : (completeOk c s).free = s.free := rfl

/-! ### enterFault -/

@[simp] theorem enterFault_fsm (k : ErrKind) (w : Word) (s : State) :
    (enterFault k w s).fsm = .faulted := rfl
@[simp] theorem enterFault_fromFaulted (k : ErrKind) (w : Word) (s : State) :
    (enterFault k w s).fromFaulted = false := rfl
@[simp] theorem enterFault_pending (k : ErrKind) (w : Word) (s : State) :
    (enterFault k w s).pending = s.pending := rfl
@[simp] theorem enterFault_doneFlag (k : ErrKind) (w : Word) (s : State) :
    (enterFault k w s).doneFlag = false := rfl
@[simp] theorem enterFault_stage (k : ErrKind) (w : Word) (s : State) :
    (enterFault k w s).stage = s.stage := rfl
@[simp] theorem enterFault_errCode (k : ErrKind) (w : Word) (s : State) :
    (enterFault k w s).errCode = errCodeOf k := rfl
@[simp] theorem enterFault_errInfo (k : ErrKind) (w : Word) (s : State) :
    (enterFault k w s).errInfo = w := rfl
@[simp] theorem enterFault_inLen (k : ErrKind) (w : Word) (s : State) :
    (enterFault k w s).inLen = s.inLen := rfl
@[simp] theorem enterFault_outLen (k : ErrKind) (w : Word) (s : State) :
    (enterFault k w s).outLen = s.outLen := rfl
@[simp] theorem enterFault_alphaLen (k : ErrKind) (w : Word) (s : State) :
    (enterFault k w s).alphaLen = s.alphaLen := rfl
@[simp] theorem enterFault_topoBits (k : ErrKind) (w : Word) (s : State) :
    (enterFault k w s).topoBits = s.topoBits := rfl
@[simp] theorem enterFault_payBits (k : ErrKind) (w : Word) (s : State) :
    (enterFault k w s).payBits = s.payBits := rfl
@[simp] theorem enterFault_root (k : ErrKind) (w : Word) (s : State) :
    (enterFault k w s).root = s.root := rfl
@[simp] theorem enterFault_nodeCnt (k : ErrKind) (w : Word) (s : State) :
    (enterFault k w s).nodeCnt = s.nodeCnt := rfl
@[simp] theorem enterFault_nsym (k : ErrKind) (w : Word) (s : State) :
    (enterFault k w s).nsym = s.nsym := rfl
@[simp] theorem enterFault_freq (k : ErrKind) (w : Word) (s : State) :
    (enterFault k w s).freq = s.freq := rfl
@[simp] theorem enterFault_nodes (k : ErrKind) (w : Word) (s : State) :
    (enterFault k w s).nodes = s.nodes := rfl
@[simp] theorem enterFault_code (k : ErrKind) (w : Word) (s : State) :
    (enterFault k w s).code = s.code := rfl
@[simp] theorem enterFault_inMem (k : ErrKind) (w : Word) (s : State) :
    (enterFault k w s).inMem = s.inMem := rfl
@[simp] theorem enterFault_outMem (k : ErrKind) (w : Word) (s : State) :
    (enterFault k w s).outMem = s.outMem := rfl
@[simp] theorem enterFault_payMem (k : ErrKind) (w : Word) (s : State) :
    (enterFault k w s).payMem = s.payMem := rfl
@[simp] theorem enterFault_alphaMem (k : ErrKind) (w : Word) (s : State) :
    (enterFault k w s).alphaMem = s.alphaMem := rfl
@[simp] theorem enterFault_topoMem (k : ErrKind) (w : Word) (s : State) :
    (enterFault k w s).topoMem = s.topoMem := rfl
@[simp] theorem enterFault_agenda (k : ErrKind) (w : Word) (s : State) :
    (enterFault k w s).agenda = s.agenda := rfl
@[simp] theorem enterFault_hostData (k : ErrKind) (w : Word) (s : State) :
    (enterFault k w s).hostData = s.hostData := rfl
@[simp] theorem enterFault_free (k : ErrKind) (w : Word) (s : State) :
    (enterFault k w s).free = s.free := rfl

end Sys2Proof.Machine
end

