-- ==== Sys2Proof/Laws/Outcome.lean ====
section
/-! SUPPORT. Laws/Outcome.lean: how a stage ends, how a command completes, and everything one step can
do. -/

namespace Sys2Proof.Machine

/-! ### Sequencing -/

@[simp] theorem andThen_done (s : State) (f : State → Ran) : andThen (.done s) f = f s := rfl
@[simp] theorem andThen_raised (k : ErrKind) (i : Word) (s : State) (f : State → Ran) :
    andThen (.raised k i s) f = .raised k i s := rfl
@[simp] theorem andThen_halted (x : Fault) (f : State → Ran) : andThen (.halted x) f = .halted x := rfl
@[simp] theorem dropOutOnRaise_done (s : State) : dropOutOnRaise (.done s) = .done s := rfl
@[simp] theorem dropOutOnRaise_raised (k : ErrKind) (i : Word) (s : State) :
    dropOutOnRaise (.raised k i s) = .raised k i (dropOut s) := rfl
@[simp] theorem dropOutOnRaise_halted (x : Fault) : dropOutOnRaise (.halted x) = .halted x := rfl
@[simp] theorem complete_done (c : Bool) (s : State) : complete c (.done s) = .next (completeOk c s) := rfl
@[simp] theorem complete_raised (c : Bool) (k : ErrKind) (i : Word) (s : State) :
    complete c (.raised k i s) = .next (enterFault k i s) := rfl
@[simp] theorem complete_halted (c : Bool) (x : Fault) : complete c (.halted x) = .fault x := rfl

/-- A completion that answers a next state is a completion without error or a fault entry. -/
theorem complete_eq_next {c : Bool} {r : Ran} {t : State} (h : complete c r = .next t) :
    (∃ s, r = .done s ∧ t = completeOk c s) ∨
      (∃ k i s, r = .raised k i s ∧ t = enterFault k i s) := by
  cases r with
  | done s => exact .inl ⟨s, rfl, by simpa using h.symm⟩
  | raised k i s => exact .inr ⟨k, i, s, rfl, by simpa using h.symm⟩
  | halted x => simp at h

/-- A stage after another ran to its end only if both did. -/
theorem andThen_eq_done {r : Ran} {f : State → Ran} {t : State} (h : andThen r f = .done t) :
    ∃ s, r = .done s ∧ f s = .done t := by
  cases r with
  | done s => exact ⟨s, rfl, h⟩
  | raised k i s => simp at h
  | halted x => simp at h

/-- A raise of two stages in order is the first's, or the second's on what the first left. -/
theorem andThen_eq_raised {r : Ran} {f : State → Ran} {k : ErrKind} {i : Word} {t : State}
    (h : andThen r f = .raised k i t) :
    r = .raised k i t ∨ ∃ s, r = .done s ∧ f s = .raised k i t := by
  cases r with
  | done s => exact .inr ⟨s, rfl, h⟩
  | raised k i s => exact .inl h
  | halted x => simp at h

/-! ### The rule behind each arm -/

/-- The rule of each command (30_encoding.md R81). -/
def ruleOf : Instr → State → Ran
  | .clr => runClr
  | .hist => runHist
  | .build => runBuild
  | .genc => runGenc
  | .tser => runTser
  | .enc => runEnc
  | .asm => runAsm
  | .parse => runParse
  | .tdes => runTdes
  | .dec => runDec
  | .comp => runComp
  | .decomp => runDecomp

/-- Every command is its rule, completed (49_control.md R222). -/
theorem exec_eq_complete (i : Instr) (s : State) : exec i s = complete (i == .clr) (ruleOf i s) := by
  cases i <;> rfl

/-- No command is refused. -/
theorem exec_ne_refused (i : Instr) (s : State) (r : Refusal) : exec i s ≠ .refused r := by
  rw [exec_eq_complete]
  cases ruleOf i s <;> simp [complete]

/-! ### One step -/

/-- What the block's turn can do: wait, or complete the command in `PENDING`. -/
theorem blockTurn_cases (s : State) :
    (s.fsm ≠ .busy ∧ blockTurn s = .next s) ∨
    (s.fsm = .busy ∧ ∃ i, decode s.pending = .ok i ∧ blockTurn s = exec i s) ∨
    (s.fsm = .busy ∧ (∃ e, decode s.pending = .error e) ∧ blockTurn s = .next (badCommand s)) := by
  unfold blockTurn completePending
  cases hf : s.fsm with
  | idle => exact .inl ⟨by simp, rfl⟩
  | faulted => exact .inl ⟨by simp, rfl⟩
  | busy =>
    cases hd : decode s.pending with
    | ok i => exact .inr (.inl ⟨rfl, i, rfl, rfl⟩)
    | error e => exact .inr (.inr ⟨rfl, ⟨e, rfl⟩, rfl⟩)

/-- Everything one step can do. `u` is the state with its agenda's first turn taken off. -/
theorem step_cases {s t : State} (h : step s = .next t) :
    ∃ u, (u = s ∧ s.agenda = [] ∨ ∃ x rest, s.agenda = x :: rest ∧ u = { s with agenda := rest }) ∧
      ((∃ a v, t = hostWrite a v u) ∨ (∃ a, t = hostRead a u) ∨ t = resetEvent u ∨
        (u.fsm ≠ .busy ∧ t = u) ∨
        (u.fsm = .busy ∧ ∃ i, decode u.pending = .ok i ∧ exec i u = .next t) ∨
        (u.fsm = .busy ∧ (∃ e, decode u.pending = .error e) ∧ t = badCommand u)) := by
  have block : ∀ u, blockTurn u = .next t →
      (u.fsm ≠ .busy ∧ t = u) ∨
        (u.fsm = .busy ∧ ∃ i, decode u.pending = .ok i ∧ exec i u = .next t) ∨
        (u.fsm = .busy ∧ (∃ e, decode u.pending = .error e) ∧ t = badCommand u) := by
    intro u hu
    rcases blockTurn_cases u with ⟨hf, hb⟩ | ⟨hf, i, hd, hb⟩ | ⟨hf, he, hb⟩
    · exact .inl ⟨hf, by simpa [hb] using hu.symm⟩
    · exact .inr (.inl ⟨hf, i, hd, by rw [← hb]; exact hu⟩)
    · exact .inr (.inr ⟨hf, he, by simpa [hb] using hu.symm⟩)
  unfold step advance at h
  cases ha : s.agenda with
  | nil =>
    rw [ha] at h
    exact ⟨s, .inl ⟨rfl, rfl⟩, .inr (.inr (.inr (block s h)))⟩
  | cons x rest =>
    rw [ha] at h
    refine ⟨{ s with agenda := rest }, .inr ⟨x, rest, rfl, rfl⟩, ?_⟩
    cases x with
    | write a v => exact .inl ⟨a, v, by simpa [takeTurn] using h.symm⟩
    | read a => exact .inr (.inl ⟨a, by simpa [takeTurn] using h.symm⟩)
    | block => exact .inr (.inr (.inr (block _ h)))
    | reset => exact .inr (.inr (.inl (by simpa [takeTurn] using h.symm)))

/-- A host read changes nothing but the host's data and the count of free values (20_memory.md R62). -/
theorem hostRead_frame (a : Word) (s : State) :
    ∃ v n, hostRead a s = { s with hostData := v, free := n } := by
  unfold hostRead giveUnspecified
  split
  · split <;> exact ⟨_, _, rfl⟩
  · split
    · exact ⟨_, _, rfl⟩
    · exact ⟨_, _, rfl⟩

/-- A host write changes nothing, or accepts a command, or writes `IN_LEN`, a byte of `IN_MEM` or a
counter of `FREQ` (20_memory.md R62, R73; 49_control.md R221). -/
theorem hostWrite_cases (a v : Word) (s : State) :
    hostWrite a v s = s ∨
    (s.fsm = .idle ∧
      hostWrite a v s = { s with pending := v, fsm := .busy, fromFaulted := false, doneFlag := false }) ∨
    (s.fsm = .faulted ∧ v = encode .clr ∧
      hostWrite a v s = { s with pending := v, fsm := .busy, fromFaulted := true, doneFlag := false }) ∨
    (s.fsm ≠ .busy ∧ v.toNat ≤ Config.bufCap ∧
      hostWrite a v s = { s with inLen := v.setWidth 29 }) ∨
    (s.fsm ≠ .busy ∧ ∃ o, o < Config.bufCap ∧
      hostWrite a v s = { s with inMem := memWrite s.inMem o (v.setWidth 8) }) ∨
    (s.fsm ≠ .busy ∧ ∃ o, ∃ h : o < 256, hostWrite a v s = { s with freq := s.freq.set o v h }) := by
  unfold hostWrite busyFlag
  by_cases hb : s.fsm = .busy
  · simp [hb]
  · have hb' : (s.fsm == Fsm.busy) = false := by simpa using hb
    simp only [hb', Bool.false_eq_true, if_false]
    split
    · unfold writeRegister acceptCommand
      split
      · cases hf : s.fsm with
        | idle => simp
        | busy => exact absurd hf hb
        | faulted => by_cases hv : v = encode .clr <;> simp [hv]
      · by_cases hv : v.toNat ≤ Config.bufCap <;> simp [hv, hb]
      · simp
    · unfold writeInMem
      by_cases ho : offsetOf a < Config.bufCap
      · exact .inr (.inr (.inr (.inr (.inl ⟨hb, _, ho, by simp [ho]⟩))))
      · simp [ho]
    · unfold writeFreq
      by_cases ho : offsetOf a < 256
      · exact .inr (.inr (.inr (.inr (.inr ⟨hb, _, ho, by simp [ho]⟩))))
      · simp [ho]
    · simp

end Sys2Proof.Machine
end

