-- ==== Sys2Proof/Laws/Stages.lean ====
section
/-! SUPPORT. Laws/Stages.lean: for each stage, once, everything its rule can do; and how a property every
stage keeps is kept by the flows. A prover cites these lemmas and unfolds no rule. -/

namespace Sys2Proof.Machine

/-! ### The stages -/

/-- HIST raises on an empty input only, and then counts every byte of the input (R100, R102). -/
theorem runHist_cases (s : State) :
    (s.inLen = 0 ∧ runHist s = .raised .emptyInput 0 (clearFreq (setStage .hist s))) ∨
    (s.inLen ≠ 0 ∧ runHist s = .done { setStage .hist s with freq := histogram (inBytes s) }) := by
  by_cases h : s.inLen = 0
  · exact .inl ⟨h, by simp [runHist, h]⟩
  · refine .inr ⟨h, ?_⟩
    have : s.inLen.toNat ≠ 0 := fun e => h (BitVec.eq_of_toNat_eq (by simpa using e))
    unfold runHist
    rw [if_neg (by simpa using this)]
    rfl

/-- BUILD raises with the tree invalid, or sets the tree (R116). -/
theorem runBuild_ends (s : State) :
    (∃ k info, (k = .emptyInput ∧ info = 0 ∨ k = .capacityExceeded ∧ info = 1) ∧
      runBuild s = .raised k info (dropTree (setStage .build s))) ∨
    (∃ leaf, leafNodes s.freq = [leaf] ∧
      runBuild s = .done (setTree [leaf, wrapperNode leaf] 1 1 (setStage .build s))) ∨
    (∃ arena, 2 ≤ (leafNodes s.freq).length ∧ mergeLeaves (leafNodes s.freq) = some arena ∧
      runBuild s = .done
        (setTree arena (arena.length - 1) (leafNodes s.freq).length (setStage .build s))) := by
  unfold runBuild
  dsimp only
  split
  · exact .inl ⟨_, _, .inl ⟨rfl, rfl⟩, rfl⟩
  · next leaf h => exact .inr (.inl ⟨leaf, h, rfl⟩)
  · next h0 h1 =>
    have h2 : 2 ≤ (leafNodes s.freq).length := by
      match hl : leafNodes s.freq, h0, h1 with
      | [], h0, _ => exact absurd rfl h0
      | [x], _, h1 => exact absurd rfl (h1 x)
      | _ :: _ :: _, _, _ => simp
    split
    · exact .inl ⟨_, _, .inr ⟨rfl, rfl⟩, rfl⟩
    · next arena h => exact .inr (.inr ⟨arena, h2, h, rfl⟩)

/-- GENC raises without a tree, records the tree's codes, or stops on entries that are no tree (R126). -/
theorem runGenc_cases (s : State) :
    (s.root = Config.nil ∧ runGenc s = .raised .notReady 0 (clearCode (setStage .genc s))) ∨
    (s.root ≠ Config.nil ∧ treeOf s = none ∧ runGenc s = .halted .notATree) ∨
    (s.root ≠ Config.nil ∧ ∃ x, treeOf s = some x ∧
      runGenc s = .done { clearCode (setStage .genc s) with code := codeTableOf x }) := by
  have hn : noTree (clearCode (setStage .genc s)) = (s.root == Config.nil) := rfl
  have ht : treeOf (clearCode (setStage .genc s)) = treeOf s := rfl
  unfold runGenc
  simp only [hn, ht]
  by_cases h : s.root = Config.nil
  · exact .inl ⟨h, by simp [h]⟩
  · cases hx : treeOf s with
    | none => exact .inr (.inl ⟨h, rfl, by simp [h]⟩)
    | some x => exact .inr (.inr ⟨h, x, rfl, by simp [h]⟩)

/-- TSER raises without a tree, writes the tree's topology and Alphabet, or stops on entries that are no
tree that fits (R136). -/
theorem runTser_cases (s : State) :
    (s.root = Config.nil ∧
      runTser s = .raised .notReady 0 (dropTopo (dropAlpha (setStage .tser s)))) ∨
    (s.root ≠ Config.nil ∧ (∀ x, treeOf s = some x → serialFits x = false) ∧
      runTser s = .halted .notATree) ∨
    (s.root ≠ Config.nil ∧ ∃ x, treeOf s = some x ∧ serialFits x = true ∧
      runTser s = .done (setAlpha (sideList x).reverse
        (setTopo (pack (emitTopology x)) (emitTopology x).length (setStage .tser s)))) := by
  have hn : noTree (setStage .tser s) = (s.root == Config.nil) := rfl
  have ht : treeOf (setStage .tser s) = treeOf s := rfl
  unfold runTser
  simp only [hn, ht]
  by_cases h : s.root = Config.nil
  · exact .inl ⟨h, by simp [h]⟩
  · cases hx : treeOf s with
    | none => exact .inr (.inl ⟨h, by simp, by simp [h]⟩)
    | some x =>
      by_cases hf : serialFits x = true
      · exact .inr (.inr ⟨h, x, rfl, hf, by simp [h, hf]⟩)
      · exact .inr (.inl ⟨h, by simpa using hf, by simp [h, hf]⟩)

/-- The bits of an encoding that does not raise fit the capacity (R177). -/
theorem encodeLoop_fits (cap : Nat) (code : Vector (Option BitSeq) 256) (i : Nat) (bs : List Byte)
    (sofar b : BitSeq) (h : encodeLoop cap code i bs sofar = .bits b) (h0 : sofar.length ≤ 8 * cap) :
    b.length ≤ 8 * cap := by
  induction bs generalizing i sofar with
  | nil =>
    simp only [encodeLoop, Encoded.bits.injEq] at h
    rw [← h]; exact h0
  | cons y ys ih =>
    rw [encodeLoop] at h
    split at h
    · simp at h
    · split at h
      · simp at h
      · next hc => exact ih _ _ h (by simp; omega)

/-- ENC raises with the payload invalid, or sets a payload that fits (R176). -/
theorem runEnc_cases (s : State) :
    (∃ k info, encodeLoop Config.bufCap s.code 0 (inBytes s) [] = .raise k info ∧
      runEnc s = .raised k info (dropPay (setStage .enc s))) ∨
    (∃ b, encodeLoop Config.bufCap s.code 0 (inBytes s) [] = .bits b ∧ b.length ≤ 8 * Config.bufCap ∧
      runEnc s = .done (setPay (pack b) b.length (setStage .enc s))) := by
  have he : encodeLoop Config.bufCap (setStage .enc s).code 0 (inBytes (setStage .enc s)) [] =
      encodeLoop Config.bufCap s.code 0 (inBytes s) [] := rfl
  unfold runEnc
  simp only [he]
  cases h : encodeLoop Config.bufCap s.code 0 (inBytes s) [] with
  | raise k info => exact .inl ⟨k, info, rfl, rfl⟩
  | bits b => exact .inr ⟨b, rfl, encodeLoop_fits _ _ _ _ _ _ h (by simp), rfl⟩

/-- ASM sets the container when it fits, and raises otherwise (R201). -/
theorem runAsm_cases (s : State) :
    (containerLen s.alphaLen.toNat s.topoBits.toNat s.payBits.toNat ≤ Config.bufCap ∧
      runAsm s = .done (setOut
        (containerBytes (s.alphaLen.setWidth 32) (s.topoBits.setWidth 32) s.payBits
          (alphaBytes s) (topoBytes s) (payBytes s)) (setStage .asm s))) ∨
    (Config.bufCap < containerLen s.alphaLen.toNat s.topoBits.toNat s.payBits.toNat ∧
      runAsm s = .raised .capacityExceeded 3 (dropOut (setStage .asm s))) := by
  by_cases h : containerLen s.alphaLen.toNat s.topoBits.toNat s.payBits.toNat ≤ Config.bufCap
  · refine .inl ⟨h, ?_⟩
    unfold runAsm
    rw [if_pos (by exact h)]
    rfl
  · refine .inr ⟨by omega, ?_⟩
    unfold runAsm
    rw [if_neg (by exact h)]

/-- PARSE raises `InvalidContainer` with the three lengths 0, or splits a container that passes the four
checks (R202). -/
theorem runParse_cases (s : State) :
    (∃ info, runParse s = .raised .invalidContainer info (dropParsed (setStage .parse s))) ∨
    (∃ a t p, a = (headerField s.inMem 0).toNat ∧ t = (headerField s.inMem 4).toNat ∧
      p = (headerField s.inMem 8).toNat ∧ a ≤ 256 ∧ t ≤ 511 ∧ containerLen a t p = s.inLen.toNat ∧
      runParse s = .done
        (setPay (clearPadding p (memSlice s.inMem (Config.hdrLen + a + ceil8 t) (ceil8 p))) p
          (setTopo (clearPadding t (memSlice s.inMem (Config.hdrLen + a) (ceil8 t))) t
            (setAlpha (memSlice s.inMem Config.hdrLen a) (setStage .parse s))))) := by
  unfold runParse
  dsimp only
  split
  · exact .inl ⟨_, rfl⟩
  · split
    · exact .inl ⟨_, rfl⟩
    · split
      · exact .inl ⟨_, rfl⟩
      · split
        · exact .inl ⟨_, rfl⟩
        · next h2 h3 h4 =>
          exact .inr ⟨_, _, _, rfl, rfl, rfl, Nat.le_of_not_lt h3, Nat.le_of_not_lt h4,
            Decidable.not_not.1 h2, rfl⟩

/-- TDES raises with the tree invalid, or sets the wrapper, or sets what the walk over the reversed
topology rebuilt with every bit used up (R146). -/
theorem runTdes_cases (s : State) :
    (∃ k info, runTdes s = .raised k info (dropTree (setStage .tdes s))) ∨
    (topoSeq s = wrapperTopology ∧ (topoSeq s).count true = s.alphaLen.toNat ∧
      runTdes s = .done
        (setTree [rebuiltInternal 1 Config.nil, rebuiltLeaf (memRead s.alphaMem 0)] 0 1
          (setStage .tdes s))) ∨
    (∃ b, topoSeq s ≠ wrapperTopology ∧ (topoSeq s).count true = s.alphaLen.toNat ∧
      rebuild s.alphaMem ((topoSeq s).length + 1) (topoSeq s).reverse 0 0 = some b ∧ b.rest = [] ∧
      runTdes s = .done (setTree b.entries 0 b.ai (setStage .tdes s))) := by
  have ht : topoSeq (setStage .tdes s) = topoSeq s := rfl
  unfold runTdes
  simp only [ht, setStage_alphaLen, setStage_alphaMem]
  split
  · exact .inl ⟨_, _, rfl⟩
  · next hc =>
    split
    · next hw => exact .inr (.inl ⟨hw, Decidable.not_not.1 hc, rfl⟩)
    · next hw =>
      split
      · exact .inl ⟨_, _, rfl⟩
      · next b hb =>
        split
        · next hr => exact .inr (.inr ⟨b, hw, Decidable.not_not.1 hc, hb, hr, rfl⟩)
        · exact .inl ⟨_, _, rfl⟩

/-- The symbols of a decoding that does not raise fit the capacity (R189). -/
theorem decodeLoop_fits (cap : Nat) (t : Arena) (root : NodeIdx) (p : BitSeq) (cur : NodeIdx)
    (out bs : List Byte) (h : decodeLoop cap t root p cur out = .symbols bs) (h0 : out.length ≤ cap) :
    bs.length ≤ cap := by
  induction p generalizing cur out with
  | nil =>
    simp only [decodeLoop] at h
    split at h
    · rw [← Decoded.symbols.inj h]; exact h0
    · simp at h
  | cons b p ih =>
    simp only [decodeLoop] at h
    split at h
    · simp at h
    · split at h
      · split at h
        · simp at h
        · exact ih _ _ h (by simp; omega)
      · exact ih _ _ h h0

/-- DEC raises with the output invalid, or sets an output that fits (R186). -/
theorem runDec_cases (s : State) :
    (s.root = Config.nil ∧ runDec s = .raised .notReady 0 (dropOut (setStage .dec s))) ∨
    (s.root ≠ Config.nil ∧ ∃ k info,
      decodePayload Config.bufCap s.nodes s.root (paySeq s) = .raise k info ∧
      runDec s = .raised k info (dropOut (setStage .dec s))) ∨
    (s.root ≠ Config.nil ∧ ∃ bs,
      decodePayload Config.bufCap s.nodes s.root (paySeq s) = .symbols bs ∧
      bs.length ≤ Config.bufCap ∧ runDec s = .done (setOut bs (setStage .dec s))) := by
  have hn : noTree (setStage .dec s) = (s.root == Config.nil) := rfl
  have hp : paySeq (setStage .dec s) = paySeq s := rfl
  unfold runDec
  simp only [hn, hp, setStage_nodes, setStage_root]
  by_cases h : s.root = Config.nil
  · exact .inl ⟨h, by simp [h]⟩
  · cases hd : decodePayload Config.bufCap s.nodes s.root (paySeq s) with
    | raise k info => exact .inr (.inl ⟨h, k, info, rfl, by simp [h]⟩)
    | symbols bs =>
      refine .inr (.inr ⟨h, bs, rfl, ?_, by simp [h]⟩)
      unfold decodePayload at hd
      split at hd
      · split at hd
        · rw [← Decoded.symbols.inj hd]; simp
        · simp at hd
      · exact decodeLoop_fits _ _ _ _ _ _ _ hd (by simp)

/-! ### Properties a stage leaves -/

/-- The state a stage leaves has the property, whether the stage ran to its end or raised. -/
def Ran.Leaves (P : State → Prop) : Ran → Prop
  | .done s => P s
  | .raised _ _ s => P s
  | .halted _ => True

@[simp] theorem Ran.leaves_done (P : State → Prop) (s : State) : (Ran.done s).Leaves P = P s := rfl
@[simp] theorem Ran.leaves_raised (P : State → Prop) (k : ErrKind) (i : Word) (s : State) :
    (Ran.raised k i s).Leaves P = P s := rfl
@[simp] theorem Ran.leaves_halted (P : State → Prop) (f : Fault) : (Ran.halted f).Leaves P = True := rfl

/-- Two stages in order leave what the second leaves on every state the first leaves. -/
theorem andThen_leaves {P : State → Prop} {r : Ran} {f : State → Ran} (hr : r.Leaves P)
    (hf : ∀ s, P s → (f s).Leaves P) : (andThen r f).Leaves P := by
  cases r with
  | done s => exact hf s hr
  | raised k i s => exact hr
  | halted x => exact trivial

/-- What COMP and DECOMP add at a raise keeps a property that dropping the output keeps. -/
theorem dropOutOnRaise_leaves {P : State → Prop} {r : Ran} (hr : r.Leaves P)
    (hd : ∀ s, P s → P (dropOut s)) : (dropOutOnRaise r).Leaves P := by
  cases r with
  | done s => exact hr
  | raised k i s => exact hd s hr
  | halted x => exact trivial

/-- A property every stage of COMP keeps, COMP keeps. -/
theorem runComp_leaves {P : State → Prop} {s : State} (h : P s) (hd : ∀ s, P s → P (dropOut s))
    (hist : ∀ s, P s → (runHist s).Leaves P) (build : ∀ s, P s → (runBuild s).Leaves P)
    (genc : ∀ s, P s → (runGenc s).Leaves P) (tser : ∀ s, P s → (runTser s).Leaves P)
    (enc : ∀ s, P s → (runEnc s).Leaves P) (asm : ∀ s, P s → (runAsm s).Leaves P) :
    (runComp s).Leaves P :=
  dropOutOnRaise_leaves
    (andThen_leaves (andThen_leaves (andThen_leaves (andThen_leaves
      (andThen_leaves (hist s h) build) genc) tser) enc) asm) hd

/-- A property every stage of DECOMP keeps, DECOMP keeps. -/
theorem runDecomp_leaves {P : State → Prop} {s : State} (h : P s) (hd : ∀ s, P s → P (dropOut s))
    (parse : ∀ s, P s → (runParse s).Leaves P) (tdes : ∀ s, P s → (runTdes s).Leaves P)
    (dec : ∀ s, P s → (runDec s).Leaves P) : (runDecomp s).Leaves P :=
  dropOutOnRaise_leaves (andThen_leaves (andThen_leaves (parse s h) tdes) dec) hd

/-- A command whose rule leaves a property answers a state with that property, when completion keeps
it. -/
theorem exec_leaves {P : State → Prop} {i : Instr} {s t : State} (h : exec i s = .next t)
    (hr : (ruleOf i s).Leaves P) (hc : ∀ c u, P u → P (completeOk c u))
    (he : ∀ k info u, P u → P (enterFault k info u)) : P t := by
  rw [exec_eq_complete] at h
  rcases complete_eq_next h with ⟨u, hu, rfl⟩ | ⟨k, info, u, hu, rfl⟩
  · rw [hu] at hr; exact hc _ u hr
  · rw [hu] at hr; exact he k info u hr

end Sys2Proof.Machine
end

