-- ==== Sys2Proof/Laws/Trees.lean ====
section
/-! SUPPORT. Laws/Trees.lean: what the tree functions of Machine/Trees.lean and Safety.lean give,
    and what TDES
rebuilds. The walk over the arena is stated for any depth bound, so no proof unfolds 256 levels. -/

namespace Sys2Proof.Machine

open Sys2Proof.Safety

/-! ### Sizes -/

/-- The number of levels of a tree. -/
def treeHeight : Tree → Nat
  | .absent => 0
  | .leaf _ => 1
  | .internal l r => max (treeHeight l) (treeHeight r) + 1

/-- One topology bit per node (43_tree_serializer.md R138). -/
theorem emitTopology_length (x : Tree) : (emitTopology x).length = treeSize x := by
  induction x with
  | absent => rfl
  | leaf s => rfl
  | internal l r ihl ihr => simp [emitTopology, treeSize, ihl, ihr]; omega

/-- One topology bit 1 per Leaf (R138). -/
theorem emitTopology_count (x : Tree) : (emitTopology x).count true = treeLeaves x := by
  induction x with
  | absent => rfl
  | leaf s => rfl
  | internal l r ihl ihr => simp [emitTopology, treeLeaves, ihl, ihr]

/-- One side-list entry per Leaf (R135). -/
theorem sideList_length (x : Tree) : (sideList x).length = treeLeaves x := by
  induction x with
  | absent => rfl
  | leaf s => rfl
  | internal l r ihl ihr => simp [sideList, treeLeaves, ihl, ihr]

/-- A full tree with L Leaves has 2L-1 nodes (10_state.md R41). -/
theorem treeSize_of_full (x : Tree) (h : fullTree x = true) : treeSize x + 1 = 2 * treeLeaves x ∧
    1 ≤ treeLeaves x := by
  induction x with
  | absent => simp [fullTree] at h
  | leaf s => simp [treeSize, treeLeaves]
  | internal l r ihl ihr =>
    simp [fullTree] at h
    have := ihl h.1; have := ihr h.2
    simp [treeSize, treeLeaves]; omega

/-- A full tree is no deeper than it has Leaves. -/
theorem treeHeight_le_leaves (x : Tree) (h : fullTree x = true) : treeHeight x ≤ treeLeaves x := by
  induction x with
  | absent => simp [treeHeight]
  | leaf s => simp [treeHeight, treeLeaves]
  | internal l r ihl ihr =>
    simp [fullTree] at h
    have := ihl h.1; have := ihr h.2
    have := (treeSize_of_full l h.1).2; have := (treeSize_of_full r h.2).2
    simp [treeHeight, treeLeaves]; omega

/-- A tree is no deeper than it has nodes. -/
theorem treeHeight_le_size (x : Tree) : treeHeight x ≤ treeSize x := by
  induction x with
  | absent => simp [treeHeight]
  | leaf s => simp [treeHeight, treeSize]
  | internal l r ihl ihr => simp [treeHeight, treeSize]; omega

/-- The wrapper is one Leaf with an absent right neighbour (41_tree_builder.md R115). -/
theorem wrapperTree_iff (x : Tree) : wrapperTree x = true ↔ ∃ s, x = .internal (.leaf s) .absent := by
  constructor
  · intro h
    unfold wrapperTree at h
    split at h
    · exact ⟨_, rfl⟩
    · simp at h
  · rintro ⟨s, rfl⟩; rfl

/-! ### Paths -/

/-- No Leaf is below an absent child. -/
theorem leafAt_absent (p : BitSeq) (s : Byte) : ¬ leafAt .absent p s := by
  cases p with
  | nil => simp [leafAt]
  | cons b p => cases b <;> simp [leafAt]

/-- A Leaf is found at the empty path only. -/
theorem leafAt_leaf (p : BitSeq) (y s : Byte) : leafAt (.leaf y) p s ↔ p = [] ∧ y = s := by
  cases p with
  | nil => simp [leafAt]
  | cons b p => cases b <;> simp [leafAt]

/-- A path into an Internal node goes left with 0 and right with 1. -/
theorem leafAt_internal (l r : Tree) (p : BitSeq) (s : Byte) : leafAt (.internal l r) p s ↔
    (∃ q, p = false :: q ∧ leafAt l q s) ∨ (∃ q, p = true :: q ∧ leafAt r q s) := by
  cases p with
  | nil => simp [leafAt]
  | cons b p => cases b <;> simp [leafAt]

/-- No path to a Leaf begins another (42_code_table.md R130). -/
theorem leafAt_first (x : Tree) : ∀ (p q : BitSeq) (a b : Byte), leafAt x p a → leafAt x q b →
    p <+: q → a = b ∧ p = q := by
  induction x with
  | absent => intro p q a b h; exact absurd h (leafAt_absent _ _)
  | leaf y =>
    intro p q a b h1 h2 _
    rw [leafAt_leaf] at h1 h2
    exact ⟨h1.2.symm.trans h2.2, h1.1.trans h2.1.symm⟩
  | internal l r ihl ihr =>
    intro p q a b h1 h2 hp
    rw [leafAt_internal] at h1 h2
    rcases h1 with ⟨p, rfl, h1⟩ | ⟨p, rfl, h1⟩ <;> rcases h2 with ⟨q, rfl, h2⟩ | ⟨q, rfl, h2⟩
    · have := ihl p q a b h1 h2 (by simpa using hp); exact ⟨this.1, by rw [this.2]⟩
    · simp at hp
    · simp at hp
    · have := ihr p q a b h1 h2 (by simpa using hp); exact ⟨this.1, by rw [this.2]⟩

/-- The walk lists exactly the paths to the Leaves, after the path it started with (R125). -/
theorem walkCodes_mem (x : Tree) : ∀ (pre p : BitSeq) (s : Byte), (s, p) ∈ walkCodes x pre ↔ ∃ q,
    p = pre ++ q ∧ leafAt x q s := by
  induction x with
  | absent => intro pre p s; simp [walkCodes, leafAt_absent]
  | leaf y => intro pre p s; simp [walkCodes, leafAt_leaf]; tauto
  | internal l r ihl ihr =>
    intro pre p s
    simp only [walkCodes, List.mem_append, ihl, ihr, leafAt_internal]
    constructor
    · rintro (⟨q, rfl, h⟩ | ⟨q, rfl, h⟩)
      · exact ⟨false :: q, by simp, .inl ⟨q, rfl, h⟩⟩
      · exact ⟨true :: q, by simp, .inr ⟨q, rfl, h⟩⟩
    · rintro ⟨q, rfl, (⟨q', rfl, h⟩ | ⟨q', rfl, h⟩)⟩
      · exact .inl ⟨q', by simp, h⟩
      · exact .inr ⟨q', by simp, h⟩

/-- The walk meets the Leaves in side-list order (R125, R135). -/
theorem walkCodes_symbols (x : Tree) : ∀ p, (walkCodes x p).map (·.1) = sideList x := by
  induction x with
  | absent => intro p; rfl
  | leaf y => intro p; rfl
  | internal l r ihl ihr => intro p; simp [walkCodes, sideList, ihl, ihr]

/-- Of several codes recorded for a symbol the last stays (R128). -/
theorem recordCode_foldl (l : List (Byte × BitSeq)) (v : Vector (Option BitSeq) 256) (s : Byte) :
    (l.foldl recordCode v)[s.toNat]'s.isLt =
      match (l.filter fun e => e.1 == s).getLast? with
      | some e => some e.2
      | none => v[s.toNat]'s.isLt := by
  induction l using List.reverseRecOn with
  | nil => simp
  | append_singleton l e ih =>
    rw [List.foldl_append, List.filter_append]
    simp only [List.foldl_cons, List.foldl_nil, recordCode, Vector.getElem_set]
    by_cases h : e.1 = s
    · simp [h]
    · have : e.1.toNat ≠ s.toNat := fun e' => h (BitVec.eq_of_toNat_eq e')
      have h2 : (List.filter (fun e => e.1 == s) [e]) = [] := by simp [h]
      rw [h2, List.append_nil, if_neg this]
      exact ih

/-- The entry GENC gives a symbol (R126, R128). -/
theorem codeTableOf_getElem (x : Tree) (s : Byte) : (codeTableOf x)[s.toNat]'s.isLt =
   (((walkCodes x []).filter (fun e => e.1 == s)).getLast?).map (fun e => e.2) := by
  unfold codeTableOf
  rw [recordCode_foldl]
  split
  · next h => rw [h]; rfl
  · next h => rw [h]; simp

/-! ### Reading a tree from the arena -/

/-- `NIL` as a number. -/
theorem nil_eq : (Config.nil : NodeIdx) = 511#9 := rfl

/-- An index below 511 is not `NIL`. -/
theorem ofNat_ne_nil (n : Nat) (h : n < 511) : (BitVec.ofNat 9 n) ≠ Config.nil := by
  intro e
  have := congrArg BitVec.toNat e
  simp [nil_eq] at this
  omega

/-- The entries from an index on form the tree, at some depth bound. -/
def Reads (t : Arena) (i : NodeIdx) (x : Tree) : Prop := ∃ f, readTree t f i = some x

/-- Where the absent tree is read, the index is `NIL`. -/
theorem Reads.isNil {t i} (h : Reads t i .absent) : i = Config.nil := by
  obtain ⟨f, h⟩ := h
  cases f with
  | zero => by_contra hi; simp [readTree, hi] at h
  | succ f =>
    by_contra hi
    simp only [readTree, hi, if_false] at h
    split at h
    · simp at h
    · split at h <;> simp at h

/-- Where a Leaf is read, the node is that Leaf. -/
theorem Reads.isLeaf {t i y} (h : Reads t i (.leaf y)) : i ≠ Config.nil ∧
    (nodeAt t i).kind = .leaf ∧ (nodeAt t i).tsym = y := by
  obtain ⟨f, h⟩ := h
  cases f with
  | zero => by_cases hi : i = Config.nil <;> simp [readTree, hi] at h
  | succ f =>
    by_cases hi : i = Config.nil
    · simp [readTree, hi] at h
    · simp only [readTree, hi, if_false] at h
      split at h
      · next hk => exact ⟨hi, hk, by simpa using h⟩
      · split at h <;> simp at h

/-- Where an Internal node is read, its links read the subtrees. -/
theorem Reads.isInternal {t i l r} (h : Reads t i (.internal l r)) : i ≠ Config.nil ∧
    (nodeAt t i).kind = .internal ∧
    Reads t (nodeAt t i).left l ∧ Reads t (nodeAt t i).right r := by
  obtain ⟨f, h⟩ := h
  cases f with
  | zero => by_cases hi : i = Config.nil <;> simp [readTree, hi] at h
  | succ f =>
    by_cases hi : i = Config.nil
    · simp [readTree, hi] at h
    · simp only [readTree, hi, if_false] at h
      split at h
      · simp at h
      · next hk =>
        split at h
        · next a b h1 h2 => simp at h; obtain ⟨rfl, rfl⟩ := h; exact ⟨hi, hk, ⟨f, h1⟩, ⟨f, h2⟩⟩
        · simp at h

/-- An index reads one tree only. -/
theorem Reads.unique (t : Arena) (x : Tree) : ∀ (y : Tree) (i : NodeIdx), Reads t i x →
    Reads t i y → x = y := by
  induction x with
  | absent =>
    intro y i hx hy
    have hi := Reads.isNil hx
    cases y with
    | absent => rfl
    | leaf y => exact absurd hi (Reads.isLeaf hy).1
    | internal l r => exact absurd hi (Reads.isInternal hy).1
  | leaf a =>
    intro y i hx hy
    obtain ⟨h1, h2, h3⟩ := Reads.isLeaf hx
    cases y with
    | absent => exact absurd (Reads.isNil hy) h1
    | leaf y => rw [← (Reads.isLeaf hy).2.2, h3]
    | internal l r => have := (Reads.isInternal hy).2.1; rw [h2] at this; simp at this
  | internal l r ihl ihr =>
    intro y i hx hy
    obtain ⟨h1, h2, h3, h4⟩ := Reads.isInternal hx
    cases y with
    | absent => exact absurd (Reads.isNil hy) h1
    | leaf y => have := (Reads.isLeaf hy).2.1; rw [h2] at this; simp at this
    | internal l' r' =>
      obtain ⟨_, _, h5, h6⟩ := Reads.isInternal hy
      rw [ihl _ _ h3 h5, ihr _ _ h4 h6]

/-! ### What TDES rebuilds -/

/-- The node entries TDES writes for a tree whose root gets the given index (44_tree_deserializer.md
R145): the root, then the right subtree, then the left. -/
def entriesOf : Tree → Nat → List Node
  | .absent, _ => []
  | .leaf s, _ => [rebuiltLeaf s]
  | .internal l r, cnt =>
    rebuiltInternal (BitVec.ofNat 9 (cnt + 1 + treeSize r)) (BitVec.ofNat 9 (cnt + 1)) ::
      (entriesOf r (cnt+1) ++ entriesOf l (cnt + 1 + treeSize r))

/-- One entry per node. -/
theorem entriesOf_length (x : Tree) (c : Nat) : (entriesOf x c).length = treeSize x := by
  induction x generalizing c with
  | absent => rfl
  | leaf s => rfl
  | internal l r ihl ihr => simp [entriesOf, treeSize, ihl, ihr]; omega

/-- Reading an entry in the middle of the arena. -/
theorem nodeAt_of_append (a : Arena) (pre post mid : List Node) (h : a.entries = pre ++ mid ++ post)
    (k : Nat) (hk : k < mid.length) (hb : pre.length + k < 511) :
    nodeAt a (BitVec.ofNat 9 (pre.length + k)) = mid[k] := by
  have e : (BitVec.ofNat 9 (pre.length + k)).toNat = pre.length + k := by
    simp; omega
  unfold nodeAt
  rw [e, h]
  have : (pre ++ mid ++ post)[pre.length + k]? = some mid[k] := by
    rw [List.append_assoc, List.getElem?_append_right (by omega)]
    simp [List.getElem?_append_left, hk]
  rw [this]

/-- On the reversed topology of a full tree the walk of R145 rebuilds that tree. -/
theorem rebuild_of_emitTopology (alpha : Memory) (x : Tree) (hf : fullTree x = true) :
    ∀ (fuel cnt ai : Nat) (rest : BitSeq), treeHeight x ≤ fuel →
      (∀ j (h : j < (sideList x).reverse.length), memRead alpha (ai + j) = (sideList x).reverse[j]) →
      rebuild alpha fuel ((emitTopology x).reverse ++ rest) cnt ai =
        some { entries := entriesOf x cnt, rest := rest, ai := ai + treeLeaves x } := by
  induction x with
  | absent => simp [fullTree] at hf
  | leaf s =>
    intro fuel cnt ai rest hfu ha
    match fuel, hfu with
    | fuel+1, _ =>
      have := ha 0 (by simp [sideList])
      simp [sideList] at this
      simp [emitTopology, rebuild, entriesOf, treeLeaves, this]
    | 0, h => simp [treeHeight] at h
  | internal l r ihl ihr =>
    intro fuel cnt ai rest hfu ha
    simp [fullTree] at hf
    match fuel, hfu with
    | 0, h => simp [treeHeight] at h
    | fuel+1, h =>
      simp [treeHeight] at h
      have e : (emitTopology (.internal l r)).reverse ++ rest =
        false :: ((emitTopology r).reverse ++ ((emitTopology l).reverse ++ rest)) := by
        simp [emitTopology]
      have hr := ihr hf.2 fuel (cnt+1) ai ((emitTopology l).reverse ++ rest) (by omega) (by
        intro j hj
        have hj2 : j < (sideList (.internal l r)).reverse.length := by
          simp [sideList] at hj ⊢; omega
        rw [ha j hj2]
        simp only [sideList, List.reverse_append]
        rw [List.getElem_append_left hj])
      have hl := ihl hf.1 fuel (cnt+1+treeSize r) (ai + treeLeaves r) rest (by omega) (by
        intro j hj
        have hj2 : treeLeaves r + j < (sideList (.internal l r)).reverse.length := by
          simp [sideList, sideList_length] at hj ⊢; omega
        have := ha _ hj2
        rw [← Nat.add_assoc] at this
        rw [this]
        simp only [sideList, List.reverse_append]
        rw [List.getElem_append_right (by simp [sideList_length])]
        congr 1; simp [sideList_length])
      rw [e]
      simp only [rebuild, hr, entriesOf_length, hl]
      simp [entriesOf, treeLeaves]; omega

/-- The walk of R145 succeeds on nothing but reversed topologies of full trees. -/
theorem rebuild_only_topologies (alpha : Memory) : ∀ (fuel cnt ai : Nat) (bits : BitSeq) (b : Rebuilt),
    rebuild alpha fuel bits cnt ai = some b →
    ∃ x, fullTree x = true ∧ bits = (emitTopology x).reverse ++ b.rest ∧ b.entries = entriesOf x cnt ∧
      b.ai = ai + treeLeaves x ∧
      ∀ j (h : j < (sideList x).reverse.length), memRead alpha (ai + j) = (sideList x).reverse[j] := by
  intro fuel
  induction fuel with
  | zero => intro cnt ai bits b h; simp [rebuild] at h
  | succ fuel ih =>
    intro cnt ai bits b h
    match bits with
    | [] => simp [rebuild] at h
    | true :: rest =>
      simp [rebuild] at h
      subst h
      refine ⟨.leaf (memRead alpha ai), rfl, by simp [emitTopology], by simp [entriesOf],
          by simp [treeLeaves], ?_⟩
      intro j hj
      simp [sideList] at hj
      subst hj
      simp [sideList]
    | false :: rest =>
      simp only [rebuild] at h
      split at h
      · simp at h
      · next r hr =>
        split at h
        · simp at h
        · next l hl =>
          simp only [Option.some.injEq] at h
          obtain ⟨xr, fr, br, er, ar, mr⟩ := ih _ _ _ _ hr
          obtain ⟨xl, fl, bl, el, al, ml⟩ := ih _ _ _ _ hl
          subst h
          refine ⟨.internal xl xr, by simp [fullTree, fl, fr], ?_, ?_, ?_, ?_⟩
          · simp [emitTopology, br, bl]
          · simp [entriesOf, er, el, entriesOf_length]
          · simp [treeLeaves, al, ar]; omega
          · intro j hj
            simp only [sideList, List.reverse_append] at hj ⊢
            rw [List.getElem_append]
            split
            · next h1 => exact mr j h1
            · next h1 =>
              have hj2 : j - (sideList xr).reverse.length < (sideList xl).reverse.length := by
                simp [sideList_length] at hj h1 ⊢; omega
              rw [← ml _ hj2]
              congr 1
              simp [ar, sideList_length] at h1 ⊢; omega

/-- The entries of R145 read back as the tree. -/
theorem readTree_entriesOf (a : Arena) (x : Tree) : ∀ (pre post : List Node) (fuel : Nat),
    fullTree x = true →
    a.entries = pre ++ entriesOf x pre.length ++ post → pre.length + treeSize x ≤ 511 →
    treeHeight x ≤ fuel → readTree a fuel (BitVec.ofNat 9 pre.length) = some x := by
  induction x with
  | absent => intro _ _ _ h; simp [fullTree] at h
  | leaf s =>
    intro pre post fuel _ he hb hf
    match fuel, hf with
    | 0, h => simp [treeHeight] at h
    | fuel+1, _ =>
      simp [treeSize] at hb
      have hn := ofNat_ne_nil pre.length (by omega)
      have := nodeAt_of_append a pre post _ he 0 (by simp [entriesOf]) (by omega)
      simp [entriesOf] at this
      simp [readTree, hn, this, rebuiltLeaf]
  | internal l r ihl ihr =>
    intro pre post fuel hfull he hb hf
    simp [fullTree] at hfull
    match fuel, hf with
    | 0, h => simp [treeHeight] at h
    | fuel+1, h =>
      simp [treeSize] at hb
      simp [treeHeight] at h
      have hn := ofNat_ne_nil pre.length (by omega)
      have h0 := nodeAt_of_append a pre post _ he 0 (by simp [entriesOf]) (by omega)
      simp [entriesOf] at h0
      have hr := ihr (pre ++ [rebuiltInternal (BitVec.ofNat 9 (pre.length + 1 + treeSize r))
          (BitVec.ofNat 9 (pre.length + 1))])
        (entriesOf l (pre.length + 1 + treeSize r) ++ post) fuel hfull.2 (by simp [he,
            entriesOf]) (by simp; omega) (by omega)
      have hl := ihl (pre ++ [rebuiltInternal (BitVec.ofNat 9 (pre.length + 1 + treeSize r))
          (BitVec.ofNat 9 (pre.length + 1))] ++ entriesOf r (pre.length+1))
        post fuel hfull.1 (by simp [he, entriesOf,
            entriesOf_length]; congr 1; omega) (by simp [entriesOf_length]; omega) (by omega)
      simp [entriesOf_length] at hr hl
      have e : pre.length + (treeSize r + 1) = pre.length + 1 + treeSize r := by omega
      rw [e] at hl
      simp [readTree, hn, h0, rebuiltInternal, hr, hl]

/-- The entries of R145 are each reached once. -/
theorem indicesBelow_entriesOf (a : Arena) (x : Tree) : ∀ (pre post : List Node) (fuel : Nat),
    fullTree x = true →
    a.entries = pre ++ entriesOf x pre.length ++ post → pre.length + treeSize x ≤ 511 →
    treeHeight x ≤ fuel → (indicesBelow a fuel (BitVec.ofNat 9 pre.length)).Perm
        (List.range' pre.length (treeSize x)) := by
  induction x with
  | absent => intro pre post fuel h; simp [fullTree] at h
  | leaf s =>
    intro pre post fuel _ he hs hh
    cases fuel with
    | zero => simp [treeHeight] at hh
    | succ f =>
      simp [treeSize] at hs
      have hn := nodeAt_of_append a pre post [rebuiltLeaf s] (by simpa [entriesOf] using he) 0
          (by simp) (by omega)
      simp at hn
      simp [indicesBelow, ofNat_ne_nil pre.length (by omega), hn, rebuiltLeaf, treeSize]; omega
  | internal l r ihl ihr =>
    intro pre post fuel hf he hs hh
    simp [fullTree] at hf
    simp [treeSize] at hs
    simp [treeHeight] at hh
    cases fuel with
    | zero => omega
    | succ f =>
      have hn := nodeAt_of_append a pre post (entriesOf (.internal l r) pre.length) he 0
          (by simp [entriesOf]) (by omega)
      simp [entriesOf] at hn
      have er : (entriesOf r (pre.length + 1)).length = treeSize r := entriesOf_length _ _
      have hr := ihr (pre ++ [rebuiltInternal (BitVec.ofNat 9 (pre.length + 1 + treeSize r))
          (BitVec.ofNat 9 (pre.length + 1))]) (entriesOf l (pre.length + 1 + treeSize r) ++ post) f hf.2
        (by simp [he, entriesOf]) (by simp; omega) (by omega)
      have hl := ihl (pre ++ [rebuiltInternal (BitVec.ofNat 9 (pre.length + 1 + treeSize r))
          (BitVec.ofNat 9 (pre.length + 1))] ++ entriesOf r (pre.length + 1)) post f hf.1
        (by simp [he, entriesOf, er]; congr 1; omega) (by simp [er]; omega) (by omega)
      simp [er] at hl hr
      have e' : pre.length + (treeSize r + 1) = pre.length + 1 + treeSize r := by omega
      rw [e'] at hl
      have e : (BitVec.ofNat 9 pre.length).toNat = pre.length := by simp; omega
      rw [indicesBelow, if_neg (ofNat_ne_nil pre.length (by omega)), hn, e]
      simp only [rebuiltInternal, er] at *
      refine (List.Perm.cons _ (hl.append hr)).trans ?_
      rw [treeSize, show treeSize l + treeSize r + 1 = (treeSize r + treeSize l) + 1 by omega,
          List.range'_succ]
      refine List.Perm.cons _ ?_
      refine List.perm_append_comm.trans ?_
      rw [List.range'_append_1]

/-! ### Codes, entries and topologies, each by its content -/

/-- A common beginning does not matter to which of two paths ends further left. -/
theorem leftOf_append (pre p q : BitSeq) : leftOf (pre ++ p) (pre ++ q) ↔ leftOf p q := by
  induction pre with
  | nil => rfl
  | cons b pre ih => cases b <;> exact ih

/-- Of two paths at most one ends further left than the other. -/
theorem leftOf_asymm : ∀ p q : BitSeq, leftOf p q → ¬ leftOf q p
  | false :: _, true :: _, _ => fun h => h
  | false :: p, false :: q, h => leftOf_asymm p q h
  | true :: p, true :: q, h => leftOf_asymm p q h

/-- The walk meets the Leaves from left to right (R126). -/
theorem walkCodes_rightward (x : Tree) : ∀ pre, (walkCodes x pre).Pairwise fun e f => leftOf e.2 f.2 := by
  induction x with
  | absent => exact fun _ => List.Pairwise.nil
  | leaf y => exact fun _ => List.pairwise_singleton _ _
  | internal l r ihl ihr =>
    intro pre
    refine List.pairwise_append.2 ⟨ihl _, ihr _, ?_⟩
    rintro ⟨a, p⟩ hp ⟨b, q⟩ hq
    obtain ⟨p', rfl, _⟩ := (walkCodes_mem l _ _ _).1 hp
    obtain ⟨q', rfl, _⟩ := (walkCodes_mem r _ _ _).1 hq
    rw [List.append_assoc, List.append_assoc, leftOf_append]
    trivial

/-- A symbol's entry is the path to its Leaf furthest right (R126, R128). -/
theorem codeTableOf_eq_some (x : Tree) (s : Byte) (p : BitSeq) :
    (codeTableOf x)[s.toNat]'s.isLt = some p ↔
      leafAt x p s ∧ ∀ q, leafAt x q s → q = p ∨ leftOf q p := by
  have mem : ∀ q, leafAt x q s ↔ (s, q) ∈ (walkCodes x []).filter (fun e => e.1 == s) := by
    intro q
    rw [List.mem_filter, walkCodes_mem]
    simp
  have hsym : ∀ e ∈ (walkCodes x []).filter (fun e => e.1 == s), e = (s, e.2) := by
    intro e he
    have := (List.mem_filter.1 he).2
    simp at this
    rw [← this]
  have hw := (walkCodes_rightward x []).filter (fun e => e.1 == s)
  have last : ∀ init e, (walkCodes x []).filter (fun e => e.1 == s) = init ++ [e] →
      leafAt x e.2 s ∧ ∀ q, leafAt x q s → q = e.2 ∨ leftOf q e.2 := by
    intro init e h
    have he := hsym e (by rw [h]; simp)
    refine ⟨(mem _).2 (by rw [← he, h]; simp), fun q hq => ?_⟩
    rw [mem, h, List.mem_append, List.mem_singleton] at hq
    rw [h] at hw
    rcases hq with hq | hq
    · exact .inr ((List.pairwise_append.1 hw).2.2 _ hq e (by simp))
    · exact .inl (by rw [← hq])
  rw [codeTableOf_getElem]
  rcases List.eq_nil_or_concat ((walkCodes x []).filter (fun e => e.1 == s)) with h | ⟨init, e, h⟩
  · rw [h]
    simp [mem, h]
  · obtain ⟨h1, h2⟩ := last init e (by simpa using h)
    rw [h]
    simp only [List.concat_eq_append, List.getLast?_append, List.getLast?_singleton, Option.some_or,
      Option.map_some, Option.some.injEq]
    constructor
    · rintro rfl; exact ⟨h1, h2⟩
    · rintro ⟨h3, h4⟩
      rcases h4 _ h1 with h5 | h5
      · exact h5
      · rcases h2 _ h3 with h6 | h6
        · exact h6.symm
        · exact absurd h6 (leftOf_asymm _ _ h5)

/-- A symbol has no entry when no Leaf has it (R126). -/
theorem codeTableOf_eq_none (x : Tree) (s : Byte) :
    (codeTableOf x)[s.toNat]'s.isLt = none ↔ ∀ p, ¬ leafAt x p s := by
  rw [codeTableOf_getElem]
  simp only [Option.map_eq_none_iff, List.getLast?_eq_none_iff, List.filter_eq_nil_iff]
  constructor
  · intro h p hp
    exact h (s, p) ((walkCodes_mem x [] p s).2 ⟨p, rfl, hp⟩) (by simp)
  · rintro h ⟨a, p⟩ he ha
    obtain ⟨q, _, hq⟩ := (walkCodes_mem x _ _ _).1 he
    simp at ha
    exact h q (ha ▸ hq)

/-- The kinds of the entries TDES writes are the bits in the order they are popped (R149). -/
theorem entriesOf_kinds (x : Tree) : ∀ cnt,
    (entriesOf x cnt).map (fun n => n.kind == .leaf) = (emitTopology x).reverse := by
  induction x with
  | absent => exact fun _ => rfl
  | leaf s => exact fun _ => rfl
  | internal l r ihl ihr =>
    intro cnt
    simp only [entriesOf, emitTopology, List.map_cons, List.map_append, ihl, ihr, List.reverse_append,
      List.reverse_cons, List.reverse_nil, List.nil_append, List.singleton_append]
    rfl

/-- An entry TDES writes has weight 0; an Internal one has `tsym` 0 and its right child next (R145, R149). -/
theorem entriesOf_entry (x : Tree) : ∀ (cnt k : Nat) (n : Node), (entriesOf x cnt)[k]? = some n →
    n.weight = 0 ∧ (n.kind = .internal → n.tsym = 0 ∧ n.right = BitVec.ofNat 9 (cnt + k + 1)) := by
  induction x with
  | absent => intro cnt k n h; simp [entriesOf] at h
  | leaf s =>
    intro cnt k n h
    match k, h with
    | 0, h =>
      obtain rfl := Option.some.inj h
      exact ⟨rfl, fun h => by cases h⟩
    | _ + 1, h => simp [entriesOf] at h
  | internal l r ihl ihr =>
    intro cnt k n h
    match k, h with
    | 0, h =>
      obtain rfl := Option.some.inj h
      exact ⟨rfl, fun _ => ⟨rfl, rfl⟩⟩
    | k + 1, h =>
      rw [entriesOf, List.getElem?_cons_succ, List.getElem?_append, entriesOf_length] at h
      split at h
      · have := ihr _ _ _ h
        rwa [show cnt + 1 + k + 1 = cnt + (k + 1) + 1 by omega] at this
      · have := ihl _ _ _ h
        rwa [show cnt + 1 + treeSize r + (k - treeSize r) + 1 = cnt + (k + 1) + 1 by omega] at this

/-- Whatever the Alphabet, the walk of R145 uses up the reversed topology of a full tree and no more. -/
theorem rebuild_of_topology (alpha : Memory) (x : Tree) (hf : fullTree x = true) :
    ∀ (fuel cnt ai : Nat) (rest : BitSeq), treeHeight x ≤ fuel →
      ∃ b, rebuild alpha fuel ((emitTopology x).reverse ++ rest) cnt ai = some b ∧ b.rest = rest := by
  induction x with
  | absent => simp [fullTree] at hf
  | leaf s =>
    intro fuel cnt ai rest h
    match fuel, h with
    | 0, h => simp [treeHeight] at h
    | fuel + 1, _ => exact ⟨_, rfl, rfl⟩
  | internal l r ihl ihr =>
    intro fuel cnt ai rest h
    simp [fullTree] at hf
    match fuel, h with
    | 0, h => simp [treeHeight] at h
    | fuel + 1, h =>
      simp [treeHeight] at h
      have e : (emitTopology (.internal l r)).reverse ++ rest =
        false :: ((emitTopology r).reverse ++ ((emitTopology l).reverse ++ rest)) := by
        simp [emitTopology]
      obtain ⟨br, hr, er⟩ := ihr hf.2 fuel (cnt + 1) ai ((emitTopology l).reverse ++ rest) (by omega)
      obtain ⟨bl, hl, el⟩ := ihl hf.1 fuel (cnt + 1 + br.entries.length) br.ai rest (by omega)
      rw [e]
      simp only [rebuild, hr, er, hl]
      exact ⟨_, rfl, el⟩

end Sys2Proof.Machine
end

