-- ==== Sys2Proof/Laws/Build.lean ====
section
/-! SUPPORT. Laws/Build.lean: the invariant of BUILD's merge loop,
    and everything BUILD can do (41_tree_builder.md
R113 to R120). -/

namespace Sys2Proof.Machine

open Sys2Proof.Safety

/-! ### The queue -/

/-- Inserting keeps the members and adds the new one (R112). -/
theorem pqInsert_perm (x : Nat × Node) (q : List (Nat × Node)) : (pqInsert x q).Perm (x :: q) := by
  induction q with
  | nil => exact List.Perm.refl _
  | cons y ys ih =>
    unfold pqInsert
    split
    · exact List.Perm.refl _
    · exact (ih.cons y).trans (List.Perm.swap x y ys)

/-- The first queue holds the Leaves with their indices (R113). -/
theorem initialQueue_perm (leaves : List Node) :
    (initialQueue leaves).Perm (leaves.zipIdx.map fun x => (x.2, x.1)) := by
  unfold initialQueue
  have : ∀ (l : List (Node × Nat)) (q : List (Nat × Node)), (l.foldl (fun q x => pqInsert (x.2,
      x.1) q) q).Perm (l.map (fun x => (x.2, x.1)) ++ q) := by
    intro l
    induction l with
    | nil => intro q; exact List.Perm.refl _
    | cons x xs ih =>
      intro q
      refine (ih _).trans ?_
      refine ((pqInsert_perm _ q).append_left _).trans ?_
      simp
  simpa using this leaves.zipIdx []

/-- Numbering the Leaves changes no sum over them. -/
theorem zipIdx_sum (leaves : List Node) (f : Node →
    Nat) : ((leaves.zipIdx.map fun x => (x.2, x.1)).map fun x => f x.2).sum = (leaves.map f).sum := by
  simp only [List.map_map]
  congr 1
  apply List.ext_getElem <;> simp

/-! ### The merge loop -/

/-- What the arena says of node `i`: `T i` is the tree below it and `L i` the indices in it. -/
structure ArenaNode (arena : List Node) (T : Nat → Tree) (L : Nat →
    List Nat) (i : Nat) (n : Node) : Prop where
  full : fullTree (T i) = true
  leaf : n.kind = .leaf → T i = .leaf n.tsym ∧ L i = [i] ∧ n.weight ≠ 0 ∧ n.left = Config.nil ∧
      n.right = Config.nil
  internal : n.kind = .internal → ∃ l r nl nr, l < i ∧ r < i ∧ arena[l]? = some nl ∧
      arena[r]? = some nr ∧
    n.left = BitVec.ofNat 9 l ∧ n.right = BitVec.ofNat 9 r ∧ T i = .internal (T l) (T r) ∧
        L i = i :: (L l ++ L r) ∧
    n.weight.toNat = nl.weight.toNat + nr.weight.toNat ∧ n.tsym = minSym nl.tsym nr.tsym

/-- The invariant of the merge loop (R114): the queue members are nodes of the arena,
    their trees take up
all of the arena and all the Leaves, and the newest node is a member. -/
structure MergeInv (arena : List Node) (q : List (Nat × Node)) (T : Nat → Tree) (L : Nat →
    List Nat) (N total : Nat) (S : List Byte) : Prop where
  mem : ∀ x ∈ q, arena[x.1]? = some x.2
  nodes : ∀ i n, arena[i]? = some n → ArenaNode arena T L i n
  sizes : (q.map fun x => treeSize (T x.1)).sum = arena.length
  leaves : (q.map fun x => treeLeaves (T x.1)).sum = N
  idx : (q.flatMap fun x => L x.1).Perm (List.range arena.length)
  syms : (q.flatMap fun x => sideList (T x.1)).Perm S
  weights : (q.map fun x => x.2.weight.toNat).sum = total
  len : arena.length + q.length = 2 * N
  last : ∀ _ : 0 < arena.length, arena.length - 1 ∈ q.map (·.1)

/-- One round of the loop keeps the invariant. -/
theorem MergeInv.merge (arena : List Node) (a b : Nat × Node) (rest : List (Nat × Node)) (T L N total S)
    (h : MergeInv arena (a :: b :: rest) T L N total S) (hw :
        a.2.weight.toNat + b.2.weight.toNat ≤ 0xFFFFFFFF) :
    MergeInv (arena ++ [mergedNode a b]) (pqInsert (arena.length, mergedNode a b) rest)
      (fun i => if i = arena.length then .internal (T a.1) (T b.1) else T i)
      (fun i => if i = arena.length then arena.length :: (L a.1 ++ L b.1) else L i) N total S := by
  have ha := h.mem a (by simp)
  have hb := h.mem b (by simp)
  have lt : ∀ x ∈ (a :: b :: rest), x.1 < arena.length := fun x hx => by
    have := h.mem x hx
    exact (List.getElem?_eq_some_iff.1 this).1
  have hal := lt a (by simp)
  have hbl := lt b (by simp)
  have ne : ∀ x ∈ rest, x.1 ≠ arena.length := fun x hx => by have := lt x (by simp [hx]); omega
  have hp := pqInsert_perm (arena.length, mergedNode a b) rest
  have wsum : (mergedNode a b).weight.toNat = a.2.weight.toNat + b.2.weight.toNat := by
    simp [mergedNode]; omega
  have ext : ∀ i n, arena[i]? = some n → (arena ++ [mergedNode a b])[i]? = some n := fun i n hi => by
    rw [List.getElem?_append_left (List.getElem?_eq_some_iff.1 hi).1]; exact hi
  constructor
  · intro x hx
    rcases List.mem_cons.1 (hp.mem_iff.1 hx) with rfl | hx
    · simp
    · exact ext _ _ (h.mem x (by simp [hx]))
  · intro i n hi
    by_cases hlt : i < arena.length
    · rw [List.getElem?_append_left hlt] at hi
      have ok := h.nodes i n hi
      have hne : i ≠ arena.length := by omega
      constructor
      · simp [hne, ok.full]
      · intro hk; simpa [hne] using ok.leaf hk
      · intro hk
        obtain ⟨l, r, nl, nr, h1, h2, h3, h4, h5, h6, h7, h8, h9, h10⟩ := ok.internal hk
        refine ⟨l, r, nl, nr, h1, h2, ext _ _ h3, ext _ _ h4, h5, h6, ?_, ?_, h9, h10⟩
        · have : l ≠ arena.length := by omega
          have : r ≠ arena.length := by omega
          simp [*]
        · have : l ≠ arena.length := by omega
          have : r ≠ arena.length := by omega
          simp [*]
    · have : i = arena.length := by
        have := (List.getElem?_eq_some_iff.1 hi).1
        simp at this; omega
      subst this
      have : n = mergedNode a b := by simpa using hi.symm
      subst this
      have fa := (h.nodes _ _ ha).full
      have fb := (h.nodes _ _ hb).full
      have n1 : a.1 ≠ arena.length := by omega
      have n2 : b.1 ≠ arena.length := by omega
      constructor
      · simp [fullTree, fa, fb]
      · intro hk; simp [mergedNode] at hk
      · intro _
        refine ⟨a.1, b.1, a.2, b.2, hal, hbl, ext _ _ ha, ext _ _ hb, rfl, rfl, ?_, ?_, wsum, rfl⟩
        · simp [n1, n2]
        · simp [n1, n2]
  · have e : (rest.map fun x => treeSize (if x.1 =
        arena.length then .internal (T a.1) (T b.1) else T x.1)) =
        rest.map fun x => treeSize (T x.1) := by
      apply List.map_congr_left; intro x hx; rw [if_neg (ne x hx)]
    rw [(hp.map _).sum_eq]
    have := h.sizes
    simp [e, treeSize] at this ⊢; omega
  · have e : (rest.map fun x => treeLeaves (if x.1 =
        arena.length then .internal (T a.1) (T b.1) else T x.1)) =
        rest.map fun x => treeLeaves (T x.1) := by
      apply List.map_congr_left; intro x hx; rw [if_neg (ne x hx)]
    rw [(hp.map _).sum_eq]
    have := h.leaves
    simp [e, treeLeaves] at this ⊢; omega
  · have e : (rest.flatMap fun x => if x.1 =
        arena.length then arena.length :: (L a.1 ++ L b.1) else L x.1) =
        rest.flatMap fun x => L x.1 := by
      rw [List.flatMap_def, List.flatMap_def]
      congr 1
      apply List.map_congr_left; intro x hx; rw [if_neg (ne x hx)]
    refine (hp.flatMap_right _).trans ?_
    have := h.idx
    simp [e] at this ⊢
    rw [List.range_succ]
    refine List.Perm.trans ?_ (this.append_right [arena.length])
    simpa [List.append_assoc] using (List.perm_append_singleton arena.length (L a.1 ++
        (L b.1 ++ rest.flatMap fun x => L x.1))).symm
  · have e : (rest.flatMap fun x => sideList (if x.1 =
        arena.length then .internal (T a.1) (T b.1) else T x.1)) =
        rest.flatMap fun x => sideList (T x.1) := by
      rw [List.flatMap_def, List.flatMap_def]
      congr 1
      apply List.map_congr_left; intro x hx; rw [if_neg (ne x hx)]
    refine (hp.flatMap_right _).trans ?_
    have := h.syms
    simpa [e, sideList] using this
  · rw [(hp.map _).sum_eq]
    have := h.weights
    simp [wsum] at this ⊢; omega
  · have := h.len
    have := hp.length_eq
    simp at *; omega
  · intro _
    have : (arena.length, mergedNode a b) ∈ pqInsert (arena.length,
        mergedNode a b) rest := hp.mem_iff.2 (by simp)
    simp
    exact ⟨_, this⟩

/-- The loop ends with one member, or an overflow shows that the total exceeds 2^32-1 (R120). -/
theorem mergeLoop_keeps : ∀ (fuel : Nat) (q : List (Nat × Node)) (arena : List Node) (T L N total S),
    MergeInv arena q T L N total S → q.length ≤ fuel + 1 → 1 ≤ q.length →
    (mergeLoop fuel q arena = none ∧ 0xFFFFFFFF < total) ∨
    (∃ arena' x T' L', mergeLoop fuel q arena = some arena' ∧ MergeInv arena' [x] T' L' N total S ∧
        ∃ new, arena' = arena ++ new) := by
  intro fuel
  induction fuel with
  | zero =>
    intro q arena T L N total S h h1 h2
    match q, h1, h2 with
    | [x], _, _ => exact .inr ⟨arena, x, T, L, rfl, h, [], by simp⟩
    | _ :: _ :: _, h1, _ => simp at h1
  | succ fuel ih =>
    intro q arena T L N total S h h1 h2
    match q, h1, h2 with
    | [x], _, _ => exact .inr ⟨arena, x, T, L, rfl, h, [], by simp⟩
    | a :: b :: rest, h1, _ =>
      unfold mergeLoop
      split
      · next hw =>
        refine .inl ⟨rfl, ?_⟩
        have := h.weights
        simp at this; omega
      · next hw =>
        have hm := MergeInv.merge arena a b rest T L N total S h (by omega)
        have hl := (pqInsert_perm (arena.length, mergedNode a b) rest).length_eq
        rcases ih _ _ _ _ N total S hm (by simp at *; omega) (by simp at *; omega) with hn | ⟨a', x,
            T', L', e, hi, new, hnew⟩
        · exact .inl hn
        · exact .inr ⟨a', x, T', L', e, hi, mergedNode a b :: new, by simp [hnew]⟩

/-- The invariant holds of the Leaves. -/
theorem MergeInv.initial (leaves : List Node) (h : ∀ n ∈ leaves, n.kind = .leaf ∧ n.weight ≠ 0 ∧
    n.left = Config.nil ∧ n.right = Config.nil) :
    MergeInv leaves (initialQueue leaves) (fun i => .leaf ((leaves[i]?.getD (leafNode 0 0)).tsym))
        (fun i => [i]) leaves.length
      (leaves.map fun n => n.weight.toNat).sum (leaves.map (·.tsym)) := by
  have hp := initialQueue_perm leaves
  have hlen := hp.length_eq
  simp at hlen
  constructor
  · intro x hx
    have := hp.mem_iff.1 hx
    simp at this
    obtain ⟨n, i, hm, rfl⟩ := this
    have := List.mem_zipIdx_iff_getElem?.1 hm
    simpa using this
  · intro i n hi
    have hm : n ∈ leaves := List.mem_of_getElem? hi
    obtain ⟨h1, h2, h3, h4⟩ := h n hm
    constructor
    · rfl
    · intro _; exact ⟨by simp [hi], rfl, h2, h3, h4⟩
    · intro hk; rw [h1] at hk; simp at hk
  · simp [treeSize, hlen]
  · simp [treeLeaves, hlen]
  · refine (hp.flatMap_right _).trans ?_
    have : ((leaves.zipIdx.map fun x => (x.2,
        x.1)).flatMap fun x => [x.1]) = List.range leaves.length := by
      rw [List.flatMap_def]
      simp only [List.map_map]
      have : (((fun x : Nat × Node => [x.1]) ∘ fun x : Node × Nat => (x.2,
          x.1))) = fun x : Node × Nat => [x.2] := rfl
      rw [this]
      have : (leaves.zipIdx.map fun x : Node × Nat => [x.2]).flatten = leaves.zipIdx.map (·.2) := by
        induction leaves.zipIdx with
        | nil => rfl
        | cons x xs ih => simp [ih]
      rw [this]
      simp [List.range_eq_range']
    rw [this]
  · refine (hp.flatMap_right _).trans ?_
    have : ((leaves.zipIdx.map fun x => (x.2,
        x.1)).flatMap fun x => sideList (.leaf ((leaves[x.1]?.getD (leafNode 0 0)).tsym))) =
        leaves.map (·.tsym) := by
      have e : (fun x : Nat × Node => sideList (.leaf ((leaves[x.1]?.getD (leafNode 0 0)).tsym))) =
          fun x => [(leaves[x.1]?.getD (leafNode 0 0)).tsym] := rfl
      rw [e, ← List.map_eq_flatMap, List.map_map]
      apply List.ext_getElem <;> simp
      intro n h; simp [h]
    rw [this]
  · rw [(hp.map _).sum_eq]
    exact zipIdx_sum leaves fun n => n.weight.toNat
  · omega
  · intro h0
    have : (leaves.length - 1) ∈ (leaves.zipIdx.map fun x => (x.2, x.1)).map (·.1) := by
      simp [List.mem_zipIdx_iff_getElem?]
      exact ⟨leaves[leaves.length-1], by simp [h0]⟩
    exact (hp.map _).mem_iff.2 this

/-! ### The Leaves -/

/-- One Leaf per counted symbol, ascending (R113). -/
theorem leafNodes_eq_map (s : State) : leafNodes s.freq =
    (countedSymbols s).map fun sym => leafNode (freqAt s sym) sym := by
  have key : ∀ l : List Byte, l.filterMap (fun sym => if freqAt s sym =
      0 then none else some (leafNode (freqAt s sym) sym)) =
      (l.filter (fun sym => freqAt s sym != 0)).map fun sym => leafNode (freqAt s sym) sym := by
    intro l
    induction l with
    | nil => rfl
    | cons x xs ih =>
      by_cases h : freqAt s x = 0
      · rw [List.filterMap_cons_none (by rw [if_pos h]), List.filter_cons_of_neg (by simp [h]), ih]
      · rw [List.filterMap_cons_some (by rw [if_neg h]), List.filter_cons_of_pos (by simpa using h),
            ih]; rfl
  exact key allSymbols

/-- The counters add up to the weights of the Leaves. -/
theorem freqTotal_eq_leafWeights (s : State) : freqTotal s =
    ((leafNodes s.freq).map fun n => n.weight.toNat).sum := by
  rw [leafNodes_eq_map]
  unfold freqTotal countedSymbols
  induction allSymbols with
  | nil => rfl
  | cons x xs ih =>
    rw [List.map_cons, List.sum_cons, ih]
    by_cases h : freqAt s x = 0
    · rw [List.filter_cons_of_neg (by simp [h]), h]; simp
    · rw [List.filter_cons_of_pos (by simpa using h), List.map_cons, List.map_cons, List.sum_cons]; rfl

/-- A Leaf as BUILD makes it has a weight and no child (R113). -/
theorem leafNodes_shape (s : State) : ∀ n ∈ leafNodes s.freq, n.kind = .leaf ∧ n.weight ≠ 0 ∧
    n.left = Config.nil ∧ n.right = Config.nil := by
  intro n hn
  rw [leafNodes_eq_map] at hn
  simp only [countedSymbols, List.mem_map, List.mem_filter] at hn
  obtain ⟨x, ⟨_, hx⟩, rfl⟩ := hn
  refine ⟨rfl, ?_, rfl, rfl⟩
  show freqAt s x ≠ 0
  simpa using hx

/-- At most 256 symbols are counted. -/
theorem countedSymbols_length_le (s : State) : (countedSymbols s).length ≤ 256 := by
  have := List.length_filter_le (fun sym => freqAt s sym != 0) allSymbols
  simpa [countedSymbols, allSymbols] using this

/-- As many Leaves as counted symbols. -/
theorem leafNodes_length (s : State) : (leafNodes s.freq).length = (countedSymbols s).length := by
  rw [leafNodes_eq_map]; simp

/-- What merging one or more Leaves gives. -/
theorem mergeLeaves_cases (leaves : List Node) (h : ∀ n ∈ leaves, n.kind = .leaf ∧ n.weight ≠ 0 ∧
    n.left = Config.nil ∧ n.right = Config.nil)
    (h1 : 1 ≤ leaves.length) :
    (mergeLeaves leaves = none ∧ 0xFFFFFFFF < (leaves.map fun n => n.weight.toNat).sum) ∨
    ∃ arena root T L new, mergeLeaves leaves = some arena ∧ arena = leaves ++ new ∧
      MergeInv arena [(arena.length - 1,
          root)] T L leaves.length (leaves.map fun n => n.weight.toNat).sum (leaves.map (·.tsym)) := by
  have hi := MergeInv.initial leaves h
  have hl := (initialQueue_perm leaves).length_eq
  simp at hl
  rcases mergeLoop_keeps leaves.length _ _ _ _ _ _ _ hi (by omega) (by omega) with hn | ⟨a, x, T, L,
      e, hm, new, hnew⟩
  · exact .inl hn
  · refine .inr ⟨a, x.2, T, L, new, e, hnew, ?_⟩
    have : x.1 = a.length - 1 := by
      have := hm.last (by rw [hnew]; simp; omega)
      simp at this; exact this.symm
    rw [← this]; exact hm

/-! ### The tree in the arena -/

/-- A node of the arena reads as its tree, and the walk meets its indices. -/
theorem readTree_of_nodes (arena : List Node) (e : Nat) (T : Nat → Tree) (L : Nat → List Nat)
    (h : ∀ i n, arena[i]? = some n → ArenaNode arena T L i n) (hl : arena.length ≤ 511) :
    ∀ (fuel i : Nat), i < arena.length → treeHeight (T i) ≤ fuel →
      readTree { entries := arena, epoch := e } fuel (BitVec.ofNat 9 i) = some (T i) ∧
      indicesBelow { entries := arena, epoch := e } fuel (BitVec.ofNat 9 i) = L i := by
  intro fuel
  induction fuel with
  | zero =>
    intro i hi hh
    have := (h i _ (List.getElem?_eq_getElem hi)).full
    cases hT : T i with
    | absent => rw [hT] at this; simp [fullTree] at this
    | leaf s => rw [hT] at hh; simp [treeHeight] at hh
    | internal l r => rw [hT] at hh; simp [treeHeight] at hh
  | succ fuel ih =>
    intro i hi hh
    have ok := h i _ (List.getElem?_eq_getElem hi)
    have hne := ofNat_ne_nil i (by omega)
    have hto : (BitVec.ofNat 9 i).toNat = i := by simp; omega
    have hat : nodeAt { entries := arena, epoch := e } (BitVec.ofNat 9 i) = arena[i] := by
      unfold nodeAt
      rw [hto, List.getElem?_eq_getElem hi]
    cases hk : arena[i].kind with
    | leaf =>
      obtain ⟨h1, h2, _⟩ := ok.leaf hk
      simp [readTree, indicesBelow, hne, hat, hk, h1, h2]; omega
    | internal =>
      obtain ⟨l, r, nl, nr, h1, h2, h3, h4, h5, h6, h7, h8, h9, h10⟩ := ok.internal hk
      rw [h7] at hh; simp [treeHeight] at hh
      have il := ih l (by omega) (by omega)
      have ir := ih r (by omega) (by omega)
      simp [readTree, indicesBelow, hne, hat, hk, h5, h6, il, ir, h7, h8]
      omega

/-- A known entry is read as it stands. -/
theorem nodeAt_of_entries (arena : List Node) (e i : Nat) (h : i < arena.length) (hl :
    arena.length ≤ 511) :
    nodeAt { entries := arena, epoch := e } (BitVec.ofNat 9 i) = arena[i] := by
  unfold nodeAt
  have : (BitVec.ofNat 9 i).toNat = i := by simp; omega
  rw [this, List.getElem?_eq_getElem h]

/-- Everything BUILD can do (R113 to R120). -/
theorem runBuild_cases (s : State) :
    (countedSymbols s = [] ∧ runBuild s = .raised .emptyInput 0 (dropTree (setStage .build s))) ∨
    (∃ sym, countedSymbols s = [sym] ∧
        runBuild s = .done (setTree [leafNode (freqAt s sym) sym,
        wrapperNode (leafNode (freqAt s sym) sym)] 1 1 (setStage .build s))) ∨
    (2 ≤ (countedSymbols s).length ∧ 0xFFFFFFFF < freqTotal s ∧
        runBuild s = .raised .capacityExceeded 1 (dropTree (setStage .build s))) ∨
    (2 ≤ (countedSymbols s).length ∧ freqTotal s ≤ 0xFFFFFFFF ∧ ∃ arena root T L new,
      arena = leafNodes s.freq ++ new ∧
          MergeInv arena [(arena.length - 1,
          root)] T L (countedSymbols s).length (freqTotal s) (countedSymbols s) ∧
      runBuild s = .done (setTree arena (arena.length - 1) (countedSymbols s).length
          (setStage .build s))) := by
  have hleaves := leafNodes_eq_map s
  cases hc : countedSymbols s with
  | nil =>
    rw [hc] at hleaves
    left
    refine ⟨rfl, ?_⟩
    simp [runBuild, hleaves]
  | cons x xs =>
    cases xs with
    | nil =>
      rw [hc] at hleaves
      right; left
      refine ⟨x, rfl, ?_⟩
      simp [runBuild, hleaves]
    | cons y ys =>
      right; right
      have hlen := leafNodes_length s
      rw [hc] at hlen hleaves
      have hrun : runBuild s = match mergeLeaves (leafNodes s.freq) with
        | none => .raised .capacityExceeded 1 (dropTree (setStage .build s))
        | some arena => .done (setTree arena (arena.length - 1) (leafNodes s.freq).length
            (setStage .build s)) := by
        simp [runBuild, hleaves] <;> rfl
      rcases mergeLeaves_cases (leafNodes s.freq) (leafNodes_shape s) (by rw [hlen]; simp) with ⟨h1,
          h2⟩ | ⟨arena, root, T, L, new, h1, h2, h3⟩
      · left
        refine ⟨by simp, by rw [freqTotal_eq_leafWeights]; exact h2, by rw [hrun, h1]⟩
      · right
        rw [← freqTotal_eq_leafWeights, hlen] at h3
        have hsy : (leafNodes s.freq).map (·.tsym) = x :: y :: ys := by
            rw [hleaves, List.map_map]; exact List.map_id _
        rw [hsy] at h3
        refine ⟨by simp, ?_, arena, root, T, L, new, h2, h3, by rw [hrun, h1, hlen]⟩
        have := h3.weights
        have := root.weight.isLt
        simp at *; omega

/-! ### The order of merging -/

/-- The key order is transitive where it fails (R111). -/
theorem keyLt_false_trans {x y z : Node} (h1 : keyLt y x = false) (h2 : keyLt z y = false) :
    keyLt z x = false := by
  simp [keyLt] at *
  bv_omega

/-- Of two keys at most one is less than the other (R111). -/
theorem keyLt_asymm {x y : Node} (h : keyLt x y = true) : keyLt y x = false := by
  simp [keyLt] at *
  bv_omega

/-- Of two nodes with different `tsym` one has the lesser key (R119). -/
theorem lesserKey_of_keyLt {x y : Node} (h : keyLt y x = false) (hne : x.tsym ≠ y.tsym) : LesserKey x y := by
  have hn : x.tsym.toNat ≠ y.tsym.toNat := fun e => hne (BitVec.eq_of_toNat_eq e)
  simp [keyLt] at h
  unfold LesserKey
  bv_omega

/-- Inserting keeps the queue rising by the key, so that its head is a least member (R112). -/
theorem pqInsert_rising (x : Nat × Node) (q : List (Nat × Node))
    (hq : q.Pairwise fun y z => keyLt z.2 y.2 = false) :
    (pqInsert x q).Pairwise fun y z => keyLt z.2 y.2 = false := by
  induction q with
  | nil => simp [pqInsert]
  | cons y ys ih =>
    rw [List.pairwise_cons] at hq
    unfold pqInsert
    split
    · next h =>
      have hxy : keyLt y.2 x.2 = false := keyLt_asymm h
      refine List.pairwise_cons.2 ⟨fun z hz => ?_, List.pairwise_cons.2 hq⟩
      rcases List.mem_cons.1 hz with rfl | hz
      · exact hxy
      · exact keyLt_false_trans hxy (hq.1 z hz)
    · next h =>
      refine List.pairwise_cons.2 ⟨fun z hz => ?_, ih hq.2⟩
      rcases List.mem_cons.1 ((pqInsert_perm x ys).mem_iff.1 hz) with rfl | hz
      · simpa using h
      · exact hq.1 z hz

/-- Node `j` of the arena stands before `k` and is a child of no node before `k`. -/
def freeBefore (arena : List Node) (k j : Nat) : Prop :=
  j < k ∧ ∀ m n, m < k → arena[m]? = some n → n.left ≠ BitVec.ofNat 9 j ∧ n.right ≠ BitVec.ofNat 9 j

/-- Internal node `k` was made of the two free nodes with the least keys, the least as left child (R114). -/
def MergedLeast (arena : List Node) (k : Nat) (n : Node) : Prop :=
  ∃ a b na nb, n.left = BitVec.ofNat 9 a ∧ n.right = BitVec.ofNat 9 b ∧
    arena[a]? = some na ∧ arena[b]? = some nb ∧ freeBefore arena k a ∧ freeBefore arena k b ∧
    LesserKey na nb ∧
    ∀ j nj, arena[j]? = some nj → freeBefore arena k j → j ≠ a → j ≠ b → LesserKey nb nj

/-- The order part of the merge loop's invariant: the queue rises by the key, its members have pairwise
different `tsym` (R119) and are the free nodes, and every Internal node was made of the least (R114). -/
structure MergeOrder (arena : List Node) (q : List (Nat × Node)) : Prop where
  rising : q.Pairwise fun y z => keyLt z.2 y.2 = false
  distinct : q.Pairwise fun y z => y.2.tsym ≠ z.2.tsym
  mem : ∀ x ∈ q, arena[x.1]? = some x.2
  free : ∀ j, j < arena.length → (freeBefore arena arena.length j ↔ j ∈ q.map (·.1))
  made : ∀ (k : Nat) (n : Node), arena[k]? = some n → n.kind = .internal → MergedLeast arena k n
  leaf : ∀ (k : Nat) (n : Node), arena[k]? = some n → n.kind = .leaf → n.left = Config.nil ∧ n.right = Config.nil
  bound : arena.length + q.length ≤ 512

/-- Which nodes before `k` are free does not change as the arena grows. -/
theorem freeBefore_append (arena : List Node) (n : Node) (k j : Nat) (hk : k ≤ arena.length) :
    freeBefore (arena ++ [n]) k j ↔ freeBefore arena k j := by
  unfold freeBefore
  refine and_congr_right fun _ => forall_congr' fun m => forall_congr' fun n' => ?_
  refine imp_congr_right fun hm => ?_
  rw [List.getElem?_append_left (by omega)]

/-- Indices below 512 are told apart by their 9 bits. -/
theorem ofNat9_inj {a b : Nat} (ha : a < 512) (hb : b < 512) (h : BitVec.ofNat 9 a = BitVec.ofNat 9 b) :
    a = b := by
  have := congrArg BitVec.toNat h
  simp at this
  omega

/-- A node that is not there yet is a child of none. -/
theorem MergeOrder.child_ne {arena : List Node} {q : List (Nat × Node)} (h : MergeOrder arena q)
    {m j : Nat} {n : Node} (hm : arena[m]? = some n) (h1 : arena.length ≤ j) (h2 : j < 511) :
    n.left ≠ BitVec.ofNat 9 j ∧ n.right ≠ BitVec.ofNat 9 j := by
  have hml := (List.getElem?_eq_some_iff.1 hm).1
  cases hk : n.kind with
  | leaf =>
    obtain ⟨e1, e2⟩ := h.leaf m n hm hk
    rw [e1, e2]
    exact ⟨(ofNat_ne_nil j h2).symm, (ofNat_ne_nil j h2).symm⟩
  | internal =>
    obtain ⟨a, b, _, _, e1, e2, _, _, f1, f2, _, _⟩ := h.made m n hm hk
    have := f1.1
    have := f2.1
    rw [e1, e2]
    exact ⟨fun e => by have := ofNat9_inj (by omega) (by omega) e; omega,
      fun e => by have := ofNat9_inj (by omega) (by omega) e; omega⟩

/-- One round of the loop keeps the order. -/
theorem MergeOrder.merge {arena : List Node} {a b : Nat × Node} {rest : List (Nat × Node)}
    (h : MergeOrder arena (a :: b :: rest)) :
    MergeOrder (arena ++ [mergedNode a b]) (pqInsert (arena.length, mergedNode a b) rest) := by
  have hp := pqInsert_perm (arena.length, mergedNode a b) rest
  have hbd := h.bound
  simp at hbd
  have lt : ∀ x ∈ (a :: b :: rest), x.1 < arena.length := fun x hx =>
    (List.getElem?_eq_some_iff.1 (h.mem x hx)).1
  have hal := lt a (by simp)
  have hbl := lt b (by simp)
  have ha := h.mem a (by simp)
  have hb := h.mem b (by simp)
  have ext : ∀ i n, arena[i]? = some n → (arena ++ [mergedNode a b])[i]? = some n := fun i n hi => by
    rw [List.getElem?_append_left (List.getElem?_eq_some_iff.1 hi).1]; exact hi
  obtain ⟨ra, rr⟩ := List.pairwise_cons.1 h.rising
  obtain ⟨rb, rrest⟩ := List.pairwise_cons.1 rr
  obtain ⟨da, dr⟩ := List.pairwise_cons.1 h.distinct
  obtain ⟨db, drest⟩ := List.pairwise_cons.1 dr
  have same : ∀ x ∈ (a :: b :: rest), ∀ y ∈ (a :: b :: rest), x.1 = y.1 → x.2 = y.2 := by
    intro x hx y hy e
    have h1 := h.mem x hx
    rw [e, h.mem y hy] at h1
    exact (Option.some.inj h1).symm
  constructor
  · exact pqInsert_rising _ _ rrest
  · refine (hp.pairwise_iff (fun {x y} h => fun e => h e.symm)).2 (List.pairwise_cons.2 ⟨?_, drest⟩)
    intro z hz
    show minSym a.2.tsym b.2.tsym ≠ z.2.tsym
    unfold minSym
    split
    · exact da z (by simp [hz])
    · exact db z hz
  · intro x hx
    rcases List.mem_cons.1 (hp.mem_iff.1 hx) with rfl | hx
    · simp
    · exact ext _ _ (h.mem x (by simp [hx]))
  · intro j hj
    simp at hj
    have hq : j ∈ (pqInsert (arena.length, mergedNode a b) rest).map (·.1) ↔
        j = arena.length ∨ j ∈ rest.map (·.1) := by
      rw [(hp.map _).mem_iff]; simp
    rw [hq]
    have hn : freeBefore (arena ++ [mergedNode a b]) (arena ++ [mergedNode a b]).length j ↔
        (j = arena.length ∨ freeBefore arena arena.length j) ∧ j ≠ a.1 ∧ j ≠ b.1 := by
      have last : (arena ++ [mergedNode a b])[arena.length]? = some (mergedNode a b) := by simp
      constructor
      · rintro ⟨h1, h2⟩
        have hm := h2 arena.length _ (by simp) last
        refine ⟨?_, fun e => hm.1 (by rw [e]; rfl), fun e => hm.2 (by rw [e]; rfl)⟩
        by_cases hja : j = arena.length
        · exact .inl hja
        · exact .inr ⟨by omega, fun m n hml hmn => h2 m n (by simp; omega) (ext _ _ hmn)⟩
      · rintro ⟨h1, h2, h3⟩
        refine ⟨by simpa using hj, fun m n hm hmn => ?_⟩
        simp at hm
        by_cases hml : m = arena.length
        · subst hml
          rw [last] at hmn
          obtain rfl := Option.some.inj hmn
          exact ⟨fun e => h2 (ofNat9_inj (by omega) (by omega) e).symm,
            fun e => h3 (ofNat9_inj (by omega) (by omega) e).symm⟩
        · rw [List.getElem?_append_left (by omega)] at hmn
          rcases h1 with rfl | h1
          · exact h.child_ne hmn (by omega) (by omega)
          · exact h1.2 m n (by omega) hmn
    rw [hn]
    constructor
    · rintro ⟨h1 | h1, h2, h3⟩
      · exact .inl h1
      · have := (h.free j h1.1).1 h1
        simp [h2, h3] at this
        exact .inr (by simpa using this)
    · rintro (rfl | h1)
      · exact ⟨.inl rfl, by omega, by omega⟩
      · obtain ⟨x, hx, rfl⟩ := List.mem_map.1 h1
        refine ⟨.inr ((h.free x.1 (lt x (by simp [hx]))).2
          (List.mem_map.2 ⟨x, by simp [hx], rfl⟩)), fun e => ?_, fun e => ?_⟩
        · exact da x (by simp [hx]) (congrArg Node.tsym (same x (by simp [hx]) a (by simp) e)).symm
        · exact db x hx (congrArg Node.tsym (same x (by simp [hx]) b (by simp) e)).symm
  · intro k n hk hki
    by_cases hlt : k < arena.length
    · rw [List.getElem?_append_left hlt] at hk
      obtain ⟨x, y, nx, ny, e1, e2, m1, m2, f1, f2, l1, l2⟩ := h.made k n hk hki
      refine ⟨x, y, nx, ny, e1, e2, ext _ _ m1, ext _ _ m2, (freeBefore_append _ _ _ _ (by omega)).2 f1,
        (freeBefore_append _ _ _ _ (by omega)).2 f2, l1, fun j nj hj hf => ?_⟩
      have hf := (freeBefore_append _ _ _ _ (by omega)).1 hf
      rw [List.getElem?_append_left (by have := hf.1; omega)] at hj
      exact l2 j nj hj hf
    · have : k = arena.length := by
        have := (List.getElem?_eq_some_iff.1 hk).1
        simp at this; omega
      subst this
      have : n = mergedNode a b := by simpa using hk.symm
      subst this
      have fr : ∀ j, j < arena.length →
          (freeBefore (arena ++ [mergedNode a b]) arena.length j ↔ j ∈ (a :: b :: rest).map (·.1)) :=
        fun j hj => (freeBefore_append _ _ _ _ (by omega)).trans (h.free j hj)
      refine ⟨a.1, b.1, a.2, b.2, rfl, rfl, ext _ _ ha, ext _ _ hb, (fr _ hal).2 (by simp),
        (fr _ hbl).2 (by simp), lesserKey_of_keyLt (ra b (by simp)) (da b (by simp)),
        fun j nj hj hf h1 h2 => ?_⟩
      have hm := (fr j hf.1).1 hf
      simp only [List.map_cons, List.mem_cons, h1, h2, false_or] at hm
      obtain ⟨x, hx, rfl⟩ := List.mem_map.1 hm
      rw [List.getElem?_append_left hf.1, h.mem x (by simp [hx])] at hj
      obtain rfl := Option.some.inj hj
      exact lesserKey_of_keyLt (rb x hx) (db x hx)
  · intro k n hk hkl
    by_cases hlt : k < arena.length
    · rw [List.getElem?_append_left hlt] at hk
      exact h.leaf k n hk hkl
    · have : k = arena.length := by
        have := (List.getElem?_eq_some_iff.1 hk).1
        simp at this; omega
      subst this
      have : n = mergedNode a b := by simpa using hk.symm
      subst this
      simp [mergedNode] at hkl
  · have := hp.length_eq
    simp at *; omega

/-- The arena the loop leaves was merged in order. -/
theorem mergeLoop_order : ∀ (fuel : Nat) (q : List (Nat × Node)) (arena arena' : List Node),
    MergeOrder arena q → mergeLoop fuel q arena = some arena' → ∃ q', MergeOrder arena' q' := by
  intro fuel
  induction fuel with
  | zero =>
    intro q arena arena' h he
    simp only [mergeLoop, Option.some.injEq] at he
    exact ⟨q, he ▸ h⟩
  | succ fuel ih =>
    intro q arena arena' h he
    match q, h with
    | [], h => simp only [mergeLoop, Option.some.injEq] at he; exact ⟨_, he ▸ h⟩
    | [x], h => simp only [mergeLoop, Option.some.injEq] at he; exact ⟨_, he ▸ h⟩
    | a :: b :: rest, h =>
      unfold mergeLoop at he
      split at he
      · simp at he
      · exact ih _ _ _ h.merge he

/-- The Leaves stand in the first queue in order. -/
theorem MergeOrder.initial (leaves : List Node)
    (h : ∀ n ∈ leaves, n.kind = .leaf ∧ n.left = Config.nil ∧ n.right = Config.nil)
    (hd : (leaves.map (·.tsym)).Nodup) (hl : leaves.length ≤ 256) :
    MergeOrder leaves (initialQueue leaves) := by
  have hp := initialQueue_perm leaves
  have hlen := hp.length_eq
  simp at hlen
  have hidx : ((leaves.zipIdx.map fun x => (x.2, x.1)).map (·.1)) = List.range leaves.length := by
    apply List.ext_getElem <;> simp
  constructor
  · unfold initialQueue
    have : ∀ (l : List (Node × Nat)) (q : List (Nat × Node)),
        (q.Pairwise fun y z => keyLt z.2 y.2 = false) →
        (l.foldl (fun q x => pqInsert (x.2, x.1) q) q).Pairwise fun y z => keyLt z.2 y.2 = false := by
      intro l
      induction l with
      | nil => exact fun q h => h
      | cons x xs ih => exact fun q h => ih _ (pqInsert_rising _ _ h)
    exact this _ _ List.Pairwise.nil
  · refine (hp.pairwise_iff (fun {x y} h => fun e => h e.symm)).2 ?_
    have e : ((leaves.zipIdx.map fun x => (x.2, x.1)).map fun x => x.2.tsym) = leaves.map (·.tsym) := by
      apply List.ext_getElem <;> simp
    rw [← e] at hd
    exact List.pairwise_map.1 hd
  · intro x hx
    have := hp.mem_iff.1 hx
    simp at this
    obtain ⟨n, i, hm, rfl⟩ := this
    simpa using List.mem_zipIdx_iff_getElem?.1 hm
  · intro j hj
    rw [(hp.map _).mem_iff, hidx]
    refine ⟨fun _ => List.mem_range.2 hj, fun _ => ⟨hj, fun m n _ hm => ?_⟩⟩
    obtain ⟨_, e1, e2⟩ := h n (List.mem_of_getElem? hm)
    rw [e1, e2]
    exact ⟨(ofNat_ne_nil j (by omega)).symm, (ofNat_ne_nil j (by omega)).symm⟩
  · intro k n hk hki
    rw [(h n (List.mem_of_getElem? hk)).1] at hki
    cases hki
  · exact fun k n hk _ => (h n (List.mem_of_getElem? hk)).2
  · omega

/-- In the tree BUILD makes every Internal node with two children was made of the two free nodes with the
least keys (R110, R111, R114). -/
theorem runBuild_order {s u : State} (he : runBuild s = .done u) {k : Nat} {n : Node}
    (hk : u.nodes.entries[k]? = some n) (hi : n.kind = .internal) (hr : n.right ≠ Config.nil) :
    MergedLeast u.nodes.entries k n := by
  have hl := leafNodes_length s
  have hc := countedSymbols_length_le s
  have hd : ((leafNodes s.freq).map (·.tsym)).Nodup := by
    have e : (leafNodes s.freq).map (·.tsym) = countedSymbols s := by
      rw [leafNodes_eq_map, List.map_map]; exact List.map_id _
    have hall : allSymbols.Nodup := by decide +kernel
    exact e ▸ hall.filter _
  have order := MergeOrder.initial (leafNodes s.freq)
    (fun n hn => ⟨(leafNodes_shape s n hn).1, (leafNodes_shape s n hn).2.2⟩) hd (by omega)
  have hf : (setStage .build s).freq = s.freq := rfl
  unfold runBuild at he
  simp only [hf] at he
  split at he
  · simp at he
  · next leaf hq =>
    simp only [Ran.done.injEq] at he
    subst he
    match k, hk with
    | 0, hk =>
      obtain rfl := Option.some.inj hk
      rw [(leafNodes_shape s _ (hq ▸ List.mem_singleton.2 rfl)).1] at hi
      cases hi
    | 1, hk => obtain rfl := Option.some.inj hk; exact absurd rfl hr
    | _ + 2, hk => simp [setTree] at hk
  · split at he
    · simp at he
    · next arena ha =>
      simp only [Ran.done.injEq] at he
      subst he
      obtain ⟨q, h⟩ := mergeLoop_order _ _ _ _ order ha
      exact h.made k n hk hi

end Sys2Proof.Machine
end

