-- ==== Sys2Proof/Laws/Codec.lean ====
section
/-! SUPPORT. Laws/Codec.lean: the loops of ENC and DEC on whole codes (46_encoder.md R176,
    47_decoder.md R186). -/

namespace Sys2Proof.Machine

open Sys2Proof.Safety

/-- `BUF_CAP` is from 1024 to 2^28 (00_scope.md R6). -/
theorem bufCap_bounds : 1024 ≤ Config.bufCap ∧ Config.bufCap ≤ 2^28 := by
  unfold Config.bufCap
  have := Config.bufCapSlack.isLt
  omega

/-! ### ENC -/

/-- The payload of bytes that are all encoded has as many bits as their codes together (R180). -/
theorem codeTotal_eq_length (s : State) (l : List Byte) :
    (l.flatMap fun x => (codeAt s x).getD []).length = codeTotal s l := by
  induction l with
  | nil => rfl
  | cons x xs ih =>
    rw [List.flatMap_cons, List.length_append, ih]
    simp only [codeTotal, List.map_cons, List.sum_cons]
    congr 1
    unfold codeLen
    split
    · next h => simp [h]
    · next h => simp [h]

/-- Bytes that all have a code and whose codes fit are encoded one after another (R176). -/
theorem encodeLoop_append (cap : Nat) (s : State) : ∀ (done rest : List Byte) (i : Nat) (sofar :
    BitSeq),
    (∀ y ∈ done, codeValid s y = true) → sofar.length + codeTotal s done ≤ 8 * cap →
    encodeLoop cap s.code i (done ++ rest) sofar =
      encodeLoop cap s.code (i + done.length) rest (sofar ++ done.flatMap fun x =>
          (codeAt s x).getD []) := by
  intro done
  induction done with
  | nil => intro rest i sofar _ _; simp
  | cons x xs ih =>
    intro rest i sofar hv hc
    have hx := hv x (by simp)
    obtain ⟨c, hx⟩ := Option.isSome_iff_exists.1 hx
    have hx' : s.code[x.toNat]'x.isLt = some c := hx
    have hl : codeLen s x = c.length := by simp [codeLen, hx]
    simp [codeTotal, hl] at hc
    rw [List.cons_append, encodeLoop, hx']
    simp only
    rw [if_neg (by omega), ih rest (i+1) (sofar ++ c) (fun y hy => hv y (by simp [hy]))
        (by simp [codeTotal]; omega)]
    simp [hx]; congr 1; omega

/-! ### DEC -/

/-- What `setOut` leaves in `OUT_MEM` and `OUT_LEN`. -/
theorem outBytes_setOut (bs : List Byte) (h : bs.length < 2^29) (s : State) :
    outBytes (setOut bs s) = bs ∧ (setOut bs s).outLen.toNat = bs.length := by
  have e : (setOut bs s).outLen.toNat = bs.length := by simp; omega
  refine ⟨?_, e⟩
  unfold outBytes
  rw [e]
  simp only [setOut_outMem]
  rw [memBytes_memLoad]

/-- From an Internal node, a path to a Leaf stores its symbol and returns to the root (R186). -/
theorem decodeLoop_path (cap : Nat) (t : Arena) (root : NodeIdx) : ∀ (p : BitSeq) (l r :
    Tree) (cur : NodeIdx) (sym : Byte) (rest : BitSeq) (out : List Byte),
    Reads t cur (.internal l r) → leafAt (.internal l r) p sym →
    decodeLoop cap t root (p ++ rest) cur out = if out.length = cap then .raise .capacityExceeded 4
      else decodeLoop cap t root rest root (out ++ [sym]) := by
  intro p
  induction p with
  | nil => intro l r cur sym rest out _ h; simp [leafAt] at h
  | cons b p ih =>
    intro l r cur sym rest out hr h
    obtain ⟨h1, h2, h3, h4⟩ := Reads.isInternal hr
    have key : ∀ (z : Tree) (nx : NodeIdx), childAt t cur b = nx → Reads t nx z → leafAt z p sym →
       decodeLoop cap t root (b :: p ++ rest) cur out = if out.length =
           cap then .raise .capacityExceeded 4
      else decodeLoop cap t root rest root (out ++ [sym]) := by
      intro z nx hnx hz hl
      rw [List.cons_append, decodeLoop]
      simp only [hnx]
      cases z with
      | absent => exact absurd hl (leafAt_absent _ _)
      | leaf y =>
        obtain ⟨g1, g2, g3⟩ := Reads.isLeaf hz
        obtain ⟨rfl, rfl⟩ := (leafAt_leaf _ _ _).1 hl
        simp [g1, g2, g3]
      | internal l' r' =>
        obtain ⟨g1, g2, g3⟩ := Reads.isInternal hz
        simp only [g1, g2, if_false]
        exact ih l' r' nx sym rest out hz hl
    cases b with
    | false => exact key l _ rfl h3 h
    | true => exact key r _ rfl h4 h

/-- A sequence of root-to-Leaf paths stores the symbols of their Leaves (R186). -/
theorem decodeLoop_paths (cap : Nat) (t : Arena) (root : NodeIdx) (l r : Tree) (hr :
    Reads t root (.internal l r)) :
    ∀ (es : List (BitSeq × Byte)) (rest : BitSeq) (out : List Byte), (∀ e ∈ es,
        leafAt (.internal l r) e.1 e.2) →
    out.length + es.length ≤ cap →
    decodeLoop cap t root (es.flatMap (fun e => e.1) ++ rest) root out =
        decodeLoop cap t root rest root (out ++ es.map (fun e => e.2)) := by
  intro es
  induction es with
  | nil => intro rest out _ _; simp
  | cons e es ih =>
    intro rest out h hc
    simp at hc
    rw [List.flatMap_cons, List.append_assoc,
        decodeLoop_path cap t root e.1 l r root e.2 _ out hr (h e (by simp)),
      if_neg (by omega), ih rest (out ++ [e.2]) (fun e' he => h e' (by simp [he])) (by simp; omega)]
    simp

/-- A decoding that ends without a raise has read no bit at the root, or a path to a Leaf first. -/
theorem decodeLoop_symbols (cap : Nat) (t : Arena) (root : NodeIdx) (R : Tree) (hR :
    Reads t root R) : ∀ (p : BitSeq) (l r : Tree) (cur : NodeIdx) (out bs : List Byte),
    treeSize (.internal l r) ≤ treeSize R →
    Reads t cur (.internal l r) → decodeLoop cap t root p cur out = .symbols bs →
    (p = [] ∧ cur = root ∧ bs = out) ∨ ∃ q sym rest, p = q ++ rest ∧ q ≠ [] ∧
        leafAt (.internal l r) q sym ∧ out.length ≠ cap ∧
      decodeLoop cap t root rest root (out ++ [sym]) = .symbols bs := by
  intro p
  induction p with
  | nil =>
    intro l r cur out bs _ hr h
    simp only [decodeLoop] at h
    split at h
    · next hc => exact .inl ⟨rfl, hc, by simpa using h.symm⟩
    · simp at h
  | cons b p ih =>
    intro l r cur out bs hsz hr h
    right
    obtain ⟨h1, h2, h3, h4⟩ := Reads.isInternal hr
    simp only [decodeLoop] at h
    split at h
    · simp at h
    · next hne =>
      have hz : ∃ z, Reads t (childAt t cur b) z ∧ treeSize z < treeSize (.internal l r) ∧
          ∀ q sym, leafAt z q sym → leafAt (.internal l r) (b :: q) sym := by
        cases b with
        | false => exact ⟨l, h3, by simp only [treeSize]; omega, fun q sym hl => hl⟩
        | true => exact ⟨r, h4, by simp only [treeSize]; omega, fun q sym hl => hl⟩
      obtain ⟨z, hz, hlt, hq⟩ := hz
      split at h
      · next hk =>
        split at h
        · simp at h
        · next hc =>
          cases z with
          | absent => exact absurd (Reads.isNil hz) hne
          | internal _ _ => have := (Reads.isInternal hz).2.1; rw [hk] at this; simp at this
          | leaf y =>
            refine ⟨[b], y, p, rfl, by simp, hq [] y ((leafAt_leaf _ _ _).2 ⟨rfl, rfl⟩), hc, ?_⟩
            rw [← (Reads.isLeaf hz).2.2]; exact h
      · next hk =>
        cases z with
        | absent => exact absurd (Reads.isNil hz) hne
        | leaf _ => have := (Reads.isLeaf hz).2.1; rw [hk] at this; simp at this
        | internal l' r' =>
          rcases ih l' r' _ out bs (by omega) hz h with ⟨rfl, hc, rfl⟩ | ⟨q, sym, rest, rfl, _, hl,
              hc, hd⟩
          · rw [hc] at hz
            have := Reads.unique t _ _ _ hz hR
            rw [this] at hlt; omega
          · exact ⟨b :: q, sym, rest, rfl, by simp, hq q sym hl, hc, hd⟩

/-- A decoding that ends without a raise has read a sequence of root-to-Leaf paths (R187). -/
theorem decodeLoop_whole (cap : Nat) (t : Arena) (root : NodeIdx) (l r : Tree) (hR :
    Reads t root (.internal l r)) : ∀ (n : Nat) (p : BitSeq) (out bs : List Byte),
    p.length = n → out.length ≤ cap → decodeLoop cap t root p root out = .symbols bs →
    ∃ es : List (BitSeq × Byte), (∀ e ∈ es, leafAt (.internal l r) e.1 e.2) ∧
        p = es.flatMap (fun e => e.1) ∧ bs = out ++ es.map (fun e => e.2) ∧ bs.length ≤ cap := by
  intro n
  induction n using Nat.strong_induction_on with
  | _ n ih =>
    intro p out bs hn hc h
    rcases decodeLoop_symbols cap t root _ hR p l r root out bs le_rfl hR h with ⟨rfl, _, rfl⟩ | ⟨q,
        sym, rest, rfl, hq, hl, hlen, hd⟩
    · exact ⟨[], by simp, rfl, by simp, hc⟩
    · have hq' : 0 < q.length := List.length_pos_iff.2 hq
      simp at hn
      obtain ⟨es, g1, g2, g3, g4⟩ := ih rest.length (by omega) rest (out ++ [sym]) bs rfl
          (by simp; omega) hd
      refine ⟨(q, sym) :: es, ?_, by simp [← g2], by simp [g3], g4⟩
      intro e he
      rcases List.mem_cons.1 he with rfl | he
      · exact hl
      · exact g1 e he

/-- Bits that end below the root at an Internal node raise `DecodeDesync(1)` (R187). -/
theorem decodeLoop_inside (cap : Nat) (t : Arena) (root : NodeIdx) (R : Tree) (hR :
    Reads t root R) : ∀ (p : BitSeq) (l r : Tree) (cur : NodeIdx) (out : List Byte),
    Reads t cur (.internal l r) → internalAt (.internal l r) p →
        treeSize (.internal l r) ≤ treeSize R → (p = [] → cur ≠ root) →
    decodeLoop cap t root p cur out = .raise .decodeDesync 1 := by
  intro p
  induction p with
  | nil => intro l r cur out _ _ _ h; simp [decodeLoop, h]
  | cons b p ih =>
    intro l r cur out hr h hs _
    obtain ⟨h1, h2, h3, h4⟩ := Reads.isInternal hr
    have key : ∀ (z : Tree), Reads t (childAt t cur b) z → internalAt z p →
        treeSize z < treeSize (.internal l r) →
       decodeLoop cap t root (b :: p) cur out = .raise .decodeDesync 1 := by
      intro z hz hl hlt
      cases z with
      | absent => cases p with
        | nil => simp [internalAt] at hl
        | cons b p => cases b <;> simp [internalAt] at hl
      | leaf y => cases p with
        | nil => simp [internalAt] at hl
        | cons b p => cases b <;> simp [internalAt] at hl
      | internal l' r' =>
        obtain ⟨g1, g2, g3⟩ := Reads.isInternal hz
        simp only [decodeLoop, g1, g2, if_false]
        refine ih l' r' _ out hz hl (by omega) ?_
        intro _ hc
        rw [hc] at hz
        have := Reads.unique t _ _ _ hz hR
        rw [this] at hlt; omega
    cases b with
    | false => exact key l h3 h (by simp only [treeSize]; omega)
    | true => exact key r h4 h (by simp only [treeSize]; omega)

/-- A bit that selects an absent child raises `DecodeDesync(2)` (R187). -/
theorem decodeLoop_absent (cap : Nat) (t : Arena) (root : NodeIdx) : ∀ (p rest : BitSeq) (l r :
    Tree) (cur : NodeIdx) (out : List Byte),
    Reads t cur (.internal l r) → absentAt (.internal l r) p →
    decodeLoop cap t root (p ++ rest) cur out = .raise .decodeDesync 2 := by
  intro p
  induction p with
  | nil => intro rest l r cur out _ h; simp [absentAt] at h
  | cons b p ih =>
    intro rest l r cur out hr h
    obtain ⟨h1, h2, h3, h4⟩ := Reads.isInternal hr
    have key : ∀ (z : Tree), Reads t (childAt t cur b) z → absentAt z p →
       decodeLoop cap t root (b :: p ++ rest) cur out = .raise .decodeDesync 2 := by
      intro z hz hl
      rw [List.cons_append]
      cases z with
      | absent => simp [decodeLoop, Reads.isNil hz]
      | leaf y => cases p with
        | nil => simp [absentAt] at hl
        | cons b p => cases b <;> simp [absentAt] at hl
      | internal l' r' =>
        obtain ⟨g1, g2, g3⟩ := Reads.isInternal hz
        simp only [decodeLoop, g1, g2, if_false]
        exact ih rest l' r' _ out hz hl
    cases b with
    | false => exact key l h3 h
    | true => exact key r h4 h

end Sys2Proof.Machine
end

