-- ==== Sys2Proof/Laws/Container.lean ====
section
/-! SUPPORT. Laws/Container.lean: the container's bytes, read back (48_container.md R200 to R204). -/

namespace Sys2Proof.Machine

open Sys2Proof.Safety

/-- `ceil8(n)` bytes hold `n` bits with fewer than 8 to spare (00_scope.md R11). -/
theorem ceil8_bounds (n : Nat) : n ≤ 8 * ceil8 n ∧ 8 * ceil8 n < n + 8 := by unfold ceil8; omega

/-- Four bytes. -/
theorem be32_length (v : Word) : (be32 v).length = 4 := rfl

/-- `rd_be32` undoes `be32` (00_scope.md R12). -/
theorem rdBe32_be32 (v : Word) : rdBe32 (v.extractLsb' 24 8) (v.extractLsb' 16 8) (v.extractLsb' 8 8)
    (v.extractLsb' 0 8) = v := by
  unfold rdBe32
  ext i hi
  simp only [BitVec.getElem_append, BitVec.getElem_extractLsb']
  split
  · simp [BitVec.getLsbD_eq_getElem, hi]
  · split
    · next h1 h2 => rw [show 8 + (i - 8) = i by omega, BitVec.getLsbD_eq_getElem hi]
    · split
      · next h1 h2 h3 => rw [show 16 + (i - 8 - 8) = i by omega, BitVec.getLsbD_eq_getElem hi]
      · next h1 h2 h3 => rw [show 24 + (i - 8 - 8 - 8) = i by omega, BitVec.getLsbD_eq_getElem hi]

/-- The container is as long as its parts (R200). -/
theorem containerBytes_length (a t p : Word) (x y z : List Byte) :
    (containerBytes a t p x y z).length = 12 + x.length + y.length + z.length := by
  simp [containerBytes, be32_length]; omega

/-- Widening keeps the number. -/
theorem setWidth_eq_ofNat {w : Nat} (x : BitVec w) : x.setWidth 32 = BitVec.ofNat 32 x.toNat := by
  apply BitVec.eq_of_toNat_eq; simp

/-- The container ASM writes is as long as R200 says. -/
theorem runAsm_length (s : State) :
    (containerBytes (s.alphaLen.setWidth 32) (s.topoBits.setWidth 32) s.payBits
        (alphaBytes s) (topoBytes s) (payBytes s)).length =
            containerLen s.alphaLen.toNat s.topoBits.toNat s.payBits.toNat := by
  rw [containerBytes_length]; simp [alphaBytes, topoBytes, payBytes, containerLen, Config.hdrLen]

/-- The first bytes of a loaded memory are the bytes loaded. -/
theorem memBytes_memLoad_of_length (bs : List Byte) (e n : Nat) (h : bs.length =
    n) : memBytes (memLoad bs e) n = bs := by
  rw [← h, memBytes_memLoad]

/-- A slice has as many bytes as asked for. -/
theorem memSlice_length (m : Memory) (a n : Nat) : (memSlice m a n).length = n := by simp [memSlice]

/-- A slice byte by byte. -/
theorem memSlice_getElem (m : Memory) (a n i : Nat) (h : i < (memSlice m a n).length) :
    (memSlice m a n)[i] = memRead m (a + i) := by simp [memSlice]

/-- Clearing the padding keeps the number of bytes. -/
theorem clearPadding_length (n : Nat) (bs : List Byte) : (clearPadding n bs).length = bs.length := by
  unfold clearPadding; split <;> simp

/-- The mask of R202 keeps the bits of the sequence and clears the others. -/
theorem paddingMask_bit (n : Nat) (b : Byte) (_hn : n % 8 ≠ 0) (i : Nat) (hi : i < 8) :
    (b &&& ((0xFF : Byte) <<< (8 - n % 8))).getLsbD (7 - i) =
        if i < n % 8 then b.getLsbD (7 - i) else false := by
  rw [BitVec.getLsbD_and, BitVec.getLsbD_shiftLeft]
  have h8 : n % 8 < 8 := Nat.mod_lt _ (by omega)
  have : ∀ j, (0xFF : Byte).getLsbD j = decide (j < 8) := by
    intro j
    by_cases hj : j < 8
    · have : ∀ j : Fin 8, (0xFF : Byte).getLsbD j = true := by decide
      rw [this ⟨j, hj⟩]; simp [hj]
    · rw [BitVec.getLsbD_of_ge _ _ (by omega)]; simp [hj]
  rw [this]
  by_cases h : i < n % 8
  · have h1 : 7 - i < 8 := by omega
    have h2 : ¬ (7 - i < 8 - n % 8) := by omega
    have h3 : 7 - i - (8 - n % 8) < 8 := by omega
    simp [h, h1, h2, h3]
  · have h2 : (7 - i < 8 - n % 8) := by omega
    simp [h, h2]

/-- The bits of a copy with its padding cleared (R204). -/
theorem getBit_clearPadding (n : Nat) (bs : List Byte) (hl : bs.length =
    ceil8 n) (k : Nat) (hk : k < 8 * ceil8 n) (e : Nat) :
    getBit (memLoad (clearPadding n bs) e) k =
        if k < n then (bs[k / 8]'(by omega)).getLsbD (7 - k % 8) else false := by
  have cb := ceil8_bounds n
  have hk8 : k / 8 < bs.length := by omega
  unfold getBit
  rw [memRead_memLoad _ _ _ (by rw [clearPadding_length]; exact hk8)]
  unfold clearPadding
  by_cases h0 : n % 8 = 0
  · have : k < n := by unfold ceil8 at hk; omega
    simp [h0, this]
  · simp only [h0, if_false]
    rw [List.getElem_modify]
    have hc : ceil8 n - 1 = n / 8 := by unfold ceil8; omega
    by_cases hlast : ceil8 n - 1 = k / 8
    · rw [if_pos hlast, paddingMask_bit n _ h0 _ (by omega)]
      have : k % 8 < n % 8 ↔ k < n := by omega
      simp [this]
    · rw [if_neg hlast]
      have : k < n := by omega
      simp [this]

/-- A slice of a memory that holds three parts one after another is the middle one. -/
theorem memSlice_of_append (m : Memory) (L pre mid post : List Byte) (hm : memBytes m L.length =
    L) (hL : L = pre ++ mid ++ post) :
    memSlice m pre.length mid.length = mid := by
  refine List.ext_getElem (by simp [memSlice]) fun i h1 h2 => ?_
  rw [memSlice_getElem]
  have hlt : pre.length + i < L.length := by rw [hL]; simp; omega
  have : memRead m (pre.length + i) = L[pre.length + i] := by
    have e := memBytes_getElem m L.length (pre.length + i) (by simpa using hlt)
    rw [← e]; simp only [hm]
  rw [this]
  simp only [hL]
  simp [List.getElem_append_right, List.getElem_append_left, h2]

/-- A header field reads as the word `be32` wrote. -/
theorem headerField_eq (m : Memory) (L pre post : List Byte) (v : Word) (hm : memBytes m L.length =
    L) (hL : L = pre ++ be32 v ++ post) :
    headerField m pre.length = v := by
  have := memSlice_of_append m L pre (be32 v) post hm hL
  have e : memSlice m pre.length (be32 v).length = [memRead m (pre.length + 0),
      memRead m (pre.length + 1), memRead m (pre.length + 2), memRead m (pre.length + 3)] := rfl
  rw [e] at this
  unfold be32 at this
  rw [List.cons.injEq, List.cons.injEq, List.cons.injEq, List.cons.injEq] at this
  obtain ⟨h0, h1, h2, h3, _⟩ := this
  unfold headerField
  rw [Nat.add_zero] at h0
  rw [h0, h1, h2, h3, rdBe32_be32]

/-- Reading a container gives its parts (R200). -/
theorem container_read (m : Memory) (a t p : Word) (x y z : List Byte) (hm :
    memBytes m (containerBytes a t p x y z).length = containerBytes a t p x y z) :
    headerField m 0 = a ∧ headerField m 4 = t ∧ headerField m 8 = p ∧ memSlice m 12 x.length = x ∧
        memSlice m (12 + x.length) y.length = y ∧
    memSlice m (12 + x.length + y.length) z.length = z := by
  refine ⟨headerField_eq m _ [] (be32 t ++ be32 p ++ x ++ y ++ z) a hm (by simp [containerBytes]),
    headerField_eq m _ (be32 a) (be32 p ++ x ++ y ++ z) t hm (by simp [containerBytes]),
    headerField_eq m _ (be32 a ++ be32 t) (x ++ y ++ z) p hm (by simp [containerBytes]),
    memSlice_of_append m _ (be32 a ++ be32 t ++ be32 p) x (y ++ z) hm (by simp [containerBytes]), ?_,
        ?_⟩
  · have := memSlice_of_append m _ (be32 a ++ be32 t ++ be32 p ++ x) y z hm (by simp [containerBytes])
    simpa [be32_length, ← Nat.add_assoc] using this
  · have := memSlice_of_append m _ (be32 a ++ be32 t ++ be32 p ++ x ++ y) z [] hm
        (by simp [containerBytes])
    simpa [be32_length, ← Nat.add_assoc] using this

/-- PARSE of an input that passes the four checks (R202). -/
theorem runParse_ok (s : State) (hl : s.inLen.toNat =
    containerLen (headerField s.inMem 0).toNat (headerField s.inMem 4).toNat
    (headerField s.inMem 8).toNat)
   (ha : (headerField s.inMem 0).toNat ≤ 256) (ht : (headerField s.inMem 4).toNat ≤ 511) :
   runParse s = .done
      (setPay (clearPadding (headerField s.inMem 8).toNat (memSlice s.inMem (Config.hdrLen +
          (headerField s.inMem 0).toNat + ceil8 (headerField s.inMem 4).toNat) (ceil8
          (headerField s.inMem 8).toNat))) (headerField s.inMem 8).toNat
        (setTopo (clearPadding (headerField s.inMem 4).toNat (memSlice s.inMem (Config.hdrLen +
            (headerField s.inMem 0).toNat) (ceil8 (headerField s.inMem 4).toNat)))
            (headerField s.inMem 4).toNat
          (setAlpha (memSlice s.inMem Config.hdrLen (headerField s.inMem 0).toNat)
              (setStage .parse s)))) := by
  unfold runParse
  have h12 : ¬ s.inLen.toNat < Config.hdrLen := by rw [hl]; unfold containerLen; omega
  rw [if_neg (by exact h12), if_neg (by exact fun n => n hl.symm), if_neg (by exact Nat.not_lt.2 ha),
      if_neg (by exact Nat.not_lt.2 ht)]
  rfl

/-- PARSE of a loaded container splits it into its parts (R202). -/
theorem parse_container (v : State) (a t p : Word) (x y z : List Byte) (hv :
    Loaded (containerBytes a t p x y z) v)
    (hx : x.length = a.toNat) (hy : y.length = ceil8 t.toNat) (hz : z.length = ceil8 p.toNat)
    (ha : a.toNat ≤ 256) (ht : t.toNat ≤ 511) :
    runParse v = .done (setPay (clearPadding p.toNat z) p.toNat (setTopo
        (clearPadding t.toNat y) t.toNat (setAlpha x (setStage .parse v)))) := by
  obtain ⟨h1, h2⟩ := hv
  have hm : memBytes v.inMem (containerBytes a t p x y z).length =
      containerBytes a t p x y z := by rw [← h1]; exact h2
  obtain ⟨e1, e2, e3, e4, e5, e6⟩ := container_read v.inMem a t p x y z hm
  have e0 : v.inLen.toNat = containerLen (headerField v.inMem 0).toNat
      (headerField v.inMem 4).toNat (headerField v.inMem 8).toNat := by
    rw [e1, e2, e3, h1, containerBytes_length, hx, hy, hz]
    rfl
  have := runParse_ok v e0 (by rw [e1]; exact ha) (by rw [e2]; exact ht)
  rw [e1, e2, e3] at this
  simp only [Config.hdrLen] at this
  rw [hx] at e4 e5 e6; rw [hy] at e5 e6; rw [hz] at e6
  rw [e4, e5, e6] at this
  exact this

end Sys2Proof.Machine
end

