-- ==== Sys2Proof/Laws/PerInstr.lean ====
section
/-! SUPPORT. Laws/PerInstr.lean: the family `Encoding`, a statement about each command as syntax. -/

namespace Sys2Proof.Laws.Encoding

/-- The command's word is well formed (30_encoding.md R80, R83): its reserved field is 0 and its opcode is
the one R81 gives; and the command itself is well formed (R82). -/
def Statement (i : Instr) : Prop :=
  i.wf = true ∧ (CommandWord.ofWord (encode i)).wf = true ∧
  (encode i).extractLsb' 8 24 = 0 ∧ (encode i).extractLsb' 0 8 = opcodeOf i

theorem clr : Statement .clr := by unfold Statement; decide +kernel
theorem hist : Statement .hist := by unfold Statement; decide +kernel
theorem build : Statement .build := by unfold Statement; decide +kernel
theorem genc : Statement .genc := by unfold Statement; decide +kernel
theorem tser : Statement .tser := by unfold Statement; decide +kernel
theorem enc : Statement .enc := by unfold Statement; decide +kernel
theorem asm : Statement .asm := by unfold Statement; decide +kernel
theorem parse : Statement .parse := by unfold Statement; decide +kernel
theorem tdes : Statement .tdes := by unfold Statement; decide +kernel
theorem dec : Statement .dec := by unfold Statement; decide +kernel
theorem comp : Statement .comp := by unfold Statement; decide +kernel
theorem decomp : Statement .decomp := by unfold Statement; decide +kernel

end Sys2Proof.Laws.Encoding
end

