-- ==== Sys2Proof/Laws/Steps.lean ====
section
/-! SUPPORT. Laws/Steps.lean: how a property that every operation keeps is kept by every command and by
every step. An invariant's proof cites `step_keeps` and, for the commands, `exec_keeps`. -/

namespace Sys2Proof.Machine

/-- A property that the stages, CLR's write and the completion keep is kept by every command. -/
theorem exec_keeps {P : State → Prop} {i : Instr} {s t : State} (h : exec i s = .next t) (hp : P s)
    (ok : ∀ c u, P u → P (completeOk c u)) (fault : ∀ k info u, P u → P (enterFault k info u))
    (clr : ∀ u, P u → P (clearAll u)) (drop : ∀ u, P u → P (dropOut u))
    (hist : ∀ u, P u → (runHist u).Leaves P) (build : ∀ u, P u → (runBuild u).Leaves P)
    (genc : ∀ u, P u → (runGenc u).Leaves P) (tser : ∀ u, P u → (runTser u).Leaves P)
    (enc : ∀ u, P u → (runEnc u).Leaves P) (asm : ∀ u, P u → (runAsm u).Leaves P)
    (parse : ∀ u, P u → (runParse u).Leaves P) (tdes : ∀ u, P u → (runTdes u).Leaves P)
    (dec : ∀ u, P u → (runDec u).Leaves P) : P t := by
  refine exec_leaves h ?_ ok fault
  cases i with
  | clr => exact clr s hp
  | hist => exact hist s hp
  | build => exact build s hp
  | genc => exact genc s hp
  | tser => exact tser s hp
  | enc => exact enc s hp
  | asm => exact asm s hp
  | parse => exact parse s hp
  | tdes => exact tdes s hp
  | dec => exact dec s hp
  | comp => exact runComp_leaves hp drop hist build genc tser enc asm
  | decomp => exact runDecomp_leaves hp drop parse tdes dec

/-- A property that every turn keeps is kept by every step: taking a turn off the agenda, a host read, the
reset event, acceptance, the three host data writes, a completion, and an illegal word. -/
theorem step_keeps {P : State → Prop} {s t : State} (h : step s = .next t) (hp : P s)
    (agenda : ∀ u rest, P u → P { u with agenda := rest })
    (read : ∀ u v n, P u → P { u with hostData := v, free := n })
    (reset : ∀ u, P (resetEvent u))
    (accept : ∀ u w ff, P u →
      (u.fsm = .idle ∧ ff = false ∨ u.fsm = .faulted ∧ ff = true ∧ w = encode .clr) →
      P { u with pending := w, fsm := .busy, fromFaulted := ff, doneFlag := false })
    (inLen : ∀ u (v : Word), u.fsm ≠ .busy → v.toNat ≤ Config.bufCap → P u →
      P { u with inLen := v.setWidth 29 })
    (inMem : ∀ u o v, o < Config.bufCap → P u → P { u with inMem := memWrite u.inMem o v })
    (freq : ∀ u o v h, P u → P { u with freq := u.freq.set o v h })
    (exec : ∀ u i, u.fsm = .busy → decode u.pending = .ok i → P u → ∀ t, exec i u = .next t → P t)
    (bad : ∀ u, u.fsm = .busy → P u → P (badCommand u)) : P t := by
  obtain ⟨u, hu, turn⟩ := step_cases h
  have hpu : P u := by
    rcases hu with ⟨rfl, _⟩ | ⟨x, rest, _, rfl⟩
    · exact hp
    · exact agenda s rest hp
  rcases turn with ⟨a, v, rfl⟩ | ⟨a, rfl⟩ | rfl | ⟨_, rfl⟩ | ⟨hb, i, hd, he⟩ | ⟨hb, _, rfl⟩
  · rcases hostWrite_cases a v u with e | ⟨h1, e⟩ | ⟨h1, h2, e⟩ | ⟨h1, h2, e⟩ | ⟨_, o, ho, e⟩ | ⟨_, o, ho, e⟩ <;>
      rw [e]
    · exact hpu
    · exact accept u v false hpu (.inl ⟨h1, rfl⟩)
    · exact accept u v true hpu (.inr ⟨h1, rfl, h2⟩)
    · exact inLen u v h1 h2 hpu
    · exact inMem u o _ ho hpu
    · exact freq u o v ho hpu
  · obtain ⟨v, n, e⟩ := hostRead_frame a u
    rw [e]
    exact read u v n hpu
  · exact reset u
  · exact hpu
  · exact exec u i hb hd hpu t he
  · exact bad u hb hpu

end Sys2Proof.Machine
end

