-- ==== Sys2Proof/Tests/Slice0.lean ====
section
/-! SUPPORT. Tests/Slice0.lean: small tests of one step each, their expected values taken from
spec/95_test_vectors.md (named V-…) or worked by hand from the rules, and for every obligation with
hypotheses a witness that meets them. -/

namespace Sys2Proof.Tests

open Sys2Proof.Machine Sys2Proof.Safety

set_option Elab.async false

/-! ### Helpers -/

/-- Bytes from numbers. -/
def bytes (l : List Nat) : List Byte := l.map (BitVec.ofNat 8)

/-- The input loaded by the host (30_encoding.md R86 `LDIN`). -/
def withInput (bs : List Byte) (s : State) : State :=
  { s with inMem := memLoad bs 0, inLen := BitVec.ofNat 29 bs.length }

/-- Counters set by the host. -/
def withFreq (l : List (Nat × Nat)) (s : State) : State :=
  { s with freq := l.foldl (fun f e => f.setIfInBounds e.1 (BitVec.ofNat 32 e.2)) (Vector.replicate 256 0) }

/-- CodeTable entries. -/
def withCode (l : List (Nat × BitSeq)) (s : State) : State :=
  { s with code := l.foldl (fun c e => c.setIfInBounds e.1 (some e.2)) (Vector.replicate 256 none) }

/-- A topology and an Alphabet. -/
def withTopo (t : BitSeq) (alpha : List Byte) (s : State) : State :=
  setAlpha alpha (setTopo (pack t) t.length s)

/-- A payload. -/
def withPay (p : BitSeq) (s : State) : State := setPay (pack p) p.length s

/-- The state a command answers with, or the state before it where it answers with none. -/
def after (i : Instr) (s : State) : State :=
  match exec i s with
  | .next t => t
  | .fault _ => s
  | .refused _ => s

/-- Whether a command answers a next state. -/
def goes (i : Instr) (s : State) : Bool :=
  match exec i s with
  | .next _ => true
  | .fault _ => false
  | .refused _ => false

theorem exec_after {i : Instr} {s : State} (h : goes i s = true) : exec i s = .next (after i s) := by
  unfold goes at h
  unfold after
  split at h
  · next t ht => rw [ht]
  · simp at h
  · simp at h

theorem faults_of {i : Instr} {s : State} (h : goes i s = true ∧ (after i s).fsm = .faulted) :
    ∃ t, exec i s = .next t ∧ t.fsm = .faulted := ⟨after i s, exec_after h.1, h.2⟩

/-- The state one step answers with. -/
def stepped (s : State) : State :=
  match step s with
  | .next t => t
  | .fault _ => s
  | .refused _ => s

theorem step_stepped {s : State} (h : (match step s with | .next _ => true | _ => false) = true) :
    step s = .next (stepped s) := by
  unfold stepped
  split at h
  · next t ht => rw [ht]
  · simp at h

/-- With nothing for the host to do and no command accepted, a step changes nothing. -/
theorem step_waits {s : State} (ha : s.agenda = []) (hf : s.fsm = .idle) : step s = .next s := by
  unfold step advance
  rw [ha]
  simp [blockTurn, hf]

/-- `STATUS`, `ERRCODE`, `ERRINFO` as the host reads them. -/
def record3 (s : State) : Nat × Nat × Nat := ((statusWord s).toNat, s.errCode.toNat, s.errInfo.toNat)

def bit (c : Char) : Bool := c == '1'
def bits (s : String) : BitSeq := s.toList.map bit

/-- "abracadabra". -/
def abra : List Byte := bytes [0x61, 0x62, 0x72, 0x61, 0x63, 0x61, 0x64, 0x61, 0x62, 0x72, 0x61]

/-- The container of "abracadabra" (V-C1). -/
def abraContainer : List Byte :=
  bytes [0, 0, 0, 5, 0, 0, 0, 9, 0, 0, 0, 0x17, 0x64, 0x63, 0x62, 0x72, 0x61, 0xF8, 0, 0x69, 0xCF, 0x68]

def leafN (sym w : Nat) : Node := leafNode (BitVec.ofNat 32 w) (BitVec.ofNat 8 sym)
def innerN (l r w t : Nat) : Node :=
  { kind := .internal, weight := BitVec.ofNat 32 w, left := BitVec.ofNat 9 l, right := BitVec.ofNat 9 r,
    tsym := BitVec.ofNat 8 t }

/-- The nodes of V-B1. -/
def abraNodes : List Node :=
  [leafN 0x61 5, leafN 0x62 2, leafN 0x63 1, leafN 0x64 1, leafN 0x72 2, innerN 2 3 2 0x63,
   innerN 1 5 4 0x62, innerN 4 6 6 0x62, innerN 0 7 11 0x61]

/-- The tree of V-B1 in the arena, its root and its counts. -/
def abraTree (s : State) : State := setTree abraNodes 8 5 s

/-- The codes of V-G1. -/
def abraCodes : List (Nat × BitSeq) :=
  [(0x61, bits "0"), (0x62, bits "110"), (0x63, bits "1110"), (0x64, bits "1111"), (0x72, bits "10")]

/-- The tree of V-B5. -/
def tieNodes : List Node :=
  [leafN 0x41 3, leafN 0x42 3, leafN 0x43 6, innerN 0 1 6 0x41, innerN 3 2 12 0x41]

/-- The wrapper of V-B2. -/
def wrapper (s : State) : State := setTree [leafN 0x61 4, innerN 0 0x1FF 4 0x61] 1 1 s

/-- The bare Leaf of V-D3. -/
def bareLeaf (s : State) : State := setTree [rebuiltLeaf 0x61] 0 1 s

abbrev r0 : State := State.reset

/-! ### WellFormed: an ill-formed word for each check -/

theorem test_wf_reserved_bit : (CommandWord.ofWord 0x00000130).rsvdOk = false := by decide
theorem test_wf_reserved_top : (CommandWord.ofWord 0x80000001).wf = false := by decide
theorem test_wf_opcode : (CommandWord.ofWord 0x00000016).opcodeOk = false := by decide
theorem test_wf_opcode_zero : (CommandWord.ofWord 0x00000000).wf = false := by decide

/-! ### Decode: words written out bit by bit from R80 and R81 -/

theorem test_decode_clr : decode 0b00000000000000000000000000000001 = .ok .clr := by decide
theorem test_decode_hist : decode 0b00000000000000000000000000010000 = .ok .hist := by decide
theorem test_decode_build : decode 0b00000000000000000000000000010001 = .ok .build := by decide
theorem test_decode_genc : decode 0b00000000000000000000000000010010 = .ok .genc := by decide
theorem test_decode_tser : decode 0b00000000000000000000000000010011 = .ok .tser := by decide
theorem test_decode_enc : decode 0b00000000000000000000000000010100 = .ok .enc := by decide
theorem test_decode_asm : decode 0b00000000000000000000000000010101 = .ok .asm := by decide
theorem test_decode_parse : decode 0b00000000000000000000000000100000 = .ok .parse := by decide
theorem test_decode_tdes : decode 0b00000000000000000000000000100001 = .ok .tdes := by decide
theorem test_decode_dec : decode 0b00000000000000000000000000100010 = .ok .dec := by decide
theorem test_decode_comp : decode 0b00000000000000000000000000110000 = .ok .comp := by decide
theorem test_decode_decomp : decode 0b00000000000000000000000000110001 = .ok .decomp := by decide
theorem test_decode_unused : decode 0x00000016 = .error (.unusedOpcode 0x00000016) := by decide
theorem test_decode_reserved : decode 0x00000130 = .error (.reservedBits 0x00000130) := by decide
theorem test_table_word : decodeTableWord 32 0x15 = some .asm := by decide
theorem test_table_word_reserved : decodeTableWord 32 0x115 = none := by decide
theorem test_table_word_short : decodeTableWord 8 0x115 = some .asm := by decide
theorem test_table_word_long : decodeTableWord 40 0x0100000015 = none := by decide

/-! ### A placed command is the next step's -/

theorem test_place_asm : step (State.reset.withFetchWord 32 0x15) =
    exec .asm { State.reset with pending := 0x15, fsm := .busy } := rfl
/-- V-Z3. -/
theorem test_place_unused : record3 (stepped (State.reset.withFetchWord 32 0x16)) = (4, 9, 0x16) := by
  decide +kernel
/-- V-Z2. -/
theorem test_place_reserved : record3 (stepped (State.reset.withFetchWord 32 0x130)) = (4, 9, 0x130) := by
  decide +kernel

/-! ### HIST -/

/-- V-H1. -/
theorem test_hist_abra :
    let t := after .hist (withInput abra r0)
    [0x61, 0x62, 0x63, 0x64, 0x72, 0x73].map (fun x => (freqAt t x).toNat) = [5, 2, 1, 1, 2, 0] ∧
    record3 t = (0x1002, 0, 0) := by decide +kernel
/-- V-H4. -/
theorem test_hist_empty : record3 (after .hist (withFreq [(7, 9)] r0)) = (0x1004, 2, 0) := by
  decide +kernel

/-! ### BUILD -/

/-- V-B1. -/
theorem test_build_abra :
    let t := after .build (withFreq [(0x61, 5), (0x62, 2), (0x63, 1), (0x64, 1), (0x72, 2)] r0)
    t.nodes.entries = abraNodes ∧ t.root = 8 ∧ t.nodeCnt = 9 ∧ t.nsym = 5 ∧
    record3 t = (0x1102, 0, 0) := by decide +kernel
/-- V-B7: an overflowing sum. -/
theorem test_build_overflow :
    let t := after .build (withFreq [(0, 0xFFFFFFFF), (1, 1)] r0)
    record3 t = (0x1104, 7, 1) ∧ t.root = 0x1FF := by decide +kernel

/-! ### GENC -/

/-- V-G5. -/
theorem test_genc_tie :
    let t := after .genc (setTree tieNodes 4 3 r0)
    [0x41, 0x42, 0x43, 0x44].map (codeAt t) =
      [some (bits "00"), some (bits "01"), some (bits "1"), none] := by decide +kernel
/-- V-G10: of two Leaves with one symbol the right one's path stays. -/
theorem test_genc_repeated :
    codeAt (after .genc (setTree [rebuiltInternal 2 1, rebuiltLeaf 0x61, rebuiltLeaf 0x61] 0 2 r0)) 0x61 =
      some [true] := by decide +kernel

/-! ### TSER -/

/-- V-T5. -/
theorem test_tser_tie :
    let t := after .tser (setTree tieNodes 4 3 r0)
    t.topoBits = 5 ∧ topoBytes t = bytes [0xD0] ∧ alphaBytes t = bytes [0x43, 0x42, 0x41] := by
  decide +kernel
/-- V-T8. -/
theorem test_tser_no_tree :
    record3 (after .tser (withTopo [true] [0x61] r0)) = (0x1304, 8, 0) := by decide +kernel

/-! ### TDES -/

/-- V-D1. -/
theorem test_tdes_abra :
    let t := after .tdes (withTopo (bits "111110000") (bytes [0x64, 0x63, 0x62, 0x72, 0x61]) r0)
    t.nodes.entries.take 5 = [rebuiltInternal 8 1, rebuiltInternal 7 2, rebuiltInternal 6 3,
      rebuiltInternal 5 4, rebuiltLeaf 0x64] ∧ t.root = 0 ∧ t.nodeCnt = 9 ∧ t.nsym = 5 := by
  decide +kernel
/-- V-D17: bits left over. -/
theorem test_tdes_leftover :
    record3 (after .tdes (withTopo (bits "1110") (bytes [1, 2, 3]) r0)) = (0x2104, 4, 2) := by decide +kernel

/-! ### ENC -/

/-- V-E1. -/
theorem test_enc_abra :
    let t := after .enc (withInput abra (withCode abraCodes r0))
    t.payBits = 23 ∧ payBytes t = bytes [0x69, 0xCF, 0x68] := by decide +kernel
/-- V-E8. -/
theorem test_enc_missing :
    record3 (after .enc (withInput (bytes [0x43, 0x44])
      (withCode [(0x41, bits "00"), (0x42, bits "01"), (0x43, bits "1")] r0))) = (0x1404, 6, 1) := by
  decide +kernel

/-! ### DEC -/

/-- V-X15. -/
theorem test_dec_abra :
    outBytes (after .dec (withPay (bits "01101001110011110110100") (abraTree r0))) = abra := by decide +kernel
/-- V-X10: an absent child. -/
theorem test_dec_absent :
    record3 (after .dec (withPay (bits "010") (wrapper r0))) = (0x2204, 5, 2) := by decide +kernel

/-! ### ASM and PARSE -/

/-- V-C1. -/
theorem test_asm_abra :
    outBytes (after .asm (withPay (bits "01101001110011110110100")
      (withTopo (bits "111110000") (bytes [0x64, 0x63, 0x62, 0x72, 0x61]) r0))) = abraContainer := by
  decide +kernel
/-- V-C10. -/
theorem test_asm_reset : outBytes (after .asm r0) = List.replicate 12 0 := by decide +kernel
/-- V-C12: nonzero padding bits are cleared in the copies. -/
theorem test_parse_padding :
    let t := after .parse (withInput (bytes [0, 0, 0, 5, 0, 0, 0, 9, 0, 0, 0, 0x17, 0x64, 0x63, 0x62, 0x72,
      0x61, 0xF8, 0x7F, 0x69, 0xCF, 0x69]) r0)
    topoBytes t = bytes [0xF8, 0] ∧ payBytes t = bytes [0x69, 0xCF, 0x68] ∧
    alphaBytes t = bytes [0x64, 0x63, 0x62, 0x72, 0x61] := by decide +kernel
/-- V-C8b: the sum of the lengths does not wrap. -/
theorem test_parse_no_wrap :
    record3 (after .parse (withInput (bytes [255, 255, 255, 255, 0, 0, 0, 0, 0, 0, 0, 0x20, 0, 0, 0]) r0)) =
      (0x2004, 3, 2) := by decide +kernel

/-! ### COMP and DECOMP -/

/-- V-K7. -/
theorem test_comp_aab : outBytes (after .comp (withInput (bytes [0x61, 0x61, 0x62]) r0)) =
    bytes [0, 0, 0, 2, 0, 0, 0, 3, 0, 0, 0, 3, 0x61, 0x62, 0xC0, 0xC0] := by decide +kernel
/-- A fault in a stage leaves the stage's opcode in `STAGE` (49_control.md R225). -/
theorem test_comp_empty :
    let t := after .comp (withPay [true] r0)
    record3 t = (0x1004, 2, 0) ∧ t.outLen = 0 := by decide +kernel
/-- P2: the container of "abracadabra". -/
theorem test_decomp_abra : outBytes (after .decomp (withInput abraContainer r0)) = abra := by decide +kernel
/-- V-C11 as a flow: twelve bytes 00 have no tree. -/
theorem test_decomp_no_tree :
    record3 (after .decomp (withInput (List.replicate 12 0) r0)) = (0x2104, 4, 1) := by decide +kernel

/-! ### CLR -/

/-- V-Z5. -/
theorem test_clr :
    let t := after .clr { withInput abra (abraTree r0) with fsm := .busy, fromFaulted := true, errCode := 5 }
    record3 t = (0, 0, 0) ∧ t.inLen = 0 ∧ t.root = 0x1FF ∧ memRead t.inMem 2 = 0x72 := by decide +kernel

/-! ### The host port -/

/-- R88, V-G1: the words of symbol 62. -/
theorem test_code_window :
    let s := withCode abraCodes r0
    (hostRead 0x50000620 s).hostData = 0x80000003 ∧ (hostRead 0x50000621 s).hostData = 0xC0000000 := by
  decide +kernel
/-- R87, V-B1: the link word of node 5. -/
theorem test_node_window : (hostRead 0x4000000B (abraTree r0)).hostData = 0x00040363 := by decide +kernel
/-- V-Z8: beyond the capacity nothing is written. -/
theorem test_inlen_too_large : (writeRegister 4 0x10000001 (withInput abra r0)).inLen = 11 := by
  have h : ¬ (0x10000001 : Word).toNat ≤ Config.bufCap := by
    have := Config.bufCapSlack.isLt
    unfold Config.bufCap
    simp
  unfold writeRegister
  rw [if_neg h]
  rfl
/-- R65: only the low byte of the word is stored. -/
theorem test_in_mem_low_byte :
    memRead (hostWrite 0x10000003 0xABCDEF12 r0).inMem 3 = 0x12 := by decide +kernel
/-- V-P2 and V-P6. -/
theorem test_pack : pack (bits "0110100") = bytes [0x68] ∧
    pack (bits "01101001110011110110100") = bytes [0x69, 0xCF, 0x68] := by decide +kernel
/-- V-P8. -/
theorem test_unpack : unpack (memLoad (bytes [0xF8, 0x7F]) 0) 9 = bits "111110000" := by decide +kernel

/-! ### Witnesses: for each obligation with hypotheses, a state and operands that meet them

A witness of an obligation with several clauses has a part for each clause, at a boundary value where the
clause has one. -/

theorem bufCap_le : Config.bufCap ≤ 2 ^ 28 := by
  have := Config.bufCapSlack.isLt
  unfold Config.bufCap
  omega

theorem bufCap_ge : 1024 ≤ Config.bufCap := by
  unfold Config.bufCap
  omega

/-- A block busy with the given word. -/
def busyWith (w : Word) (agenda : List Turn) : State :=
  { r0 with fsm := .busy, pending := w, agenda := agenda }

/-- A block that has taken a fault. -/
def faulted : State := { r0 with fsm := .faulted, errCode := 2, stage := 0x10 }

theorem test_witness_StepRunsDecodedCommand :
    (busyWith 0x31 []).fsm = .busy ∧ decode (busyWith 0x31 []).pending = .ok .decomp ∧
    (busyWith 0x31 []).agenda = [] ∧ (busyWith 1 [.block, .reset]).fsm = .busy ∧
    decode (busyWith 1 [.block, .reset]).pending = .ok .clr ∧
    (busyWith 1 [.block, .reset]).agenda = .block :: [.reset] ∧ r0.fsm ≠ .busy ∧ r0.agenda = [] ∧
    { r0 with agenda := [.block] }.fsm ≠ .busy ∧ { r0 with agenda := [.block] }.agenda = [.block] ∧
    { r0 with agenda := [.write 0 1] }.agenda = .write 0 1 :: [] ∧
    { r0 with agenda := [.read 1] }.agenda = .read 1 :: [] := by decide +kernel

theorem test_witness_IllegalWordFaults :
    (busyWith 0x101 []).fsm = .busy ∧ (busyWith 0x101 []).agenda = [] ∧
    (∀ i, decode (busyWith 0x101 []).pending ≠ .ok i) ∧
    (busyWith 0 [.block, .reset]).fsm = .busy ∧ (busyWith 0 [.block, .reset]).agenda = .block :: [.reset] ∧
    (∀ i, decode (busyWith 0 [.block, .reset]).pending ≠ .ok i) := by
  refine ⟨rfl, rfl, ?_, rfl, rfl, ?_⟩ <;> intro i <;> cases i <;> decide +kernel

theorem test_witness_AcceptanceByControlState :
    r0.fsm = .idle ∧ faulted.fsm = .faulted ∧ (0x00000101 : Word) ≠ 0x00000001 ∧
    (busyWith 1 []).fsm = .busy := by decide +kernel

theorem test_witness_FaultLeftByClrOrReset :
    faulted.fsm = .faulted ∧ step faulted = .next faulted ∧
    step { faulted with agenda := [.write 0 1] } = .next (acceptCommand 1 faulted) ∧
    step { faulted with agenda := [.reset] } = .next (resetEvent faulted) := by
  refine ⟨rfl, rfl, rfl, rfl⟩

theorem test_witness_HostReadsHarmlessAndBusyShutsOut : (busyWith 1 []).fsm = .busy := rfl

theorem test_witness_RegisterFileReads :
    r0.fsm ≠ .busy ∧ faulted.fsm ≠ .busy ∧ 14 ≤ (0x0000000E : Word).toNat ∧
    (0x0FFFFFFF : Word).toNat < 2 ^ 28 := by decide +kernel

theorem test_witness_InLenWrittenByHostAndClr :
    r0.fsm ≠ .busy ∧ faulted.fsm ≠ .busy ∧ (BitVec.ofNat 32 Config.bufCap).toNat ≤ Config.bufCap ∧
    Config.bufCap < (BitVec.ofNat 32 (Config.bufCap + 1)).toNat ∧
    exec .clr r0 = .next (after .clr r0) ∧ exec .asm r0 = .next (after .asm r0) := by
  have := bufCap_le
  refine ⟨by decide, by decide, ?_, ?_, exec_after (by decide +kernel), exec_after (by decide +kernel)⟩ <;>
    simp <;> omega

/-- The clause on addresses beyond `BUF_CAP` has one unless `BUF_CAP` is 2^28, when the space has none. -/
theorem test_witness_HostWritesOneItem :
    r0.fsm ≠ .busy ∧ faulted.fsm ≠ .busy ∧ spaceOf 0x10000000 = 1 ∧ offsetOf 0x10000000 < Config.bufCap ∧
    spaceOf 0x100003FF = 1 ∧ offsetOf 0x100003FF < Config.bufCap ∧
    spaceOf 0x30000000 = 3 ∧ spaceOf 0x300000FF = 3 ∧ offsetOf 0x300000FF < 256 ∧
    spaceOf 0x00000005 = 0 ∧ offsetOf 0x00000005 ≠ 0 ∧ offsetOf 0x00000005 ≠ 4 ∧
    (Config.bufCap < 2 ^ 28 → spaceOf 0x1FFFFFFF = 1 ∧ Config.bufCap ≤ offsetOf 0x1FFFFFFF) ∧
    spaceOf 0x30000100 = 3 ∧ 256 ≤ offsetOf 0x30000100 ∧
    spaceOf 0x20000000 = 2 ∧ spaceOf 0xF0000000 = 15 := by
  have h : Config.bufCap < 2 ^ 28 → spaceOf 0x1FFFFFFF = 1 ∧ Config.bufCap ≤ offsetOf 0x1FFFFFFF := by
    intro hc
    have e : offsetOf 0x1FFFFFFF = 268435455 := by decide
    exact ⟨by decide, by omega⟩
  have g := bufCap_ge
  have e1 : offsetOf 0x10000000 = 0 := by decide
  have e2 : offsetOf 0x100003FF = 1023 := by decide
  refine ⟨by decide, by decide, by decide, by omega, by decide, by omega, by decide, by decide, by decide,
    by decide, by decide, by decide, h, by decide, by decide, by decide, by decide⟩

/-- A state in which every byte space has a valid extent. -/
def filled : State :=
  setOut abra (withPay (bits "01101001110011110110100")
    (withTopo (bits "111110000") (bytes [0x64, 0x63, 0x62, 0x72, 0x61]) (withInput abra r0)))

theorem test_witness_HostWindowsRead :
    filled.fsm ≠ .busy ∧ offsetOf 0x1000000A < filled.inLen.toNat ∧
    offsetOf 0x2000000A < filled.outLen.toNat ∧ offsetOf 0x60000004 < filled.alphaLen.toNat ∧
    offsetOf 0x70000001 < ceil8 filled.topoBits.toNat ∧ offsetOf 0x80000002 < ceil8 filled.payBits.toNat ∧
    offsetOf 0x80000002 < Config.bufCap ∧
    (Config.bufCap < 2 ^ 28 → spaceOf 0x8FFFFFFF = 8 ∧ Config.bufCap ≤ offsetOf 0x8FFFFFFF) ∧
    (spaceOf 0x300000FF = 3 ∧ (0xFF : Byte).toNat = offsetOf 0x300000FF) ∧
    (spaceOf 0x30000100 = 3 ∧ offsetOf 0x30000100 = 256) ∧
    (spaceOf 0x60000100 = 6 ∧ offsetOf 0x60000100 = 256) ∧
    (spaceOf 0x70000040 = 7 ∧ offsetOf 0x70000040 = 64) ∧
    (spaceOf 0x400003FE = 4 ∧ offsetOf 0x400003FE = 1022) ∧
    (spaceOf 0x50001000 = 5 ∧ offsetOf 0x50001000 = 4096) ∧
    9 ≤ spaceOf 0x90000000 ∧ 9 ≤ spaceOf 0xF0000000 := by
  have h : Config.bufCap < 2 ^ 28 → spaceOf 0x8FFFFFFF = 8 ∧ Config.bufCap ≤ offsetOf 0x8FFFFFFF := by
    intro hc
    have e : offsetOf 0x8FFFFFFF = 268435455 := by decide
    exact ⟨by decide, by omega⟩
  refine ⟨by decide, by decide +kernel, by decide +kernel, by decide +kernel, by decide +kernel,
    by decide +kernel, by decide +kernel, h, by decide, by decide, by decide, by decide, by decide,
    by decide, by decide, by decide⟩

theorem test_witness_NodeWindowWords :
    (abraTree r0).fsm ≠ .busy ∧ (0 : NodeIdx) ≠ Config.nil ∧ (8 : NodeIdx) ≠ Config.nil ∧
    (0 : NodeIdx).toNat < (abraTree r0).nodeCnt.toNat ∧ (8 : NodeIdx).toNat < (abraTree r0).nodeCnt.toNat := by
  decide +kernel

theorem codesOk_abra : CodesOk (withCode abraCodes r0) := by
  have h : ∀ sym : Byte, ((codeAt (withCode abraCodes r0) sym).getD []).length ≤ 255 := by decide +kernel
  intro sym c hc
  have := h sym
  rw [hc] at this
  exact this

theorem test_witness_CodeWindowWords :
    (withCode abraCodes r0).fsm ≠ .busy ∧ CodesOk (withCode abraCodes r0) ∧ 0 < 16 ∧ 1 ≤ 8 ∧ 8 < 16 ∧
    9 < 16 ∧ 15 < 16 := ⟨by decide, codesOk_abra, by decide⟩

/-- A state in which every command completes. -/
def ready : State :=
  withPay (bits "01101001110011110110100") (withTopo (bits "111110000") (bytes [0x64, 0x63, 0x62, 0x72, 0x61])
    (abraTree (withCode abraCodes (withFreq [(0x61, 2), (0x62, 1)] (withInput abra r0)))))

theorem test_witness_CommandFrames :
    exec .hist ready = .next (after .hist ready) ∧ exec .build ready = .next (after .build ready) ∧
    exec .genc ready = .next (after .genc ready) ∧ exec .tser ready = .next (after .tser ready) ∧
    exec .enc ready = .next (after .enc ready) ∧ exec .asm ready = .next (after .asm ready) ∧
    exec .parse ready = .next (after .parse ready) ∧ exec .tdes ready = .next (after .tdes ready) ∧
    exec .dec ready = .next (after .dec ready) ∧ exec .comp ready = .next (after .comp ready) ∧
    exec .decomp ready = .next (after .decomp ready) ∧ exec .clr ready = .next (after .clr ready) := by
  have h : ∀ i, goes i ready = true := by intro i; cases i <;> decide +kernel
  exact ⟨exec_after (h _), exec_after (h _), exec_after (h _), exec_after (h _), exec_after (h _),
    exec_after (h _), exec_after (h _), exec_after (h _), exec_after (h _), exec_after (h _),
    exec_after (h _), exec_after (h _)⟩

/-- ASM of a payload that fills `PAY_MEM`. -/
def tooLong : State := { r0 with payBits := BitVec.ofNat 32 (8 * Config.bufCap) }

theorem tooLong_bits : tooLong.payBits.toNat = 8 * Config.bufCap := by
  have := bufCap_le
  simp [tooLong]
  omega

/-- The clause on COMP's stage 0x14 has none here: its payload would need more than 8 bits a symbol, of
which 41_tree_builder.md R121 asserts no bound. -/
theorem test_witness_FaultInvalidates :
    (∃ t, exec .hist r0 = .next t ∧ t.fsm = .faulted) ∧
    (∃ t, exec .build r0 = .next t ∧ t.fsm = .faulted) ∧
    (∃ t, exec .tdes r0 = .next t ∧ t.fsm = .faulted) ∧
    (∃ t, exec .genc r0 = .next t ∧ t.fsm = .faulted) ∧
    (∃ t, exec .tser r0 = .next t ∧ t.fsm = .faulted) ∧
    (∃ t, exec .enc (withInput abra r0) = .next t ∧ t.fsm = .faulted) ∧
    (∃ t, exec .dec r0 = .next t ∧ t.fsm = .faulted) ∧
    (∃ t, exec .parse r0 = .next t ∧ t.fsm = .faulted) ∧
    (∃ t, exec .comp r0 = .next t ∧ t.fsm = .faulted ∧ t.stage = 0x10) ∧
    (∃ t, exec .decomp r0 = .next t ∧ t.fsm = .faulted ∧ t.stage = 0x20) ∧
    (∃ t, exec .decomp (withInput (List.replicate 12 0) r0) = .next t ∧ t.fsm = .faulted ∧ t.stage = 0x21) :=
  ⟨faults_of (by decide +kernel), faults_of (by decide +kernel), faults_of (by decide +kernel),
    faults_of (by decide +kernel), faults_of (by decide +kernel), faults_of (by decide +kernel),
    faults_of (by decide +kernel), faults_of (by decide +kernel),
    ⟨after .comp r0, exec_after (by decide +kernel), by decide +kernel⟩,
    ⟨after .decomp r0, exec_after (by decide +kernel), by decide +kernel⟩,
    ⟨after .decomp (withInput (List.replicate 12 0) r0), exec_after (by decide +kernel), by decide +kernel⟩⟩

theorem runAsm_tooLong : runAsm tooLong = .raised .capacityExceeded 3 (dropOut (setStage .asm tooLong)) := by
  unfold runAsm
  rw [if_neg]
  simp only [setStage_payBits, tooLong_bits, containerLen, Config.hdrLen, ceil8]
  omega

theorem test_witness_FaultInvalidates_asm :
    ∃ t, exec .asm tooLong = .next t ∧ t.fsm = .faulted :=
  ⟨enterFault .capacityExceeded 3 (dropOut (setStage .asm tooLong)), by
    rw [exec_eq_complete]; simp only [ruleOf, runAsm_tooLong, complete_raised], rfl⟩

theorem test_witness_HistCompletes : (withInput abra r0).inLen ≠ 0 := by decide

theorem test_witness_HistTotals :
    exec .hist (withInput abra r0) = .next (after .hist (withInput abra r0)) ∧
    (after .hist (withInput abra r0)).fsm = .idle :=
  ⟨exec_after (by decide +kernel), by decide +kernel⟩

theorem test_witness_EmptyInputFaults : r0.inLen = 0 ∧ countedSymbols r0 = [] := by decide +kernel

theorem test_witness_BuildWrapsSingleSymbol :
    countedSymbols (withFreq [(0x61, 4)] r0) = [0x61] ∧
    countedSymbols (withFreq [(0xFF, 0xFFFFFFFF)] r0) = [0xFF] := by decide +kernel

theorem test_witness_BuildCompletes :
    2 ≤ (countedSymbols (withFreq [(0, 0xFFFFFFFE), (1, 1)] r0)).length ∧
    freqTotal (withFreq [(0, 0xFFFFFFFE), (1, 1)] r0) = 0xFFFFFFFF := by decide +kernel

theorem test_witness_BuildOverflowsExactly :
    2 ≤ (countedSymbols (withFreq [(0, 0xFFFFFFFF), (1, 1)] r0)).length ∧
    freqTotal (withFreq [(0, 0xFFFFFFFF), (1, 1)] r0) = 0x100000000 := by decide +kernel

def oneSymbol : State := withFreq [(0x61, 4)] r0
def twoSymbols : State := withFreq [(0x61, 2), (0x62, 1)] r0

/-- Node 0 is a Leaf; node 1 an Internal node without right child, or, with two Leaves, node 2 one with. -/
theorem test_witness_BuildNodesSumTheirChildren :
    (∃ t, exec .build oneSymbol = .next t ∧ t.fsm = .idle ∧ 1 < t.nodeCnt.toNat ∧
      (nodeAt t.nodes 0).kind = .leaf ∧ (nodeAt t.nodes 1).kind = .internal ∧
      (nodeAt t.nodes 1).right = Config.nil) ∧
    (∃ t, exec .build twoSymbols = .next t ∧ t.fsm = .idle ∧ 2 < t.nodeCnt.toNat ∧
      (nodeAt t.nodes 2).kind = .internal ∧ (nodeAt t.nodes 2).right ≠ Config.nil) :=
  ⟨⟨after .build oneSymbol, exec_after (by decide +kernel), by decide +kernel⟩,
    ⟨after .build twoSymbols, exec_after (by decide +kernel), by decide +kernel⟩⟩

/-- Three equal weights: 41_tree_builder.md R116 has the tie broken by `tsym` alone. -/
def threeSymbols : State := withFreq [(0x43, 1), (0x41, 1), (0x42, 1)] r0

/-- Node 3 is made while node 2 waits. -/
theorem test_witness_BuildMergesLeastKeys :
    exec .build threeSymbols = .next (after .build threeSymbols) ∧
    (after .build threeSymbols).fsm = .idle ∧
    (3 : NodeIdx).toNat < (after .build threeSymbols).nodeCnt.toNat ∧
    (nodeAt (after .build threeSymbols).nodes 3).kind = .internal ∧
    (nodeAt (after .build threeSymbols).nodes 3).left = 0 ∧
    (nodeAt (after .build threeSymbols).nodes 3).right = 1 ∧ (1 : NodeIdx) ≠ Config.nil ∧
    UnmergedBelow (after .build threeSymbols).nodes 3 2 := by
  refine ⟨exec_after (by decide +kernel), by decide +kernel, by decide +kernel, by decide +kernel,
    by decide +kernel, by decide +kernel, by decide, ?_⟩
  unfold UnmergedBelow
  decide +kernel

theorem test_witness_BuildDependsOnWeightsOnly :
    (∀ sym, freqAt twoSymbols sym = freqAt (withFreq [(0x61, 2), (0x62, 1)] filled) sym) ∧
    exec .build twoSymbols = .next (after .build twoSymbols) ∧
    exec .build (withFreq [(0x61, 2), (0x62, 1)] filled) =
      .next (after .build (withFreq [(0x61, 2), (0x62, 1)] filled)) :=
  ⟨fun _ => rfl, exec_after (by decide +kernel), exec_after (by decide +kernel)⟩

/-- The tree of V-B5. -/
def tieTree : Tree := .internal (.internal (.leaf 0x41) (.leaf 0x42)) (.leaf 0x43)

/-- The tree of the wrapper V-B2. -/
def wrapperT : Tree := .internal (.leaf 0x61) .absent

/-- What TDES makes of the topology `1 1 0` with the symbol 0x41 twice. -/
def repeated : State := after .tdes (withTopo (bits "110") (bytes [0x41, 0x41]) r0)

theorem test_witness_GencCompletes :
    repeated.root ≠ Config.nil ∧ treeOf repeated = some (.internal (.leaf 0x41) (.leaf 0x41)) ∧
    (setTree tieNodes 4 3 r0).root ≠ Config.nil ∧ treeOf (setTree tieNodes 4 3 r0) = some tieTree ∧
    treeOf (wrapper r0) = some wrapperT := by decide +kernel

theorem test_witness_StagesWithoutTreeFault : r0.root = Config.nil := rfl

theorem test_witness_CodesPrefixFreeAndKraft :
    (wrapper r0).root ≠ Config.nil ∧ treeOf (wrapper r0) = some wrapperT ∧ properTree wrapperT = true ∧
    (sideList wrapperT).Nodup ∧ wrapperTree wrapperT = true ∧ properTree tieTree = true ∧
    (sideList tieTree).Nodup ∧ fullTree tieTree = true := by decide +kernel

theorem test_witness_TserCompletes :
    (setTree tieNodes 4 3 r0).root ≠ Config.nil ∧ treeOf (setTree tieNodes 4 3 r0) = some tieTree ∧
    treeSize tieTree ≤ 511 ∧ treeLeaves tieTree ≤ 256 := by decide +kernel

theorem test_witness_TopologyCounts :
    fullTree tieTree = true ∧ 2 ≤ treeSize tieTree ∧ fullTree (.leaf 0x61) = true ∧
    wrapperTree wrapperT = true := by decide

theorem test_witness_TdesCompletes :
    properTree tieTree = true ∧ treeSize tieTree ≤ 511 ∧
    topoSeq (withTopo (bits "11010") (bytes [0x43, 0x42, 0x41]) r0) = emitTopology tieTree ∧
    alphaBytes (withTopo (bits "11010") (bytes [0x43, 0x42, 0x41]) r0) = (sideList tieTree).reverse ∧
    topoSeq (withTopo (bits "10") (bytes [0x61]) r0) = emitTopology wrapperT ∧
    alphaBytes (withTopo (bits "10") (bytes [0x61]) r0) = (sideList wrapperT).reverse := by decide +kernel

/-- The one bit 0 is no tree's topology, nor has it a proper final part that is one. -/
theorem one_zero_bit :
    ¬ (∃ x, properTree x = true ∧ [false] = emitTopology x) ∧
    ¬ (∃ x front, fullTree x = true ∧ front ≠ [] ∧ [false] = front ++ emitTopology x) := by
  constructor
  · rintro ⟨x, hp, hx⟩
    cases x with
    | absent => simp [emitTopology] at hx
    | leaf y => simp [emitTopology] at hx
    | internal l r =>
      cases l with
      | absent => simp [properTree, fullTree, wrapperTree] at hp
      | leaf y => simp [emitTopology] at hx
      | internal a b =>
        have := congrArg List.length hx
        simp [emitTopology] at this
        omega
  · rintro ⟨x, front, hf, hne, hx⟩
    cases front with
    | nil => exact hne rfl
    | cons b front =>
      cases x with
      | absent => simp [fullTree] at hf
      | leaf y => simp [emitTopology] at hx
      | internal l r => simp [emitTopology] at hx

/-- V-D18; V-D4; V-D12, which is no tree's topology, since it ends in 1 and has two bits, and whose last bit
alone is one; the one bit 0 (44_tree_deserializer.md R153). -/
theorem test_witness_TdesAcceptsExactlyTreeTopologies :
    (withTopo (bits "110") [1] r0).topoBits.toNat ≤ 511 ∧
    (topoSeq (withTopo (bits "110") [1] r0)).count true ≠ (withTopo (bits "110") [1] r0).alphaLen.toNat ∧
    (topoSeq (withTopo (bits "11010") [3, 2, 1] r0)).count true =
      (withTopo (bits "11010") [3, 2, 1] r0).alphaLen.toNat ∧
    topoSeq (withTopo (bits "11010") [3, 2, 1] r0) = emitTopology tieTree ∧ properTree tieTree = true ∧
    (topoSeq (withTopo (bits "11") [1, 2] r0)).count true =
      (withTopo (bits "11") [1, 2] r0).alphaLen.toNat ∧
    ¬ (∃ x, properTree x = true ∧ topoSeq (withTopo (bits "11") [1, 2] r0) = emitTopology x) ∧
    (∃ x front, fullTree x = true ∧ front ≠ [] ∧
      topoSeq (withTopo (bits "11") [1, 2] r0) = front ++ emitTopology x) ∧
    (topoSeq (withTopo (bits "0") [] r0)).count true = (withTopo (bits "0") [] r0).alphaLen.toNat ∧
    ¬ (∃ x, properTree x = true ∧ topoSeq (withTopo (bits "0") [] r0) = emitTopology x) ∧
    ¬ (∃ x front, fullTree x = true ∧ front ≠ [] ∧
      topoSeq (withTopo (bits "0") [] r0) = front ++ emitTopology x) := by
  have z : topoSeq (withTopo (bits "0") [] r0) = [false] := by decide +kernel
  refine ⟨by decide +kernel, by decide +kernel, by decide +kernel, by decide +kernel, by decide,
    by decide +kernel, ?_, ⟨.leaf 0, [true], rfl, by decide, by decide +kernel⟩, by decide +kernel,
    by rw [z]; exact one_zero_bit.1, by rw [z]; exact one_zero_bit.2⟩
  have e : topoSeq (withTopo (bits "11") [1, 2] r0) = [true, true] := by decide +kernel
  rw [e]
  rintro ⟨x, _, hx⟩
  cases x with
  | absent => simp [emitTopology] at hx
  | leaf y => simp [emitTopology] at hx
  | internal l r =>
    have := congrArg List.getLast? hx
    simp [emitTopology] at this

theorem treeOk_tie : TreeOk (setTree tieNodes 4 3 r0) :=
  ⟨fun h => absurd h (by decide), fun _ => ⟨tieTree, by decide +kernel⟩⟩

theorem test_witness_TserThenTdesRestoresTree :
    TreeOk (setTree tieNodes 4 3 r0) ∧ (setTree tieNodes 4 3 r0).root ≠ Config.nil ∧
    exec .tser (setTree tieNodes 4 3 r0) = .next (after .tser (setTree tieNodes 4 3 r0)) :=
  ⟨treeOk_tie, by decide, exec_after (by decide +kernel)⟩

theorem registersOk_filled : RegistersOk filled := by
  have := bufCap_ge
  have h : filled.inLen.toNat = 11 ∧ filled.outLen.toNat = 11 ∧ filled.alphaLen.toNat = 5 ∧
      filled.topoBits.toNat = 9 ∧ filled.payBits.toNat = 23 ∧ filled.nodeCnt.toNat = 0 ∧
      filled.nsym.toNat = 0 := by decide +kernel
  obtain ⟨h1, h2, h3, h4, h5, h6, h7⟩ := h
  refine ⟨by omega, by omega, ?_, ?_, by omega, ?_, ?_⟩
  · rw [h3]; decide
  · rw [h4]; decide
  · rw [h6]; decide
  · rw [h7]; decide

theorem test_witness_TdesThenTserRestoresTopology :
    RegistersOk filled ∧ exec .tdes filled = .next (after .tdes filled) ∧
    (after .tdes filled).fsm = .idle :=
  ⟨registersOk_filled, exec_after (by decide +kernel), by decide +kernel⟩

/-- A closed form at the last bit of the second byte of nine bits. -/
theorem test_witness_PackClosedForm : 1 < (pack (bits "111110000")).length ∧ 7 < 8 := by decide +kernel

theorem test_witness_PackUnpackInverse :
    ∀ k, 9 ≤ k → k < 8 * ceil8 9 → getBit (memLoad (bytes [0xF8, 0x00]) 0) k = false := by
  have h : ∀ k, k < 16 → 9 ≤ k → getBit (memLoad (bytes [0xF8, 0x00]) 0) k = false := by decide +kernel
  intro k h1 h2
  exact h k (by simpa [ceil8] using h2) h1

theorem test_witness_EncCompletes :
    (∀ x ∈ inBytes (withInput abra (withCode abraCodes r0)),
      codeValid (withInput abra (withCode abraCodes r0)) x = true) ∧
    codeTotal (withInput abra (withCode abraCodes r0)) (inBytes (withInput abra (withCode abraCodes r0))) ≤
      8 * Config.bufCap := by decide +kernel

/-- V-E8. -/
theorem test_witness_EncFaults :
    let s := withInput (bytes [0x43, 0x44]) (withCode [(0x43, [true])] r0)
    inBytes s = [0x43] ++ 0x44 :: [] ∧ (∀ y ∈ [0x43], codeValid s y = true) ∧
    codeTotal s [0x43] ≤ 8 * Config.bufCap ∧ codeValid s 0x44 = false := by decide +kernel

/-- An input of `BUF_CAP` bytes whose codes have 9 bits. -/
def tooMany : State :=
  withInput (List.replicate Config.bufCap 0) (withCode [(0, bits "000000000")] r0)

theorem replicate_split (n k : Nat) (h : k < n) (x : Byte) :
    List.replicate n x = List.replicate k x ++ x :: List.replicate (n - k - 1) x := by
  rw [← List.replicate_succ, List.replicate_append_replicate]
  congr 1
  omega

theorem inBytes_withInput (bs : List Byte) (h : bs.length < 2 ^ 29) (s : State) :
    inBytes (withInput bs s) = bs := by
  have e : (withInput bs s).inLen.toNat = bs.length := by
    simp [withInput]
    omega
  unfold inBytes
  rw [e]
  exact memBytes_memLoad bs 0

theorem codeLen_tooMany : codeLen tooMany 0 = 9 := by
  have e : codeAt tooMany 0 = some (bits "000000000") := by decide +kernel
  unfold codeLen
  rw [e]
  decide

theorem test_witness_EncFaults_capacity :
    ∃ done rest, inBytes tooMany = done ++ 0 :: rest ∧ (∀ y ∈ done, codeValid tooMany y = true) ∧
      codeTotal tooMany done ≤ 8 * Config.bufCap ∧ codeValid tooMany 0 = true ∧
      8 * Config.bufCap < codeTotal tooMany done + codeLen tooMany 0 := by
  have h1 := bufCap_le
  have h2 := bufCap_ge
  have v : codeValid tooMany 0 = true := by decide +kernel
  have total : ∀ k, codeTotal tooMany (List.replicate k 0) = 9 * k := by
    intro k
    unfold codeTotal
    rw [List.map_replicate, codeLen_tooMany]
    simp
    omega
  refine ⟨List.replicate (8 * Config.bufCap / 9) 0,
    List.replicate (Config.bufCap - 8 * Config.bufCap / 9 - 1) 0, ?_, ?_, ?_, v, ?_⟩
  · rw [← replicate_split _ _ (by omega)]
    exact inBytes_withInput _ (by simp; omega) _
  · intro y hy
    rw [List.eq_of_mem_replicate hy]
    exact v
  · rw [total]
    omega
  · rw [total, codeLen_tooMany]
    omega

/-- V-X9. -/
theorem test_witness_DecCompletes :
    treeOf (withPay (bits "0000") (wrapper r0)) = some (.internal (.leaf 0x61) .absent) ∧
    leafAt (.internal (.leaf 0x61) .absent) [false] 0x61 ∧
    paySeq (withPay (bits "0000") (wrapper r0)) =
      (List.replicate 4 (([false], 0x61) : BitSeq × Byte)).flatMap (fun e => e.1) ∧
    (List.replicate 4 (([false], 0x61) : BitSeq × Byte)).length ≤ Config.bufCap :=
  ⟨by decide +kernel, rfl, by decide +kernel, by decide +kernel⟩

theorem test_witness_DecReadsOnlyWholeCodes :
    treeOf (withPay (bits "0000") (wrapper r0)) = some (.internal (.leaf 0x61) .absent) ∧
    exec .dec (withPay (bits "0000") (wrapper r0)) = .next (after .dec (withPay (bits "0000") (wrapper r0))) ∧
    (after .dec (withPay (bits "0000") (wrapper r0))).fsm = .idle :=
  ⟨by decide +kernel, exec_after (by decide +kernel), by decide +kernel⟩

/-- One bit inside a code of V-B5; V-X10. -/
theorem test_witness_DecFaults :
    treeOf (withPay (bits "10") (setTree tieNodes 4 3 r0)) = some tieTree ∧ leafAt tieTree [true] 0x43 ∧
    paySeq (withPay (bits "10") (setTree tieNodes 4 3 r0)) = [([true], (0x43 : Byte))].flatMap (fun e => e.1) ++ ([false] ++ []) ∧
    [([true], (0x43 : Byte))].length ≤ Config.bufCap ∧ internalAt tieTree [false] ∧
    treeOf (withPay (bits "010") (wrapper r0)) = some wrapperT ∧ leafAt wrapperT [false] 0x61 ∧
    paySeq (withPay (bits "010") (wrapper r0)) =
      [([false], (0x61 : Byte))].flatMap (fun e => e.1) ++ ([true] ++ [false]) ∧ absentAt wrapperT [true] :=
  ⟨by decide +kernel, rfl, by decide +kernel, by decide +kernel, trivial, by decide +kernel, rfl,
    by decide +kernel, trivial⟩

/-- V-X14 with `BUF_CAP` as it is: one payload bit more than `OUT_MEM` has bytes. -/
def tooManySymbols : State :=
  { wrapper r0 with
    payMem := memLoad (List.replicate Config.bufCap 0) 0
    payBits := BitVec.ofNat 32 (Config.bufCap + 1) }

theorem test_witness_DecFaults_capacity :
    treeOf tooManySymbols = some wrapperT ∧ leafAt wrapperT [false] 0x61 ∧
    paySeq tooManySymbols =
      (List.replicate Config.bufCap (([false], 0x61) : BitSeq × Byte)).flatMap (fun e => e.1) ++
        ([false] ++ []) ∧
    (List.replicate Config.bufCap (([false], 0x61) : BitSeq × Byte)).length = Config.bufCap := by
  have h1 := bufCap_le
  have h2 := bufCap_ge
  have flat : ∀ n, (List.replicate n (([false], 0x61) : BitSeq × Byte)).flatMap (fun e => e.1) =
      List.replicate n false := by
    intro n
    induction n with
    | zero => rfl
    | succ n ih => rw [List.replicate_succ, List.flatMap_cons, ih]; rfl
  refine ⟨by decide +kernel, rfl, ?_, by simp⟩
  have e : tooManySymbols.payBits.toNat = Config.bufCap + 1 := by
    simp [tooManySymbols]
    omega
  rw [flat, List.append_nil]
  show unpack (memLoad (List.replicate Config.bufCap 0) 0) tooManySymbols.payBits.toNat = _
  rw [e]
  refine List.ext_getElem (by simp) fun k a b => ?_
  have hk : k / 8 < Config.bufCap := by
    simp at a
    omega
  rw [unpack_getElem]
  unfold getBit
  rw [memRead_memLoad _ _ _ (by simpa using hk)]
  simp [List.getElem_append]

theorem test_witness_DecBareLeafRoot :
    treeOf (bareLeaf r0) = some (.leaf 0x61) ∧ (bareLeaf r0).payBits = 0 ∧
    treeOf (withPay [false] (bareLeaf r0)) = some (.leaf 0x61) ∧
    (withPay [false] (bareLeaf r0)).payBits ≠ 0 := by decide +kernel

/-- A payload that leaves the container exactly `BUF_CAP` bytes long, and one byte more. -/
theorem test_witness_AsmCompletes :
    (∃ s : State, 12 + s.alphaLen.toNat + ceil8 s.topoBits.toNat + ceil8 s.payBits.toNat = Config.bufCap) ∧
    (∃ s : State,
      12 + s.alphaLen.toNat + ceil8 s.topoBits.toNat + ceil8 s.payBits.toNat = Config.bufCap + 1) := by
  have h1 := bufCap_le
  have h2 := bufCap_ge
  refine ⟨⟨{ r0 with payBits := BitVec.ofNat 32 (8 * (Config.bufCap - 12)) }, ?_⟩,
    ⟨{ r0 with payBits := BitVec.ofNat 32 (8 * (Config.bufCap - 11)) }, ?_⟩⟩ <;>
    simp [State.reset, ceil8] <;> omega

/-- V-C4, V-C6, V-C7, V-C8. -/
theorem test_witness_ParseFaults :
    (withInput (abraContainer.take 11) r0).inLen.toNat < 12 ∧
    12 ≤ (withInput (abraContainer.take 21) r0).inLen.toNat ∧
    12 + 5 + ceil8 9 + ceil8 23 ≠ (withInput (abraContainer.take 21) r0).inLen.toNat ∧
    headerField (withInput (abraContainer.take 21) r0).inMem 8 = 23 ∧
    headerField (withInput (bytes [0, 0, 1, 1] ++ List.replicate 265 0) r0).inMem 0 = 257 ∧
    12 + 257 + ceil8 0 + ceil8 0 =
      (withInput (bytes [0, 0, 1, 1] ++ List.replicate 265 0) r0).inLen.toNat ∧
    headerField (withInput (bytes [0, 0, 0, 0, 0, 0, 2, 0] ++ List.replicate 68 0) r0).inMem 4 = 512 ∧
    12 + 0 + ceil8 512 + ceil8 0 =
      (withInput (bytes [0, 0, 0, 0, 0, 0, 2, 0] ++ List.replicate 68 0) r0).inLen.toNat := by
  decide +kernel

/-- V-C2, and the largest Alphabet and topology. -/
theorem test_witness_ParseCompletes :
    12 + (headerField (withInput abraContainer r0).inMem 0).toNat +
        ceil8 (headerField (withInput abraContainer r0).inMem 4).toNat +
        ceil8 (headerField (withInput abraContainer r0).inMem 8).toNat =
      (withInput abraContainer r0).inLen.toNat ∧
    headerField (withInput (bytes [0, 0, 1, 0, 0, 0, 1, 255] ++ List.replicate 324 0) r0).inMem 0 = 256 ∧
    headerField (withInput (bytes [0, 0, 1, 0, 0, 0, 1, 255] ++ List.replicate 324 0) r0).inMem 4 = 511 ∧
    12 + 256 + ceil8 511 + ceil8 0 =
      (withInput (bytes [0, 0, 1, 0, 0, 0, 1, 255] ++ List.replicate 324 0) r0).inLen.toNat := by
  decide +kernel

theorem buffersOk_filled : BuffersOk filled := by
  have h : ∀ k, k < 16 → 9 ≤ k → getBit filled.topoMem k = false := by decide +kernel
  have g : ∀ k, k < 24 → 23 ≤ k → getBit filled.payMem k = false := by decide +kernel
  have e1 : filled.topoBits.toNat = 9 := by decide +kernel
  have e2 : filled.payBits.toNat = 23 := by decide +kernel
  unfold BuffersOk
  rw [e1, e2]
  exact ⟨fun k a b => h k (by simpa [ceil8] using b) a, fun k a b => g k (by simpa [ceil8] using b) a⟩

theorem test_witness_AsmThenParseRestores :
    RegistersOk filled ∧ BuffersOk filled ∧ exec .asm filled = .next (after .asm filled) ∧
    (after .asm filled).fsm = .idle ∧
    Loaded (outBytes (after .asm filled)) (withInput (outBytes (after .asm filled)) r0) := by
  have h : (outBytes (after .asm filled)).length = 22 := by decide +kernel
  refine ⟨registersOk_filled, buffersOk_filled, exec_after (by decide +kernel), by decide +kernel, ?_,
    inBytes_withInput _ (by omega) _⟩
  simp [withInput]
  omega

/-- The input "aab" (V-K7). -/
def aab : State := withInput (bytes [0x61, 0x61, 0x62]) r0

theorem test_witness_CompCompletes :
    aab.inLen ≠ 0 ∧ ∃ u, compFront aab = .done u ∧
      12 + u.alphaLen.toNat + ceil8 u.topoBits.toNat + ceil8 (codeTotal u (inBytes aab)) ≤ Config.bufCap := by
  refine ⟨by decide, ?_⟩
  have h : (match compFront aab with
    | .done u => decide (12 + u.alphaLen.toNat + ceil8 u.topoBits.toNat + ceil8 (codeTotal u (inBytes aab)) ≤
        Config.bufCap)
    | .raised _ _ _ => false
    | .halted _ => false) = true := by decide +kernel
  split at h
  · next u e => exact ⟨u, e, by simpa using h⟩
  · simp at h
  · simp at h

theorem test_witness_CompFaults : r0.inLen = 0 ∧ aab.inLen ≠ 0 := by decide

/-- The container of V-K2 and its parts. -/
def single : State := withInput (bytes [0, 0, 0, 1, 0, 0, 0, 2, 0, 0, 0, 4, 0x61, 0x80, 0]) r0

theorem test_witness_DecompCompletes :
    ∃ u, runParse single = .done u ∧ properTree wrapperT = true ∧ topoSeq u = emitTopology wrapperT ∧
      alphaBytes u = (sideList wrapperT).reverse ∧ leafAt wrapperT [false] 0x61 ∧
      paySeq u = (List.replicate 4 (([false], 0x61) : BitSeq × Byte)).flatMap (fun e => e.1) ∧
      4 ≤ Config.bufCap := by
  have h : (match runParse single with
    | .done u => decide (topoSeq u = emitTopology wrapperT ∧ alphaBytes u = (sideList wrapperT).reverse ∧
        paySeq u = (List.replicate 4 (([false], 0x61) : BitSeq × Byte)).flatMap (fun e => e.1))
    | .raised _ _ _ => false
    | .halted _ => false) = true := by decide +kernel
  have g := bufCap_ge
  split at h
  · next u e =>
    have h' := of_decide_eq_true h
    exact ⟨u, e, rfl, h'.1, h'.2.1, rfl, h'.2.2, by omega⟩
  · simp at h
  · simp at h

theorem registersOk_aab : RegistersOk aab := by
  have := bufCap_ge
  have h : aab.inLen.toNat = 3 := by decide
  refine ⟨by omega, ?_, ?_, ?_, ?_, ?_, ?_⟩ <;> simp [aab, withInput, State.reset]

theorem test_witness_RoundTrip :
    RegistersOk aab ∧ exec .comp aab = .next (after .comp aab) ∧ (after .comp aab).fsm = .idle ∧
    Loaded (outBytes (after .comp aab)) (withInput (outBytes (after .comp aab)) r0) := by
  have h : (outBytes (after .comp aab)).length = 16 := by decide +kernel
  refine ⟨registersOk_aab, exec_after (by decide +kernel), by decide +kernel, ?_,
    inBytes_withInput _ (by omega) _⟩
  simp [withInput]
  omega

/-- V-K3 and V-K4. -/
theorem test_witness_SingleSymbolContainer :
    inBytes (withInput [0x61] r0) = List.replicate 1 0x61 ∧ 14 + ceil8 1 ≤ Config.bufCap ∧
    inBytes (withInput (List.replicate 9 0x61) r0) = List.replicate 9 0x61 ∧
    14 + ceil8 9 ≤ Config.bufCap := by decide +kernel

theorem test_witness_FlowsDependOnInputOnly :
    let s := withInput abraContainer r0
    let u := withInput abraContainer ready
    s.inLen = u.inLen ∧ inBytes s = inBytes u ∧ goes .comp s = true ∧ goes .comp u = true ∧
    goes .decomp s = true ∧ goes .decomp u = true := by decide +kernel

theorem registersOk_reset : RegistersOk r0 := by
  refine ⟨?_, ?_, ?_, ?_, ?_, ?_, ?_⟩ <;> simp [State.reset]

/-- A step that completes a command, from a state with every invariant of `StepKeeps…`. -/
theorem test_witness_StepKeepsControl :
    ControlOk (busyWith 0x15 []) ∧ step (busyWith 0x15 []) = .next (stepped (busyWith 0x15 [])) := by
  refine ⟨⟨by simp [busyWith], by simp [busyWith], by simp [busyWith, State.reset],
    fun _ _ => ⟨rfl, rfl⟩, by simp [busyWith, State.reset]⟩, ?_⟩
  exact step_stepped (by decide +kernel)

theorem test_witness_StepKeepsRegistersAndCodes :
    step r0 = .next r0 ∧ RegistersOk r0 ∧ CodesOk r0 ∧
    step (withCode abraCodes r0) = .next (withCode abraCodes r0) ∧ CodesOk (withCode abraCodes r0) := by
  refine ⟨rfl, registersOk_reset, ?_, rfl, codesOk_abra⟩
  intro sym c h
  simp [codeAt, State.reset] at h

theorem test_witness_StepKeepsMemories :
    step filled = .next filled ∧ RegistersOk filled ∧ MemoriesOk filled ∧ BuffersOk filled := by
  refine ⟨step_waits (by decide +kernel) (by decide +kernel), registersOk_filled, ?_, buffersOk_filled⟩
  exact ⟨by decide +kernel, by decide +kernel, by decide +kernel, by decide +kernel, by decide +kernel⟩

theorem test_witness_StepKeepsTreeShape :
    RegistersOk r0 ∧ TreeOk r0 ∧ step r0 = .next r0 ∧ TreeOk (setTree tieNodes 4 3 r0) ∧
    step (setTree tieNodes 4 3 r0) = .next (setTree tieNodes 4 3 r0) ∧
    RegistersOk (setTree tieNodes 4 3 r0) := by
  have h0 : TreeOk r0 := ⟨fun _ => ⟨rfl, rfl⟩, fun h => absurd rfl h⟩
  have h1 : RegistersOk (setTree tieNodes 4 3 r0) := by
    refine ⟨?_, ?_, ?_, ?_, ?_, ?_, ?_⟩ <;> simp [setTree, State.reset]
    · decide
    · decide
  exact ⟨registersOk_reset, h0, step_waits rfl rfl, treeOk_tie, step_waits rfl rfl, h1⟩

theorem test_witness_StepKeepsTreeIndices :
    RegistersOk (setTree tieNodes 4 3 r0) ∧ TreeOk (setTree tieNodes 4 3 r0) ∧
    IndicesOk (setTree tieNodes 4 3 r0) ∧
    step (setTree tieNodes 4 3 r0) = .next (setTree tieNodes 4 3 r0) := by
  refine ⟨test_witness_StepKeepsTreeShape.2.2.2.2.2, treeOk_tie, fun _ => ?_, step_waits rfl rfl⟩
  decide +kernel

theorem test_witness_EveryStepGoesOn : TreeOk r0 ∧ TreeOk (setTree tieNodes 4 3 r0) :=
  ⟨⟨fun _ => ⟨rfl, rfl⟩, fun h => absurd rfl h⟩, treeOk_tie⟩

end Sys2Proof.Tests
end

section
/-! Proofs about the state: what each stage can leave, said for every property, and the invariants the
family `10_state.md` asks for. -/

namespace Sys2Proof.Proofs

open Sys2Proof Sys2Proof.Machine Sys2Proof.Safety

/-! ### What each stage can leave -/

section Leaves

variable {P : State → Prop} {s : State}

/-- HIST clears the counters or sets them to the histogram. -/
theorem runHist_leaves (raised : P (clearFreq (setStage .hist s)))
    (done : P { setStage .hist s with freq := histogram (inBytes s) }) : (runHist s).Leaves P := by
  rcases runHist_cases s with ⟨_, e⟩ | ⟨_, e⟩ <;> rw [e]
  · exact raised
  · exact done

/-- BUILD drops the tree, or sets the wrapper over the one counted symbol, or a merged tree. -/
theorem runBuild_leaves (raised : P (dropTree (setStage .build s)))
    (wrapper : ∀ sym, countedSymbols s = [sym] →
      P (setTree [leafNode (freqAt s sym) sym, wrapperNode (leafNode (freqAt s sym) sym)] 1 1
        (setStage .build s)))
    (merged : ∀ arena root T L, 2 ≤ (countedSymbols s).length →
      MergeInv arena [(arena.length - 1, root)] T L (countedSymbols s).length (freqTotal s)
        (countedSymbols s) →
      P (setTree arena (arena.length - 1) (countedSymbols s).length (setStage .build s))) :
    (runBuild s).Leaves P := by
  rcases runBuild_cases s with ⟨_, e⟩ | ⟨sym, hc, e⟩ | ⟨_, _, e⟩ |
    ⟨h2, _, arena, root, T, L, _, _, inv, e⟩ <;> rw [e]
  · exact raised
  · exact wrapper sym hc
  · exact raised
  · exact merged arena root T L h2 inv

/-- GENC clears the CodeTable, or sets it to the codes of the tree. -/
theorem runGenc_leaves (raised : P (clearCode (setStage .genc s)))
    (done : ∀ x, treeOf s = some x → P { clearCode (setStage .genc s) with code := codeTableOf x }) :
    (runGenc s).Leaves P := by
  rcases runGenc_cases s with ⟨_, e⟩ | ⟨_, _, e⟩ | ⟨_, x, hx, e⟩ <;> rw [e]
  · exact raised
  · trivial
  · exact done x hx

/-- TSER drops topology and Alphabet, or sets those of a tree that fits. -/
theorem runTser_leaves (raised : P (dropTopo (dropAlpha (setStage .tser s))))
    (done : ∀ x, (emitTopology x).length ≤ Config.nodeCap → (sideList x).length ≤ Config.nsymMax →
      P (setAlpha (sideList x).reverse
        (setTopo (pack (emitTopology x)) (emitTopology x).length (setStage .tser s)))) :
    (runTser s).Leaves P := by
  rcases runTser_cases s with ⟨_, e⟩ | ⟨_, _, e⟩ | ⟨_, x, _, fits, e⟩ <;> rw [e]
  · exact raised
  · trivial
  · obtain ⟨htopo, hside⟩ : (emitTopology x).length ≤ Config.nodeCap ∧
        (sideList x).length ≤ Config.nsymMax := by simpa [serialFits] using fits
    exact done x htopo hside

/-- ENC drops the payload, or sets the packed bits of a payload that fits. -/
theorem runEnc_leaves (raised : P (dropPay (setStage .enc s)))
    (done : ∀ b, b.length ≤ 8 * Config.bufCap → P (setPay (pack b) b.length (setStage .enc s))) :
    (runEnc s).Leaves P := by
  rcases runEnc_cases s with ⟨_, _, _, e⟩ | ⟨b, _, hb, e⟩ <;> rw [e]
  · exact raised
  · exact done b hb

/-- ASM drops the output, or sets a container that fits. -/
theorem runAsm_leaves (raised : P (dropOut (setStage .asm s)))
    (done : ∀ bs, bs.length ≤ Config.bufCap → P (setOut bs (setStage .asm s))) :
    (runAsm s).Leaves P := by
  rcases runAsm_cases s with ⟨hc, e⟩ | ⟨_, e⟩ <;> rw [e]
  · exact done _ (by rw [runAsm_length]; exact hc)
  · exact raised

/-- PARSE drops Alphabet, topology and payload, or sets the three parts of the container in `IN_MEM`. -/
theorem runParse_leaves (raised : P (dropParsed (setStage .parse s)))
    (done : ∀ a t p, a ≤ 256 → t ≤ 511 → p < 2 ^ 32 → containerLen a t p = s.inLen.toNat →
      P (setPay (clearPadding p (memSlice s.inMem (Config.hdrLen + a + ceil8 t) (ceil8 p))) p
        (setTopo (clearPadding t (memSlice s.inMem (Config.hdrLen + a) (ceil8 t))) t
          (setAlpha (memSlice s.inMem Config.hdrLen a) (setStage .parse s))))) :
    (runParse s).Leaves P := by
  rcases runParse_cases s with ⟨_, e⟩ | ⟨a, t, p, _, _, hp, ha, ht, hlen, e⟩ <;> rw [e]
  · exact raised
  · exact done a t p ha ht (hp ▸ BitVec.isLt _) hlen

/-- TDES drops the tree, or sets the wrapper, or the full tree whose topology the bits are. -/
theorem runTdes_leaves (raised : P (dropTree (setStage .tdes s)))
    (wrapper : P (setTree [rebuiltInternal 1 Config.nil, rebuiltLeaf (memRead s.alphaMem 0)] 0 1
      (setStage .tdes s)))
    (done : ∀ x, fullTree x = true → treeSize x = s.topoBits.toNat →
      P (setTree (entriesOf x 0) 0 (treeLeaves x) (setStage .tdes s))) :
    (runTdes s).Leaves P := by
  rcases runTdes_cases s with ⟨_, _, e⟩ | ⟨_, _, e⟩ | ⟨b, _, _, hb, hrest, e⟩ <;> rw [e]
  · exact raised
  · exact wrapper
  · obtain ⟨x, hfull, hbits, hentries, hai, _⟩ := rebuild_only_topologies _ _ _ _ _ _ hb
    have hsize : treeSize x = s.topoBits.toNat := by
      have := congrArg List.length hbits
      simpa [hrest, emitTopology_length, topoSeq] using this.symm
    rw [hentries, hai, Nat.zero_add]
    exact done x hfull hsize

/-- DEC drops the output, or sets an output that fits. -/
theorem runDec_leaves (raised : P (dropOut (setStage .dec s)))
    (done : ∀ bs, bs.length ≤ Config.bufCap → P (setOut bs (setStage .dec s))) :
    (runDec s).Leaves P := by
  rcases runDec_cases s with ⟨_, e⟩ | ⟨_, _, _, _, e⟩ | ⟨_, bs, _, hb, e⟩ <;> rw [e]
  · exact raised
  · exact raised
  · exact done bs hb

end Leaves

/-! ### Invariants -/

/-- Every stage, and the dropping of the output at a raise, keeps `P`, where a stage may also use that `I`
held before it. A stage that is not named in a proof of this touches nothing that `P` reads. -/
structure StagesKeep (I P : State → Prop) : Prop where
  drop : ∀ u, P u → P (dropOut u) := by exact fun _ hu => hu
  hist : ∀ u, I u → P u → (runHist u).Leaves P := by exact fun _ _ hu => runHist_leaves hu hu
  build : ∀ u, I u → P u → (runBuild u).Leaves P := by
    exact fun _ _ hu => runBuild_leaves hu (fun _ _ => hu) fun _ _ _ _ _ _ => hu
  genc : ∀ u, I u → P u → (runGenc u).Leaves P := by
    exact fun _ _ hu => runGenc_leaves hu fun _ _ => hu
  tser : ∀ u, I u → P u → (runTser u).Leaves P := by
    exact fun _ _ hu => runTser_leaves hu fun _ _ _ => hu
  enc : ∀ u, I u → P u → (runEnc u).Leaves P := by exact fun _ _ hu => runEnc_leaves hu fun _ _ => hu
  asm : ∀ u, I u → P u → (runAsm u).Leaves P := by exact fun _ _ hu => runAsm_leaves hu fun _ _ => hu
  parse : ∀ u, I u → P u → (runParse u).Leaves P := by
    exact fun _ _ hu => runParse_leaves hu fun _ _ _ _ _ _ _ => hu
  tdes : ∀ u, I u → P u → (runTdes u).Leaves P := by
    exact fun _ _ hu => runTdes_leaves hu hu fun _ _ _ => hu
  dec : ∀ u, I u → P u → (runDec u).Leaves P := by exact fun _ _ hu => runDec_leaves hu fun _ _ => hu

/-- Every operation of the machine keeps `P`, where the stages may also use that `I` held before them. An
operation that is not named in a proof of this touches nothing that `P` reads. -/
structure KeptUnder (I P : State → Prop) : Prop extends StagesKeep I P where
  agenda : ∀ u rest, P u → P { u with agenda := rest } := by exact fun _ _ hu => hu
  read : ∀ u v n, P u → P { u with hostData := v, free := n } := by exact fun _ _ _ hu => hu
  reset : ∀ u, P (resetEvent u)
  accept : ∀ u w ff, P u →
      P { u with pending := w, fsm := .busy, fromFaulted := ff, doneFlag := false } := by
    exact fun _ _ _ hu => hu
  inLen : ∀ u (v : Word), v.toNat ≤ Config.bufCap → P u → P { u with inLen := v.setWidth 29 } := by
    exact fun _ _ _ hu => hu
  inMem : ∀ u o v, o < Config.bufCap → P u → P { u with inMem := memWrite u.inMem o v } := by
    exact fun _ _ _ _ hu => hu
  freq : ∀ u o v h, P u → P { u with freq := u.freq.set o v h } := by exact fun _ _ _ _ hu => hu
  bad : ∀ u, P u → P (badCommand u) := by exact fun _ hu => hu
  ok : ∀ c u, P u → P (completeOk c u) := by exact fun _ _ hu => hu
  fault : ∀ k info u, P u → P (enterFault k info u) := by exact fun _ _ _ hu => hu
  clr : ∀ u, P u → P (clearAll u)

/-- A stage that leaves two properties leaves both at once. -/
theorem leaves_and {P Q : State → Prop} {r : Ran} (hP : r.Leaves P) (hQ : r.Leaves Q) :
    r.Leaves fun u => P u ∧ Q u := by
  cases r with
  | done s => exact ⟨hP, hQ⟩
  | raised k i s => exact ⟨hP, hQ⟩
  | halted x => trivial

/-- Two properties are kept by the stages together, the second by the help of the first. -/
theorem StagesKeep.and {I P : State → Prop} (hI : StagesKeep (fun _ => True) I) (hP : StagesKeep I P) :
    StagesKeep (fun _ => True) fun u => I u ∧ P u := by
  have stage : ∀ {run : State → Ran}, (∀ u, True → I u → (run u).Leaves I) →
      (∀ u, I u → P u → (run u).Leaves P) →
      ∀ u, True → I u ∧ P u → (run u).Leaves fun v => I v ∧ P v :=
    fun runI runP u _ hu => leaves_and (runI u trivial hu.1) (runP u hu.1 hu.2)
  exact ⟨fun u => And.imp (hI.drop u) (hP.drop u), stage hI.hist hP.hist, stage hI.build hP.build,
    stage hI.genc hP.genc, stage hI.tser hP.tser, stage hI.enc hP.enc, stage hI.asm hP.asm,
    stage hI.parse hP.parse, stage hI.tdes hP.tdes, stage hI.dec hP.dec⟩

/-- What the stages keep, every rule but CLR's keeps. -/
theorem StagesKeep.ruleOf_leaves {P : State → Prop} (hP : StagesKeep (fun _ => True) P) {i : Instr}
    (hi : i ≠ .clr) {s : State} (hs : P s) : (ruleOf i s).Leaves P := by
  cases i with
  | clr => exact absurd rfl hi
  | hist => exact hP.hist s trivial hs
  | build => exact hP.build s trivial hs
  | genc => exact hP.genc s trivial hs
  | tser => exact hP.tser s trivial hs
  | enc => exact hP.enc s trivial hs
  | asm => exact hP.asm s trivial hs
  | parse => exact hP.parse s trivial hs
  | tdes => exact hP.tdes s trivial hs
  | dec => exact hP.dec s trivial hs
  | comp =>
    exact runComp_leaves hs hP.drop (hP.hist · trivial) (hP.build · trivial) (hP.genc · trivial)
      (hP.tser · trivial) (hP.enc · trivial) (hP.asm · trivial)
  | decomp =>
    exact runDecomp_leaves hs hP.drop (hP.parse · trivial) (hP.tdes · trivial) (hP.dec · trivial)

/-- Two properties are kept by a step together, the second by the help of the first. -/
theorem KeptUnder.step_and {I P : State → Prop} (hI : KeptUnder (fun _ => True) I)
    (hP : KeptUnder I P) {s t : State} (h : step s = .next t) (hs : I s ∧ P s) : I t ∧ P t := by
  have rule : ∀ i u, I u ∧ P u → (ruleOf i u).Leaves fun v => I v ∧ P v := by
    intro i u hu
    by_cases hi : i = .clr
    · subst hi
      exact hu.imp (hI.clr u) (hP.clr u)
    · exact (hI.toStagesKeep.and hP.toStagesKeep).ruleOf_leaves hi hu
  exact step_keeps (P := fun u => I u ∧ P u) h hs
    (fun u rest => And.imp (hI.agenda u rest) (hP.agenda u rest))
    (fun u v n => And.imp (hI.read u v n) (hP.read u v n)) (fun u => ⟨hI.reset u, hP.reset u⟩)
    (fun u w ff hu _ => hu.imp (hI.accept u w ff) (hP.accept u w ff))
    (fun u v _ hv => And.imp (hI.inLen u v hv) (hP.inLen u v hv))
    (fun u o v ho => And.imp (hI.inMem u o v ho) (hP.inMem u o v ho))
    (fun u o v ho => And.imp (hI.freq u o v ho) (hP.freq u o v ho))
    (fun u i _ _ hu t ht => exec_leaves (P := fun u => I u ∧ P u) ht (rule i u hu)
      (fun c v => And.imp (hI.ok c v) (hP.ok c v))
      fun k info v => And.imp (hI.fault k info v) (hP.fault k info v))
    fun u _ => And.imp (hI.bad u) (hP.bad u)

/-- What every operation keeps by itself, a step keeps. -/
theorem KeptUnder.step {P : State → Prop} (hP : KeptUnder (fun _ => True) P) {s t : State}
    (h : step s = .next t) (hs : P s) : P t :=
  have always : KeptUnder (fun _ => True) fun _ => True :=
    { reset := fun _ => trivial, clr := fun _ _ => trivial }
  (always.step_and hP h ⟨trivial, hs⟩).2

/-! ### Sizes of the trees the stages make -/

/-- A merged arena over N Leaves has 2N-1 nodes (41_tree_builder.md R114). -/
theorem mergeInv_length {arena : List Node} {x : Nat × Node} {T L N total S}
    (inv : MergeInv arena [x] T L N total S) : arena.length + 1 = 2 * N := by
  simpa using inv.len

/-- A full tree of at most 511 nodes has at most 256 Leaves (10_state.md R41). -/
theorem treeLeaves_le_of_full {x : Tree} (hfull : fullTree x = true)
    (hsize : treeSize x ≤ Config.nodeCap) : treeLeaves x ≤ Config.nsymMax := by
  have := (treeSize_of_full x hfull).1
  simp only [Config.nodeCap, Config.nsymMax] at *
  omega

/-! ### The data registers -/

/-- A register set to a number holds no more than the number. -/
theorem toNat_ofNat_le {w n m : Nat} (h : n ≤ m) : (BitVec.ofNat w n).toNat ≤ m := by
  rw [BitVec.toNat_ofNat]
  exact (Nat.mod_le _ _).trans h

theorem registersOk_setOut {bs : List Byte} {s : State} (h : RegistersOk s)
    (hb : bs.length ≤ Config.bufCap) : RegistersOk (setOut bs s) := by
  obtain ⟨hin, _, hrest⟩ := h
  exact ⟨hin, toNat_ofNat_le hb, hrest⟩

theorem registersOk_setAlpha {bs : List Byte} {s : State} (h : RegistersOk s)
    (hb : bs.length ≤ Config.nsymMax) : RegistersOk (setAlpha bs s) := by
  obtain ⟨hin, hout, _, hrest⟩ := h
  exact ⟨hin, hout, toNat_ofNat_le hb, hrest⟩

theorem registersOk_setTopo {bs : List Byte} {n : Nat} {s : State} (h : RegistersOk s)
    (hn : n ≤ Config.nodeCap) : RegistersOk (setTopo bs n s) := by
  obtain ⟨hin, hout, halpha, _, hrest⟩ := h
  exact ⟨hin, hout, halpha, toNat_ofNat_le hn, hrest⟩

theorem registersOk_setPay {bs : List Byte} {n : Nat} {s : State} (h : RegistersOk s)
    (hn : n ≤ 8 * Config.bufCap) : RegistersOk (setPay bs n s) := by
  obtain ⟨hin, hout, halpha, htopo, _, hrest⟩ := h
  exact ⟨hin, hout, halpha, htopo, toNat_ofNat_le hn, hrest⟩

theorem registersOk_setTree {ns : List Node} {root nsym : Nat} {s : State} (h : RegistersOk s)
    (hlen : ns.length ≤ Config.nodeCap) (hsym : nsym ≤ Config.nsymMax) :
    RegistersOk (setTree ns root nsym s) := by
  obtain ⟨hin, hout, halpha, htopo, hpay, _, _⟩ := h
  exact ⟨hin, hout, halpha, htopo, hpay, toNat_ofNat_le hlen, toNat_ofNat_le hsym⟩

theorem registersOk_dropTree {s : State} (h : RegistersOk s) : RegistersOk (dropTree s) := by
  obtain ⟨hin, hout, halpha, htopo, hpay, _, _⟩ := h
  exact ⟨hin, hout, halpha, htopo, hpay, Nat.zero_le _, Nat.zero_le _⟩

theorem registersOk_dropOut {s : State} (h : RegistersOk s) : RegistersOk (dropOut s) :=
  registersOk_setOut h (Nat.zero_le _)

theorem registersOk_of_zero {s : State} (hin : s.inLen = 0) (hout : s.outLen = 0)
    (halpha : s.alphaLen = 0) (htopo : s.topoBits = 0) (hpay : s.payBits = 0) (hcnt : s.nodeCnt = 0)
    (hsym : s.nsym = 0) : RegistersOk s := by
  simp [RegistersOk, hin, hout, halpha, htopo, hpay, hcnt, hsym]

/-- The payload of a container that fills `IN_LEN` fits `PAY_MEM` (48_container.md R203). -/
theorem ceil8_payload_le_bufCap {s : State} (h : RegistersOk s) {a t p : Nat}
    (hlen : containerLen a t p = s.inLen.toNat) : ceil8 p ≤ Config.bufCap := by
  obtain ⟨hin, _⟩ := h
  unfold containerLen at hlen
  omega

/-- Every operation keeps the data registers legal. -/
theorem keptUnder_registersOk : KeptUnder (fun _ => True) RegistersOk where
  reset _ := registersOk_of_zero rfl rfl rfl rfl rfl rfl rfl
  clr _ _ := registersOk_of_zero rfl rfl rfl rfl rfl rfl rfl
  drop _ hu := registersOk_dropOut hu
  inLen u v hv hu := by
    obtain ⟨_, hrest⟩ := hu
    refine ⟨?_, hrest⟩
    rw [BitVec.toNat_setWidth]
    exact (Nat.mod_le _ _).trans hv
  build u _ hu := by
    refine runBuild_leaves (registersOk_dropTree hu)
      (fun _ _ => registersOk_setTree hu (by simp [Config.nodeCap]) (by decide))
      fun arena root T L _ inv => ?_
    have hlen := mergeInv_length inv
    have hsym := countedSymbols_length_le u
    exact registersOk_setTree hu (by unfold Config.nodeCap; omega) hsym
  tser u _ hu :=
    runTser_leaves (registersOk_setTopo (registersOk_setAlpha hu (Nat.zero_le _)) (Nat.zero_le _))
      fun x htopo hside => registersOk_setAlpha (registersOk_setTopo hu htopo) (by simpa using hside)
  enc u _ hu := runEnc_leaves (registersOk_setPay hu (Nat.zero_le _))
    fun _ hb => registersOk_setPay hu hb
  asm u _ hu := runAsm_leaves (registersOk_dropOut hu) fun _ hb => registersOk_setOut hu hb
  parse u _ hu := by
    refine runParse_leaves (registersOk_setPay (registersOk_setTopo
      (registersOk_setAlpha hu (Nat.zero_le _)) (Nat.zero_le _)) (Nat.zero_le _))
      fun a t p ha ht _ hlen => ?_
    have hp := ceil8_payload_le_bufCap hu hlen
    have := ceil8_bounds p
    refine registersOk_setPay (registersOk_setTopo (registersOk_setAlpha hu ?_) ht) (by omega)
    rwa [memSlice_length]
  tdes u _ hu := by
    have ⟨_, _, _, hbits, _⟩ := hu
    refine runTdes_leaves (registersOk_dropTree hu)
      (registersOk_setTree hu (by simp [Config.nodeCap]) (by decide)) fun x hfull hsize => ?_
    rw [← hsize] at hbits
    exact registersOk_setTree hu (by rwa [entriesOf_length]) (treeLeaves_le_of_full hfull hbits)
  dec u _ hu := runDec_leaves (registersOk_dropOut hu) fun _ hb => registersOk_setOut hu hb

/-! ### The code table -/

/-- A walk of bounded depth reads no deeper tree. -/
theorem treeHeight_le_of_readTree (t : Arena) (fuel : Nat) (i : NodeIdx) (x : Tree)
    (h : readTree t fuel i = some x) : treeHeight x ≤ fuel := by
  induction fuel generalizing i x with
  | zero =>
    rw [readTree] at h
    split at h
    · cases h; exact Nat.le_refl _
    · cases h
  | succ fuel ih =>
    rw [readTree] at h
    split at h
    · cases h; exact Nat.zero_le _
    · split at h
      · cases h; simp [treeHeight]
      · split at h
        · next l r hl hr =>
          cases h
          have := ih _ _ hl
          have := ih _ _ hr
          simp only [treeHeight]
          omega
        · cases h

/-- A path to a Leaf has fewer branches than the tree has levels. -/
theorem length_lt_treeHeight (x : Tree) (p : BitSeq) (sym : Byte) (h : leafAt x p sym) :
    p.length < treeHeight x := by
  induction x generalizing p with
  | absent => exact absurd h (leafAt_absent p sym)
  | leaf y =>
    obtain ⟨rfl, _⟩ := (leafAt_leaf p y sym).1 h
    simp [treeHeight]
  | internal l r ihl ihr =>
    rcases (leafAt_internal l r p sym).1 h with ⟨q, rfl, hq⟩ | ⟨q, rfl, hq⟩
    · have := ihl q hq
      simp only [List.length_cons, treeHeight]
      omega
    · have := ihr q hq
      simp only [List.length_cons, treeHeight]
      omega

/-- The codes of a tree the block can walk have at most 255 bits (42_code_table.md R129). -/
theorem codesOk_of_treeOf {s t : State} {x : Tree} (hx : treeOf s = some x)
    (ht : t.code = codeTableOf x) : CodesOk t := by
  intro sym c hc
  have hleaf : leafAt x c sym := by
    unfold codeAt at hc
    simp only [ht] at hc
    exact ((codeTableOf_eq_some x sym c).1 hc).1
  have := length_lt_treeHeight x c sym hleaf
  have := treeHeight_le_of_readTree _ _ _ _ hx
  omega

/-- An empty CodeTable has no code. -/
theorem codesOk_of_empty {s : State} (h : s.code = Vector.replicate 256 none) : CodesOk s := by
  intro sym c hc
  unfold codeAt at hc
  simp [h] at hc

/-- Every operation keeps the codes at most 255 bits long; only GENC writes any. -/
theorem keptUnder_codesOk : KeptUnder (fun _ => True) CodesOk where
  reset _ := codesOk_of_empty rfl
  clr _ _ := codesOk_of_empty rfl
  genc _ _ _ := runGenc_leaves (codesOk_of_empty rfl) fun _ hx => codesOk_of_treeOf hx rfl

/-- Settles O56: both invariants are kept by every operation. -/
theorem stepKeepsRegistersAndCodes : Obligations.StepKeepsRegistersAndCodes :=
  fun _ _ h => ⟨keptUnder_registersOk.step h, keptUnder_codesOk.step h⟩

end Sys2Proof.Proofs
end

section
/-! Proofs about the byte memories: their canonical form and the padding bits of the BitBuffers. -/

namespace Sys2Proof.Proofs

open Sys2Proof Sys2Proof.Machine Sys2Proof.Safety

/-! ### What a packing run leaves -/

/-- A sequence is shorter than eight bits, or has eight bits in front. -/
theorem bits_split (b : BitSeq) : b.length < 8 ∨ ∃ b0 b1 b2 b3 b4 b5 b6 b7 rest,
    b = b0 :: b1 :: b2 :: b3 :: b4 :: b5 :: b6 :: b7 :: rest := by
  match b with
  | b0 :: b1 :: b2 :: b3 :: b4 :: b5 :: b6 :: b7 :: rest => exact .inr ⟨_, _, _, _, _, _, _, _, _, rfl⟩
  | [] | [_] | [_, _] | [_, _, _] | [_, _, _, _] | [_, _, _, _, _] | [_, _, _, _, _, _]
  | [_, _, _, _, _, _, _] => simp

/-- Bit `7 - i` of a byte is the `i`-th of the eight bits pushed (45_bit_packer_unpacker.md R162). -/
theorem byteOf_getLsbD (b : BitSeq) (i : Nat) (hi : i < 8) :
    (byteOf (b.getD 0 false) (b.getD 1 false) (b.getD 2 false) (b.getD 3 false) (b.getD 4 false)
      (b.getD 5 false) (b.getD 6 false) (b.getD 7 false)).getLsbD (7 - i) = b.getD i false := by
  obtain ⟨h0, h1, h2, h3, h4, h5, h6, h7⟩ := byteOf_bits (b.getD 0 false) (b.getD 1 false)
    (b.getD 2 false) (b.getD 3 false) (b.getD 4 false) (b.getD 5 false) (b.getD 6 false)
    (b.getD 7 false)
  match i, hi with
  | 0, _ => exact h0
  | 1, _ => exact h1
  | 2, _ => exact h2
  | 3, _ => exact h3
  | 4, _ => exact h4
  | 5, _ => exact h5
  | 6, _ => exact h6
  | 7, _ => exact h7

/-- Packing gives as many bytes as the bits need, and their bits are the pushed ones followed by 0
(R163, R164). -/
theorem pack_bits (b : BitSeq) : (pack b).length = ceil8 b.length ∧
    ∀ k, ((pack b).getD (k / 8) 0).getLsbD (7 - k % 8) = b.getD k false := by
  induction hn : b.length using Nat.strong_induction_on generalizing b with
  | _ n ih =>
    subst hn
    rcases bits_split b with hshort | ⟨b0, b1, b2, b3, b4, b5, b6, b7, rest, rfl⟩
    · rcases Nat.eq_zero_or_pos b.length with h0 | h0
      · simp [List.length_eq_zero_iff.1 h0, ceil8]
      · rw [pack_short b h0 hshort]
        refine ⟨by simp only [List.length_singleton, ceil8]; omega, fun k => ?_⟩
        rcases Nat.lt_or_ge k 8 with hk | hk
        · rw [Nat.div_eq_of_lt hk, Nat.mod_eq_of_lt hk]
          exact byteOf_getLsbD b k hk
        · have hq : 1 ≤ k / 8 := by omega
          rw [List.getD_eq_default _ _ (by simpa using hq), List.getD_eq_default _ _ (by omega)]
          exact BitVec.getLsbD_zero
    · obtain ⟨hlen, hbits⟩ := ih rest.length (by simp only [List.length_cons]; omega) rest rfl
      rw [pack_cons8]
      refine ⟨by simp only [List.length_cons, hlen, ceil8]; omega, fun k => ?_⟩
      rcases Nat.lt_or_ge k 8 with hk | hk
      · rw [Nat.div_eq_of_lt hk, Nat.mod_eq_of_lt hk]
        exact byteOf_getLsbD (b0 :: b1 :: b2 :: b3 :: b4 :: b5 :: b6 :: b7 :: rest) k hk
      · obtain ⟨j, rfl⟩ := Nat.exists_eq_add_of_le' hk
        rw [show (j + 8) / 8 = j / 8 + 1 by omega, Nat.add_mod_right]
        exact hbits j

theorem pack_length (b : BitSeq) : (pack b).length = ceil8 b.length := (pack_bits b).1

/-- The bits of a memory loaded with a packed sequence (R164). -/
theorem getBit_memLoad_pack (b : BitSeq) (e k : Nat) (hk : k < 8 * ceil8 b.length) :
    getBit (memLoad (pack b) e) k = b.getD k false := by
  have hq : k / 8 < (pack b).length := by rw [pack_length]; omega
  rw [← (pack_bits b).2 k, getBit, memRead_memLoad _ _ _ hq, List.getD_eq_getElem _ _ hq]

/-! ### The canonical form -/

/-- A memory in canonical form with no byte beyond its end (10_state.md R44 to R47). -/
def MemoryFits (n : Nat) (m : Memory) : Prop := m.wf ∧ m.below n

theorem memoryFits_memLoad {bs : List Byte} {n : Nat} (e : Nat) (h : bs.length ≤ n) :
    MemoryFits n (memLoad bs e) := ⟨memLoad_wf bs e, memLoad_below bs e n h⟩

theorem memoryFits_unknown (n e : Nat) : MemoryFits n (Memory.unknown e) := ⟨rfl, rfl⟩

theorem memoriesOk_setOut {bs : List Byte} {s : State} (h : MemoriesOk s)
    (hb : bs.length ≤ Config.bufCap) : MemoriesOk (setOut bs s) := by
  obtain ⟨hin, _, hrest⟩ := h
  exact ⟨hin, memoryFits_memLoad _ hb, hrest⟩

theorem memoriesOk_setPay {bs : List Byte} {n : Nat} {s : State} (h : MemoriesOk s)
    (hb : bs.length ≤ Config.bufCap) : MemoriesOk (setPay bs n s) := by
  obtain ⟨hin, hout, _, hrest⟩ := h
  exact ⟨hin, hout, memoryFits_memLoad _ hb, hrest⟩

theorem memoriesOk_setAlpha {bs : List Byte} {s : State} (h : MemoriesOk s)
    (hb : bs.length ≤ Config.nsymMax) : MemoriesOk (setAlpha bs s) := by
  obtain ⟨hin, hout, hpay, _, htopo⟩ := h
  exact ⟨hin, hout, hpay, memoryFits_memLoad _ hb, htopo⟩

theorem memoriesOk_setTopo {bs : List Byte} {n : Nat} {s : State} (h : MemoriesOk s)
    (hb : bs.length ≤ Config.topoBytes) : MemoriesOk (setTopo bs n s) := by
  obtain ⟨hin, hout, hpay, halpha, _⟩ := h
  exact ⟨hin, hout, hpay, halpha, memoryFits_memLoad _ hb⟩

theorem memoriesOk_clearAll {s : State} (h : MemoriesOk s) : MemoriesOk (clearAll s) := by
  obtain ⟨hin, _⟩ := h
  exact ⟨hin, memoryFits_unknown _ _, memoryFits_unknown _ _, memoryFits_unknown _ _,
    memoryFits_unknown _ _⟩

theorem memoriesOk_resetEvent (s : State) : MemoriesOk (resetEvent s) :=
  ⟨memoryFits_unknown _ _, memoryFits_unknown _ _, memoryFits_unknown _ _, memoryFits_unknown _ _,
    memoryFits_unknown _ _⟩

theorem memoriesOk_memWrite {s : State} (h : MemoriesOk s) {o : Nat} (v : Byte)
    (ho : o < Config.bufCap) : MemoriesOk { s with inMem := memWrite s.inMem o v } := by
  obtain ⟨⟨hwf, hbelow⟩, hrest⟩ := h
  exact ⟨⟨memWrite_wf _ _ _ hwf, memWrite_below _ _ _ _ ho hbelow⟩, hrest⟩

/-- The bits of at most 511 nodes fill at most 64 bytes (00_scope.md R6). -/
theorem ceil8_le_topoBytes {n : Nat} (h : n ≤ Config.nodeCap) : ceil8 n ≤ Config.topoBytes := by
  simp only [Config.nodeCap, Config.topoBytes, ceil8] at *
  omega

/-- Every operation that finds legal registers keeps the memories in canonical form; `IN_LEN` bounds what
PARSE copies. -/
theorem keptUnder_memoriesOk : KeptUnder RegistersOk MemoriesOk where
  reset := memoriesOk_resetEvent
  clr _ hu := memoriesOk_clearAll hu
  drop _ hu := memoriesOk_setOut hu (Nat.zero_le _)
  inMem _ _ v ho hu := memoriesOk_memWrite hu v ho
  tser _ _ hu :=
    runTser_leaves (memoriesOk_setTopo (memoriesOk_setAlpha hu (Nat.zero_le _)) (Nat.zero_le _))
      fun x htopo hside => memoriesOk_setAlpha
        (memoriesOk_setTopo hu (by rw [pack_length]; exact ceil8_le_topoBytes htopo)) (by simpa using hside)
  enc _ _ hu := by
    refine runEnc_leaves (memoriesOk_setPay hu (Nat.zero_le _)) fun b hb => memoriesOk_setPay hu ?_
    rw [pack_length]
    unfold ceil8
    omega
  asm _ _ hu := runAsm_leaves (memoriesOk_setOut hu (Nat.zero_le _)) fun _ hb => memoriesOk_setOut hu hb
  parse u hreg hu := by
    refine runParse_leaves (memoriesOk_setPay (memoriesOk_setTopo
      (memoriesOk_setAlpha hu (Nat.zero_le _)) (Nat.zero_le _)) (Nat.zero_le _))
      fun a t p ha ht _ hlen => memoriesOk_setPay (memoriesOk_setTopo (memoriesOk_setAlpha hu ?_) ?_) ?_
    · rwa [memSlice_length]
    · rw [clearPadding_length, memSlice_length]
      exact ceil8_le_topoBytes ht
    · rw [clearPadding_length, memSlice_length]
      exact ceil8_payload_le_bufCap hreg hlen
  dec _ _ hu := runDec_leaves (memoriesOk_setOut hu (Nat.zero_le _)) fun _ hb => memoriesOk_setOut hu hb

/-! ### The padding bits -/

/-- The padding bits of a BitBuffer are 0 (10_state.md R47). -/
def PaddingClear (m : Memory) (len : Nat) : Prop :=
  ∀ k, len ≤ k → k < 8 * ceil8 len → getBit m k = false

theorem paddingClear_zero (m : Memory) : PaddingClear m 0 := fun _ _ h => absurd h (Nat.not_lt_zero _)

/-- The packer pads with 0 (45_bit_packer_unpacker.md R163). -/
theorem paddingClear_pack (b : BitSeq) (e : Nat) : PaddingClear (memLoad (pack b) e) b.length :=
  fun k hle hlt => by rw [getBit_memLoad_pack b e k hlt, List.getD_eq_default _ _ hle]

/-- PARSE clears the padding of what it copies (48_container.md R204). -/
theorem paddingClear_clearPadding {bs : List Byte} {n : Nat} (e : Nat) (hl : bs.length = ceil8 n) :
    PaddingClear (memLoad (clearPadding n bs) e) n :=
  fun k hle hlt => by rw [getBit_clearPadding n bs hl k hlt e, if_neg (Nat.not_lt.2 hle)]

theorem buffersOk_setTopo {bs : List Byte} {n : Nat} {s : State} (h : BuffersOk s) (hn : n < 2 ^ 10)
    (hpad : PaddingClear (memLoad bs s.free) n) : BuffersOk (setTopo bs n s) := by
  obtain ⟨_, hpay⟩ := h
  refine ⟨?_, hpay⟩
  rw [setTopo_topoBits, BitVec.toNat_ofNat, Nat.mod_eq_of_lt hn]
  exact hpad

theorem buffersOk_setPay {bs : List Byte} {n : Nat} {s : State} (h : BuffersOk s) (hn : n < 2 ^ 32)
    (hpad : PaddingClear (memLoad bs s.free) n) : BuffersOk (setPay bs n s) := by
  obtain ⟨htopo, _⟩ := h
  refine ⟨htopo, ?_⟩
  rw [setPay_payBits, BitVec.toNat_ofNat, Nat.mod_eq_of_lt hn]
  exact hpad

theorem buffersOk_dropTopo {s : State} (h : BuffersOk s) : BuffersOk (dropTopo s) :=
  buffersOk_setTopo h (by decide) (paddingClear_zero _)

theorem buffersOk_dropPay {s : State} (h : BuffersOk s) : BuffersOk (dropPay s) :=
  buffersOk_setPay h (by decide) (paddingClear_zero _)

/-- Every operation keeps the padding bits of both BitBuffers 0. -/
theorem keptUnder_buffersOk : KeptUnder (fun _ => True) BuffersOk where
  reset _ := ⟨paddingClear_zero _, paddingClear_zero _⟩
  clr _ _ := ⟨paddingClear_zero _, paddingClear_zero _⟩
  tser _ _ hu := by
    refine runTser_leaves (buffersOk_dropTopo (s := dropAlpha _) hu) fun x htopo _ =>
      buffersOk_setTopo hu ?_ (paddingClear_pack _ _)
    simp only [Config.nodeCap] at htopo
    omega
  enc _ _ hu := by
    refine runEnc_leaves (buffersOk_dropPay hu) fun b hb => buffersOk_setPay hu ?_ (paddingClear_pack _ _)
    have := bufCap_bounds.2
    omega
  parse u _ hu := by
    refine runParse_leaves (buffersOk_dropPay (buffersOk_dropTopo (s := dropAlpha _) hu))
      fun a t p _ ht hp _ => buffersOk_setPay (buffersOk_setTopo (s := setAlpha _ _) hu (by omega) ?_) hp ?_ <;>
    exact paddingClear_clearPadding _ (memSlice_length _ _ _)

/-- Settles O57: the memories are kept by the help of the registers, the padding bits by themselves. -/
theorem stepKeepsMemories : Obligations.StepKeepsMemories :=
  fun _ _ h => ⟨fun hreg hmem => (keptUnder_registersOk.step_and keptUnder_memoriesOk h ⟨hreg, hmem⟩).2,
    keptUnder_buffersOk.step h⟩

end Sys2Proof.Proofs
end

section
/-! Proofs about the tree in the node table: the trees BUILD and TDES leave have the shape of 10_state.md
R41, and every operation keeps it. -/

namespace Sys2Proof.Proofs

open Sys2Proof Sys2Proof.Machine Sys2Proof.Safety

/-! ### A tree in an arena -/

/-- The arena holds at index `root` a tree of R41 (a) to (d), with the given numbers of nodes and Leaves. -/
structure HoldsTree (a : Arena) (root size leaves : Nat) : Prop where
  root_lt : root < 511
  size_le : size ≤ Config.nodeCap
  leaves_le : leaves ≤ Config.nsymMax
  reads : ∃ x, readTree a 256 (BitVec.ofNat 9 root) = some x ∧ properTree x = true ∧ treeSize x = size ∧
    treeLeaves x = leaves
  indices : (indicesBelow a 256 (BitVec.ofNat 9 root)).Perm (List.range size)

/-- A tree set with the counts it has makes the registers fit it. -/
theorem HoldsTree.treeOk_setTree {ns : List Node} {root nsym : Nat} {s : State}
    (h : HoldsTree { entries := ns, epoch := s.free } root ns.length nsym) :
    TreeOk (setTree ns root nsym s) := by
  obtain ⟨hroot, hsize, hleaves, ⟨x, hx, hproper, hxs, hxl⟩, _⟩ := h
  have hcnt : (setTree ns root nsym s).nodeCnt.toNat = ns.length := by
    simp only [Config.nodeCap] at hsize
    rw [setTree_nodeCnt, BitVec.toNat_ofNat, Nat.mod_eq_of_lt (by omega)]
  have hsym : (setTree ns root nsym s).nsym.toNat = nsym := by
    simp only [Config.nsymMax] at hleaves
    rw [setTree_nsym, BitVec.toNat_ofNat, Nat.mod_eq_of_lt (by omega)]
  exact ⟨fun hnil => absurd hnil (ofNat_ne_nil root hroot), fun _ =>
    ⟨x, hx, hproper, hxs.trans hcnt.symm, hxl.trans hsym.symm, hxs.trans_le hsize, hxl.trans_le hleaves⟩⟩

/-- A tree set with its number of nodes is reached index by index. -/
theorem HoldsTree.indicesOk_setTree {ns : List Node} {root nsym : Nat} {s : State}
    (h : HoldsTree { entries := ns, epoch := s.free } root ns.length nsym) :
    IndicesOk (setTree ns root nsym s) := by
  have hsize := h.size_le
  simp only [Config.nodeCap] at hsize
  intro _
  rw [setTree_nodeCnt, BitVec.toNat_ofNat, Nat.mod_eq_of_lt (by omega)]
  exact h.indices

/-! ### The wrapper -/

theorem readTree_nil (a : Arena) (fuel : Nat) : readTree a fuel Config.nil = some .absent := by
  cases fuel <;> simp [readTree]

theorem indicesBelow_nil (a : Arena) (fuel : Nat) : indicesBelow a fuel Config.nil = [] := by
  cases fuel <;> simp [indicesBelow]

/-- The walk over an Internal node with a Leaf on the left and no right child (41_tree_builder.md R115). -/
theorem wrapper_walk {a : Arena} {i j : NodeIdx} (fuel : Nat) (hi : i ≠ Config.nil) (hj : j ≠ Config.nil)
    (hki : (nodeAt a i).kind = .internal) (hl : (nodeAt a i).left = j)
    (hr : (nodeAt a i).right = Config.nil) (hkj : (nodeAt a j).kind = .leaf) :
    readTree a (fuel + 2) i = some (.internal (.leaf (nodeAt a j).tsym) .absent) ∧
      indicesBelow a (fuel + 2) i = [i.toNat, j.toNat] := by
  have hleaf : readTree a (fuel + 1) j = some (.leaf (nodeAt a j).tsym) := by
    simp only [readTree, hj, if_false, hkj]
  have hindex : indicesBelow a (fuel + 1) j = [j.toNat] := by
    simp only [indicesBelow, hj, if_false, hkj]
  constructor
  · rw [readTree]
    simp only [hi, if_false, hki, hl, hr, hleaf, readTree_nil]
  · rw [indicesBelow]
    simp only [hi, if_false, hki, hl, hr, hindex, indicesBelow_nil, List.append_nil]

/-- The wrapper BUILD makes: the Leaf at index 0, its parent the root at index 1. -/
theorem holdsTree_wrapperNode (w : Word) (sym : Byte) (e : Nat) :
    HoldsTree { entries := [leafNode w sym, wrapperNode (leafNode w sym)], epoch := e } 1 2 1 := by
  obtain ⟨hread, hindices⟩ := wrapper_walk
    (a := { entries := [leafNode w sym, wrapperNode (leafNode w sym)], epoch := e }) (i := 1) (j := 0) 254
    (by decide) (by decide) rfl rfl rfl rfl
  refine ⟨by decide, by decide, by decide, ⟨_, hread, rfl, rfl, rfl⟩, ?_⟩
  rw [show BitVec.ofNat 9 1 = 1 from rfl, hindices]
  exact List.Perm.swap 0 1 []

/-- The wrapper TDES makes: the root at index 0, its Leaf at index 1 (44_tree_deserializer.md R147). -/
theorem holdsTree_rebuiltWrapper (sym : Byte) (e : Nat) :
    HoldsTree { entries := [rebuiltInternal 1 Config.nil, rebuiltLeaf sym], epoch := e } 0 2 1 := by
  obtain ⟨hread, hindices⟩ := wrapper_walk
    (a := { entries := [rebuiltInternal 1 Config.nil, rebuiltLeaf sym], epoch := e }) (i := 0) (j := 1) 254
    (by decide) (by decide) rfl rfl rfl rfl
  refine ⟨by decide, by decide, by decide, ⟨_, hread, rfl, rfl, rfl⟩, ?_⟩
  rw [show BitVec.ofNat 9 0 = 0 from rfl, hindices]
  exact List.Perm.refl _

/-! ### Full trees -/

theorem properTree_of_full {x : Tree} (h : fullTree x = true) : properTree x = true := by
  simp [properTree, h]

/-- A full tree of R41's size is no deeper than the walk goes. -/
theorem treeHeight_le_of_full {x : Tree} (hfull : fullTree x = true) (h : treeLeaves x ≤ 256) :
    treeHeight x ≤ 256 := (treeHeight_le_leaves x hfull).trans h

/-- The arena the merge loop leaves holds one tree over all of it, at its last index (R114). -/
theorem holdsTree_of_mergeInv {arena : List Node} {root : Node} {T : Nat → Tree} {L : Nat → List Nat}
    {N total : Nat} {S : List Byte} (inv : MergeInv arena [(arena.length - 1, root)] T L N total S)
    (hN : 2 ≤ N) (hN' : N ≤ 256) (e : Nat) :
    HoldsTree { entries := arena, epoch := e } (arena.length - 1) arena.length N := by
  have hlen := mergeInv_length inv
  have hfull : fullTree (T (arena.length - 1)) = true :=
    (inv.nodes _ root (inv.mem _ (List.mem_singleton.2 rfl))).full
  have hsize : treeSize (T (arena.length - 1)) = arena.length := by simpa using inv.sizes
  have hleaves : treeLeaves (T (arena.length - 1)) = N := by simpa using inv.leaves
  have hindices : (L (arena.length - 1)).Perm (List.range arena.length) := by simpa using inv.idx
  obtain ⟨hread, hwalk⟩ := readTree_of_nodes arena e T L inv.nodes (by omega) 256 (arena.length - 1)
    (by omega) (treeHeight_le_of_full hfull (hleaves.trans_le hN'))
  refine ⟨by omega, by unfold Config.nodeCap; omega, hN',
    ⟨_, hread, properTree_of_full hfull, hsize, hleaves⟩, ?_⟩
  rwa [hwalk]

/-- The entries TDES writes hold the tree they stand for, at index 0 (44_tree_deserializer.md R145). -/
theorem holdsTree_entriesOf {x : Tree} (hfull : fullTree x = true) (hsize : treeSize x ≤ Config.nodeCap)
    (e : Nat) :
    HoldsTree { entries := entriesOf x 0, epoch := e } 0 (entriesOf x 0).length (treeLeaves x) := by
  have hleaves := treeLeaves_le_of_full hfull hsize
  have hheight := treeHeight_le_of_full hfull hleaves
  rw [entriesOf_length]
  refine ⟨by decide, hsize, hleaves, ⟨x, ?_, properTree_of_full hfull, rfl, rfl⟩, ?_⟩
  · exact readTree_entriesOf _ x [] [] 256 hfull (by simp) (by simpa [Config.nodeCap] using hsize) hheight
  · rw [List.range_eq_range']
    exact indicesBelow_entriesOf _ x [] [] 256 hfull (by simp) (by simpa [Config.nodeCap] using hsize) hheight

/-! ### The invariants -/

/-- With no tree in the block the invariants of the tree hold. -/
theorem treeOk_of_nil {s : State} (hroot : s.root = Config.nil) (hcnt : s.nodeCnt = 0)
    (hsym : s.nsym = 0) : TreeOk s := ⟨fun _ => ⟨hcnt, hsym⟩, fun h => absurd hroot h⟩

theorem indicesOk_of_nil {s : State} (hroot : s.root = Config.nil) : IndicesOk s :=
  fun h => absurd hroot h

/-- A property that holds without a tree and of every tree of R41 holds of what BUILD leaves. -/
theorem runBuild_leaves_tree {P : State → Prop} (u : State) (drop : ∀ v, P (dropTree v))
    (set : ∀ ns root nsym v, HoldsTree { entries := ns, epoch := v.free } root ns.length nsym →
      P (setTree ns root nsym v)) : (runBuild u).Leaves P :=
  runBuild_leaves (drop _) (fun _ _ => set _ _ _ _ (holdsTree_wrapperNode _ _ _))
    fun _ _ _ _ h2 inv =>
      set _ _ _ _ (holdsTree_of_mergeInv inv h2 (countedSymbols_length_le u) _)

/-- So it does of what TDES leaves, when `TOPO_BITS` is legal. -/
theorem runTdes_leaves_tree {P : State → Prop} {u : State} (hreg : RegistersOk u)
    (drop : ∀ v, P (dropTree v))
    (set : ∀ ns root nsym v, HoldsTree { entries := ns, epoch := v.free } root ns.length nsym →
      P (setTree ns root nsym v)) : (runTdes u).Leaves P := by
  have ⟨_, _, _, hbits, _⟩ := hreg
  exact runTdes_leaves (drop _) (set _ _ _ _ (holdsTree_rebuiltWrapper _ _))
    fun x hfull hsize => set _ _ _ _ (holdsTree_entriesOf hfull (hsize.trans_le hbits) _)

/-- Every operation that finds legal registers keeps a tree of R41 (a) and (b) at `ROOT`, or none. -/
theorem keptUnder_treeOk : KeptUnder RegistersOk TreeOk where
  reset _ := treeOk_of_nil rfl rfl rfl
  clr _ _ := treeOk_of_nil rfl rfl rfl
  build u _ _ := runBuild_leaves_tree u (fun _ => treeOk_of_nil rfl rfl rfl)
    fun _ _ _ _ => HoldsTree.treeOk_setTree
  tdes _ hreg _ := runTdes_leaves_tree hreg (fun _ => treeOk_of_nil rfl rfl rfl)
    fun _ _ _ _ => HoldsTree.treeOk_setTree

/-- Every operation that finds legal registers keeps R41 (c) and (d). -/
theorem keptUnder_indicesOk : KeptUnder RegistersOk IndicesOk where
  reset _ := indicesOk_of_nil rfl
  clr _ _ := indicesOk_of_nil rfl
  build u _ _ := runBuild_leaves_tree u (fun _ => indicesOk_of_nil rfl)
    fun _ _ _ _ => HoldsTree.indicesOk_setTree
  tdes _ hreg _ := runTdes_leaves_tree hreg (fun _ => indicesOk_of_nil rfl)
    fun _ _ _ _ => HoldsTree.indicesOk_setTree

/-- Settles O58: only BUILD and TDES set a tree, and both set one of R41. -/
theorem stepKeepsTreeShape : Obligations.StepKeepsTreeShape :=
  fun _ _ hreg htree h => (keptUnder_registersOk.step_and keptUnder_treeOk h ⟨hreg, htree⟩).2

/-- Settles O59: the trees BUILD and TDES set take up their arena, each index once. -/
theorem stepKeepsTreeIndices : Obligations.StepKeepsTreeIndices :=
  fun _ _ hreg _ hidx h => (keptUnder_registersOk.step_and keptUnder_indicesOk h ⟨hreg, hidx⟩).2

/-! ### The nodes of a BUILD tree -/

/-- A node BUILD made: a Leaf with a weight and no child, or an Internal node over lower indices whose
weight and `tsym` are its children's sum and minimum, an absent right child counting nothing
(10_state.md R41 (e), 41_tree_builder.md R114, R115). -/
def SumsChildren (a : Arena) (k : NodeIdx) : Prop :=
  let n := nodeAt a k
  let l := nodeAt a n.left
  let r := nodeAt a n.right
  (n.kind = .leaf → n.weight ≠ 0 ∧ n.left = Config.nil ∧ n.right = Config.nil) ∧
  (n.kind = .internal → n.left.toNat < k.toNat) ∧
  (n.kind = .internal → n.right = Config.nil → n.weight = l.weight ∧ n.tsym = l.tsym) ∧
  (n.kind = .internal → n.right ≠ Config.nil → n.right.toNat < k.toNat ∧
    n.weight.toNat = l.weight.toNat + r.weight.toNat ∧ n.tsym.toNat = min l.tsym.toNat r.tsym.toNat)

theorem sumsChildren_of_leaf {a : Arena} {k : NodeIdx} (hk : (nodeAt a k).kind = .leaf)
    (hw : (nodeAt a k).weight ≠ 0) (hl : (nodeAt a k).left = Config.nil)
    (hr : (nodeAt a k).right = Config.nil) : SumsChildren a k := by
  have hne : (nodeAt a k).kind ≠ .internal := by simp [hk]
  exact ⟨fun _ => ⟨hw, hl, hr⟩, fun h => absurd h hne, fun h => absurd h hne, fun h => absurd h hne⟩

theorem sumsChildren_of_wrapper {a : Arena} {k : NodeIdx} (hk : (nodeAt a k).kind = .internal)
    (hlt : (nodeAt a k).left.toNat < k.toNat) (hr : (nodeAt a k).right = Config.nil)
    (hw : (nodeAt a k).weight = (nodeAt a (nodeAt a k).left).weight)
    (hsym : (nodeAt a k).tsym = (nodeAt a (nodeAt a k).left).tsym) : SumsChildren a k := by
  have hne : (nodeAt a k).kind ≠ .leaf := by simp [hk]
  exact ⟨fun h => absurd h hne, fun _ => hlt, fun _ _ => ⟨hw, hsym⟩, fun _ h => absurd hr h⟩

theorem sumsChildren_of_internal {a : Arena} {k l r : NodeIdx} (hk : (nodeAt a k).kind = .internal)
    (hl : (nodeAt a k).left = l) (hr : (nodeAt a k).right = r) (hlk : l.toNat < k.toNat)
    (hrk : r.toNat < k.toNat) (hrn : r ≠ Config.nil)
    (hw : (nodeAt a k).weight.toNat = (nodeAt a l).weight.toNat + (nodeAt a r).weight.toNat)
    (hsym : (nodeAt a k).tsym.toNat = min (nodeAt a l).tsym.toNat (nodeAt a r).tsym.toNat) :
    SumsChildren a k := by
  subst hl hr
  have hne : (nodeAt a k).kind ≠ .leaf := by simp [hk]
  exact ⟨fun h => absurd h hne, fun _ => hlk, fun _ h => absurd h hrn, fun _ _ => ⟨hrk, hw, hsym⟩⟩

theorem minSym_toNat (a b : Byte) : (minSym a b).toNat = min a.toNat b.toNat := by
  unfold minSym
  split
  · next h => rw [Nat.min_eq_left (BitVec.le_def.1 h)]
  · next h => rw [Nat.min_eq_right (by rw [BitVec.le_def] at h; omega)]

/-- The one counted symbol has a nonzero counter. -/
theorem freqAt_ne_zero_of_counted {s : State} {sym : Byte} (h : countedSymbols s = [sym]) :
    freqAt s sym ≠ 0 := by
  have hm : sym ∈ countedSymbols s := by rw [h]; exact List.mem_singleton.2 rfl
  simpa using (List.mem_filter.1 hm).2

theorem sumsChildren_wrapperNode {w : Word} (hw : w ≠ 0) (sym : Byte) (e : Nat) (k : NodeIdx)
    (hk : k.toNat < 2) :
    SumsChildren { entries := [leafNode w sym, wrapperNode (leafNode w sym)], epoch := e } k := by
  have hcases : k = 0 ∨ k = 1 := by bv_omega
  rcases hcases with rfl | rfl
  · exact sumsChildren_of_leaf rfl hw rfl rfl
  · exact sumsChildren_of_wrapper rfl (by decide : (0 : NodeIdx).toNat < (1 : NodeIdx).toNat) rfl rfl rfl

theorem sumsChildren_of_arenaNode {arena : List Node} {T : Nat → Tree} {L : Nat → List Nat} {k : NodeIdx}
    {n : Node} (hn : arena[k.toNat]? = some n) (node : ArenaNode arena T L k.toNat n)
    (hlen : arena.length ≤ 511) (e : Nat) : SumsChildren { entries := arena, epoch := e } k := by
  have at_eq : ∀ i n, arena[i]? = some n →
      nodeAt { entries := arena, epoch := e } (BitVec.ofNat 9 i) = n := by
    intro i n hi
    obtain ⟨hlt, rfl⟩ := List.getElem?_eq_some_iff.1 hi
    exact nodeAt_of_entries arena e i hlt hlen
  have hk : nodeAt { entries := arena, epoch := e } k = n := by
    have := at_eq k.toNat n hn
    rwa [BitVec.ofNat_toNat, BitVec.setWidth_eq] at this
  cases hkind : n.kind with
  | leaf =>
    obtain ⟨_, _, hw, hl, hr⟩ := node.leaf hkind
    subst hk
    exact sumsChildren_of_leaf hkind hw hl hr
  | internal =>
    obtain ⟨l, r, nl, nr, hlk, hrk, hnl, hnr, hleft, hright, _, _, hw, hsym⟩ := node.internal hkind
    have hlt : ∀ i < k.toNat, (BitVec.ofNat 9 i).toNat < k.toNat := fun i hi =>
      (toNat_ofNat_le (Nat.le_refl i)).trans_lt hi
    have hk511 : k.toNat < 511 := (List.getElem?_eq_some_iff.1 hn).1.trans_le hlen
    subst hk
    refine sumsChildren_of_internal hkind hleft hright (hlt l hlk) (hlt r hrk)
      (ofNat_ne_nil r (hrk.trans hk511)) ?_ ?_ <;> rw [at_eq l nl hnl, at_eq r nr hnr]
    · exact hw
    · rw [hsym, minSym_toNat]

/-- What BUILD leaves when it runs to its end. -/
theorem sumsChildren_of_runBuild {s u : State} (h : runBuild s = .done u) (k : NodeIdx)
    (hk : k.toNat < u.nodeCnt.toNat) : SumsChildren u.nodes k := by
  rcases runBuild_cases s with ⟨_, e⟩ | ⟨sym, hc, e⟩ | ⟨_, _, e⟩ |
    ⟨_, _, arena, root, T, L, _, _, inv, e⟩
  · simp [e] at h
  · obtain rfl : _ = u := Ran.done.inj (e.symm.trans h)
    exact sumsChildren_wrapperNode (freqAt_ne_zero_of_counted hc) sym _ k hk
  · simp [e] at h
  · obtain rfl : _ = u := Ran.done.inj (e.symm.trans h)
    have hlen := mergeInv_length inv
    have hsym := countedSymbols_length_le s
    have hlt : k.toNat < arena.length := hk.trans_le (toNat_ofNat_le (Nat.le_refl _))
    have hn := List.getElem?_eq_getElem hlt
    exact sumsChildren_of_arenaNode hn (inv.nodes _ _ hn) (by omega) _

/-- Settles O24: the node-by-node invariant of the merge loop, and the wrapper. -/
theorem buildNodesSumTheirChildren : Obligations.BuildNodesSumTheirChildren := by
  intro s t h hidle k hk
  rw [exec_eq_complete] at h
  rcases complete_eq_next h with ⟨u, hu, rfl⟩ | ⟨_, _, _, _, rfl⟩
  · exact sumsChildren_of_runBuild hu k hk
  · cases hidle

end Sys2Proof.Proofs
end

section
/-! Proofs about reset, the control registers and the host port. -/

namespace Sys2Proof.Proofs

open Sys2Proof Sys2Proof.Machine Sys2Proof.Safety

/-! ### Reset and CLR -/

/-- A state whose every register and table is at its reset value has the values R50 gives. -/
theorem resetValues_of_fields {s : State} (hfsm : s.fsm = .idle) (hdone : s.doneFlag = false)
    (hstage : s.stage = 0) (hcode : s.errCode = 0) (hinfo : s.errInfo = 0) (hin : s.inLen = 0)
    (hout : s.outLen = 0) (halpha : s.alphaLen = 0) (htopo : s.topoBits = 0) (hpay : s.payBits = 0)
    (hroot : s.root = Config.nil) (hcnt : s.nodeCnt = 0) (hsym : s.nsym = 0)
    (hfreq : s.freq = Vector.replicate 256 0) (htable : s.code = Vector.replicate 256 none) :
    ResetValues s := by
  refine ⟨hfsm, ?_, hcode, hinfo, hin, hout, halpha, htopo, hpay, hroot, hcnt, hsym, rfl, rfl, ?_, ?_⟩
  · simp only [statusWord, errFlag, busyFlag, hfsm, hdone, hstage]
    decide
  · intro sym
    simp [freqAt, hfreq]
  · intro sym
    simp [codeValid, codeAt, htable]

theorem resetValues_resetEvent (s : State) : ResetValues (resetEvent s) :=
  resetValues_of_fields rfl rfl rfl rfl rfl rfl rfl rfl rfl rfl rfl rfl rfl rfl rfl

/-- Settles O1: the reset turn is the reset event, which writes every register and table. -/
theorem resetValuesFromEveryState : Obligations.ResetValuesFromEveryState :=
  ⟨resetValues_of_fields rfl rfl rfl rfl rfl rfl rfl rfl rfl rfl rfl rfl rfl rfl rfl,
    fun _ _ => ⟨_, rfl, resetValues_resetEvent _, rfl⟩⟩

/-- CLR clears all and completes (49_control.md R224). -/
theorem exec_clr (s : State) : exec .clr s = .next (completeOk true (clearAll s)) := rfl

/-- Settles O17: CLR never raises, and writes every register and table. -/
theorem clrCompletes : Obligations.ClrCompletes :=
  fun s => ⟨_, exec_clr s, ⟨rfl, rfl, rfl, rfl, rfl⟩,
    resetValues_of_fields rfl rfl rfl rfl rfl rfl rfl rfl rfl rfl rfl rfl rfl rfl rfl, fun _ => rfl⟩

/-! ### The control registers -/

/-- A state in IDLE without a fault record is consistent. -/
theorem controlOk_of_idle {s : State} (hfsm : s.fsm = .idle) (hcode : s.errCode = 0)
    (hinfo : s.errInfo = 0) : ControlOk s := by
  have hf : s.fsm ≠ .faulted := by simp [hfsm]
  have hb : s.fsm ≠ .busy := by simp [hfsm]
  exact ⟨fun _ => ⟨hcode, hinfo⟩, fun h => absurd h hf, fun h => absurd h hb, fun h => absurd h hb,
    fun h => absurd h hb⟩

/-- Every kind of fault has a code from 2 to 9 (60_exceptions.md R250, R252). -/
theorem faultCode_errCodeOf (k : ErrKind) : faultCode (errCodeOf k) := by
  unfold faultCode
  cases k <;> decide

/-- A fault entry leaves the control registers consistent, whatever they were (60_exceptions.md R260). -/
theorem controlOk_enterFault (k : ErrKind) (info : Word) (s : State) :
    ControlOk (enterFault k info s) := by
  have hi : (enterFault k info s).fsm ≠ .idle := by simp
  have hb : (enterFault k info s).fsm ≠ .busy := by simp
  exact ⟨fun h => absurd h hi, fun _ => ⟨faultCode_errCodeOf k, rfl⟩, fun h => absurd h hb,
    fun h => absurd h hb, fun h => absurd h hb⟩

/-- Every command leaves the control registers consistent, whatever they were (49_control.md R222). -/
theorem controlOk_exec {i : Instr} {s t : State} (h : exec i s = .next t) : ControlOk t := by
  rw [exec_eq_complete] at h
  rcases complete_eq_next h with ⟨u, _, rfl⟩ | ⟨k, info, u, _, rfl⟩
  · exact controlOk_of_idle rfl rfl rfl
  · exact controlOk_enterFault k info u

/-- Acceptance keeps the control registers consistent: from IDLE there is no fault record, from FAULTED
there is one and the word is CLR's (49_control.md R221). -/
theorem controlOk_accept {s : State} (h : ControlOk s) (w : Word) (ff : Bool)
    (hfrom : s.fsm = .idle ∧ ff = false ∨ s.fsm = .faulted ∧ ff = true ∧ w = encode .clr) :
    ControlOk { s with pending := w, fsm := .busy, fromFaulted := ff, doneFlag := false } := by
  obtain ⟨hidle, hfaulted, _⟩ := h
  refine ⟨fun h => by simp at h, fun h => by simp at h, fun _ => rfl, fun _ hff => ?_,
    fun _ hff => ?_⟩
  · rcases hfrom with ⟨hf, _⟩ | ⟨_, rfl, _⟩
    · exact hidle hf
    · cases hff
  · rcases hfrom with ⟨_, rfl⟩ | ⟨hf, _, hw⟩
    · cases hff
    · exact ⟨(hfaulted hf).1, hw⟩

/-- Settles O55: a completion and the reset event set the control registers, acceptance keeps them, and no
other turn touches them. -/
theorem stepKeepsControl : Obligations.StepKeepsControl := fun _ _ hs h =>
  step_keeps h hs (fun _ _ hu => hu) (fun _ _ _ hu => hu) (fun _ => controlOk_of_idle rfl rfl rfl)
    (fun _ w ff hu => controlOk_accept hu w ff) (fun _ _ _ _ hu => hu) (fun _ _ _ _ hu => hu)
    (fun _ _ _ _ hu => hu) (fun _ _ _ _ _ _ ht => controlOk_exec ht)
    (fun _ _ _ => controlOk_enterFault _ _ _)

/-- Settles O54: reset leaves every length 0, every memory empty and no tree. -/
theorem resetMeetsEveryInvariant : Obligations.ResetMeetsEveryInvariant :=
  ⟨controlOk_of_idle rfl rfl rfl,
    registersOk_of_zero rfl rfl rfl rfl rfl rfl rfl,
    ⟨memoryFits_unknown _ _, memoryFits_unknown _ _, memoryFits_unknown _ _, memoryFits_unknown _ _,
      memoryFits_unknown _ _⟩,
    ⟨paddingClear_zero _, paddingClear_zero _⟩, codesOk_of_empty rfl, treeOk_of_nil rfl rfl rfl,
    indicesOk_of_nil rfl⟩

/-! ### Host writes -/

theorem busyFlag_of_not_busy {s : State} (hb : s.fsm ≠ .busy) : busyFlag s = false := by
  simpa [busyFlag] using hb

section HostWrites

variable {s : State} (hb : s.fsm ≠ .busy) (a v : Word)

include hb

/-! While not busy a host write goes to the space its address names (20_memory.md R61, R62). -/

theorem hostWrite_register (ha : spaceOf a = 0) :
    hostWrite a v s = writeRegister (offsetOf a) v s := by
  simp [hostWrite, busyFlag_of_not_busy hb, ha]

theorem hostWrite_inMem (ha : spaceOf a = 1) : hostWrite a v s = writeInMem (offsetOf a) v s := by
  simp [hostWrite, busyFlag_of_not_busy hb, ha]

theorem hostWrite_freq (ha : spaceOf a = 3) : hostWrite a v s = writeFreq (offsetOf a) v s := by
  simp [hostWrite, busyFlag_of_not_busy hb, ha]

theorem hostWrite_readOnly (h0 : spaceOf a ≠ 0) (h1 : spaceOf a ≠ 1) (h3 : spaceOf a ≠ 3) :
    hostWrite a v s = s := by
  unfold hostWrite
  rw [busyFlag_of_not_busy hb, if_neg Bool.false_ne_true]
  split
  · next h => exact absurd h h0
  · next h => exact absurd h h1
  · next h => exact absurd h h3
  · rfl

end HostWrites

/-- Registers other than `CMD` and `IN_LEN` are read-only (10_state.md R34). -/
theorem writeRegister_readOnly {n : Nat} (h0 : n ≠ 0) (h4 : n ≠ 4) (v : Word) (s : State) :
    writeRegister n v s = s := by
  unfold writeRegister
  split
  · exact absurd rfl h0
  · exact absurd rfl h4
  · rfl

theorem freqAt_set (s : State) (o : Nat) (v : Word) (ho : o < 256) (sym : Byte) :
    freqAt { s with freq := s.freq.set o v ho } sym = if sym.toNat = o then v else freqAt s sym := by
  unfold freqAt
  rw [Vector.getElem_set]
  simp only [eq_comm]

/-- Settles O11, space by space. -/
theorem hostWritesOneItem : Obligations.HostWritesOneItem := by
  intro s a v hb
  refine ⟨fun ha ho => ⟨memWrite s.inMem (offsetOf a) (v.setWidth 8), ?_, fun b => ?_⟩,
    fun ha ho => ⟨s.freq.set (offsetOf a) v ho, ?_, freqAt_set s _ v ho⟩, fun ha h0 h4 => ?_,
    fun ha ho => ?_, fun ha ho => ?_, hostWrite_readOnly hb a v⟩
  · rw [hostWrite_inMem hb a v ha, writeInMem, if_pos ho]
  · rw [memRead_memWrite, BitVec.setWidth_eq_extractLsb' (by decide)]
    simp only [eq_comm]
  · rw [hostWrite_freq hb a v ha, writeFreq, dif_pos ho]
  · rw [hostWrite_register hb a v ha, writeRegister_readOnly h0 h4]
  · rw [hostWrite_inMem hb a v ha, writeInMem, if_neg (Nat.not_lt.2 ho)]
  · rw [hostWrite_freq hb a v ha, writeFreq, dif_neg (Nat.not_lt.2 ho)]

/-- Every command but CLR keeps `IN_LEN`. -/
theorem inLen_exec_of_ne_clr {i : Instr} (hi : i ≠ .clr) {s t : State} (h : exec i s = .next t) :
    t.inLen = s.inLen := by
  have stages : StagesKeep (fun _ => True) fun u => u.inLen = s.inLen := {}
  exact exec_leaves h (stages.ruleOf_leaves hi rfl) (fun _ _ hu => hu) fun _ _ _ hu => hu

/-- Settles O10. -/
theorem inLenWrittenByHostAndClr : Obligations.InLenWrittenByHostAndClr := by
  refine ⟨fun s v hb => ?_, fun i s t h => ?_⟩
  · have hw : hostWrite 0x00000004 v s = writeRegister 4 v s := hostWrite_register hb _ v rfl
    rw [hw]
    refine ⟨fun hv => ?_, fun hv => if_neg (Nat.not_le.2 hv)⟩
    have he : writeRegister 4 v s = { s with inLen := v.setWidth 29 } := if_pos hv
    have hcap := bufCap_bounds.2
    refine ⟨he, ?_⟩
    rw [he]
    simp only [BitVec.toNat_setWidth]
    omega
  · split
    · next hi =>
      subst hi
      obtain rfl : _ = t := Host.Outcome.next.inj ((exec_clr s).symm.trans h)
      rfl
    · next hi => exact inLen_exec_of_ne_clr hi h

/-! ### Host reads -/

/-- While not busy a read returns the value the item has, if it has one (20_memory.md R62). -/
theorem hostRead_value {s : State} (hb : s.fsm ≠ .busy) (a : Word) {v : Word}
    (h : hostItem s a = .value v) : (hostRead a s).hostData = v := by
  unfold hostRead
  rw [busyFlag_of_not_busy hb, h]
  rfl

/-! What a host read finds in each space (20_memory.md R61). -/

theorem hostItem_register {s : State} {a : Word} (ha : spaceOf a = 0) :
    hostItem s a = .value (readRegister s (offsetOf a)) := by simp [hostItem, ha]

theorem hostItem_inMem {s : State} {a : Word} (ha : spaceOf a = 1) :
    hostItem s a = readByteItem s.inMem Config.bufCap s.inLen.toNat (offsetOf a) := by
  simp [hostItem, ha]

theorem hostItem_outMem {s : State} {a : Word} (ha : spaceOf a = 2) :
    hostItem s a = readByteItem s.outMem Config.bufCap s.outLen.toNat (offsetOf a) := by
  simp [hostItem, ha]

theorem hostItem_freq {s : State} {a : Word} (ha : spaceOf a = 3) :
    hostItem s a = readFreqItem s (offsetOf a) := by simp [hostItem, ha]

theorem hostItem_node {s : State} {a : Word} (ha : spaceOf a = 4) :
    hostItem s a = readNodeItem s (offsetOf a) := by simp [hostItem, ha]

theorem hostItem_code {s : State} {a : Word} (ha : spaceOf a = 5) :
    hostItem s a = readCodeItem s (offsetOf a) := by simp [hostItem, ha]

theorem hostItem_alphaMem {s : State} {a : Word} (ha : spaceOf a = 6) :
    hostItem s a = readByteItem s.alphaMem Config.nsymMax s.alphaLen.toNat (offsetOf a) := by
  simp [hostItem, ha]

theorem hostItem_topoMem {s : State} {a : Word} (ha : spaceOf a = 7) :
    hostItem s a = readByteItem s.topoMem Config.topoBytes (ceil8 s.topoBits.toNat) (offsetOf a) := by
  simp [hostItem, ha]

theorem hostItem_payMem {s : State} {a : Word} (ha : spaceOf a = 8) :
    hostItem s a = readByteItem s.payMem Config.bufCap (ceil8 s.payBits.toNat) (offsetOf a) := by
  simp [hostItem, ha]

theorem hostItem_unmapped {s : State} {a : Word} (ha : 9 ≤ spaceOf a) : hostItem s a = .value 0 := by
  unfold hostItem
  split
  case h_10 => rfl
  all_goals omega

/-! Items inside and beyond the extent. -/

theorem readByteItem_inside {m : Memory} {size extent o : Nat} (hs : o < size) (he : o < extent) :
    readByteItem m size extent o = .value ((memRead m o).setWidth 32) := by
  rw [readByteItem, if_neg (Nat.not_le.2 hs), if_pos he]

theorem readByteItem_beyond {m : Memory} {size extent o : Nat} (hs : size ≤ o) :
    readByteItem m size extent o = .value 0 := if_pos hs

theorem readFreqItem_inside {s : State} {o : Nat} {sym : Byte} (hs : sym.toNat = o) :
    readFreqItem s o = .value (freqAt s sym) := by
  subst hs
  rw [readFreqItem, if_neg (Nat.not_le.2 sym.isLt), BitVec.ofNat_toNat, BitVec.setWidth_eq]

theorem readFreqItem_beyond {s : State} {o : Nat} (ho : 256 ≤ o) : readFreqItem s o = .value 0 := if_pos ho

theorem readNodeItem_beyond {s : State} {o : Nat} (ho : 1022 ≤ o) : readNodeItem s o = .value 0 := if_pos ho

theorem readCodeItem_beyond {s : State} {o : Nat} (ho : 4096 ≤ o) : readCodeItem s o = .value 0 := if_pos ho

/-- Settles O12, space by space. -/
theorem hostWindowsRead : Obligations.HostWindowsRead := by
  intro s a hb
  refine ⟨fun ha hs he => ?_, fun ha hs he => ?_, fun ha hs he => ?_, fun ha hs he => ?_,
    fun ha hs he => ?_, fun ha sym hsym => ?_, fun ha ho => ?_, fun ha ho => ?_, fun ha ho => ?_,
    fun ha ho => ?_, fun ha ho => ?_, fun ha => ?_⟩ <;> apply hostRead_value hb
  · exact (hostItem_inMem ha).trans (readByteItem_inside hs he)
  · exact (hostItem_outMem ha).trans (readByteItem_inside hs he)
  · exact (hostItem_alphaMem ha).trans (readByteItem_inside hs he)
  · exact (hostItem_topoMem ha).trans (readByteItem_inside hs he)
  · exact (hostItem_payMem ha).trans (readByteItem_inside hs he)
  · exact (hostItem_freq ha).trans (readFreqItem_inside hsym)
  · rcases ha with ha | ha | ha
    · exact (hostItem_inMem ha).trans (readByteItem_beyond ho)
    · exact (hostItem_outMem ha).trans (readByteItem_beyond ho)
    · exact (hostItem_payMem ha).trans (readByteItem_beyond ho)
  · rcases ha with ha | ha
    · exact (hostItem_freq ha).trans (readFreqItem_beyond ho)
    · exact (hostItem_alphaMem ha).trans (readByteItem_beyond ho)
  · exact (hostItem_topoMem ha).trans (readByteItem_beyond ho)
  · exact (hostItem_node ha).trans (readNodeItem_beyond ho)
  · exact (hostItem_code ha).trans (readCodeItem_beyond ho)
  · exact hostItem_unmapped ha

/-! ### Addresses -/

theorem spaceOf_eq_div (a : Word) : spaceOf a = a.toNat / 2 ^ 28 := by
  have := a.isLt
  rw [spaceOf, BitVec.extractLsb'_toNat, Nat.shiftRight_eq_div_pow, Nat.mod_eq_of_lt (by omega)]

theorem offsetOf_eq_mod (a : Word) : offsetOf a = a.toNat % 2 ^ 28 := by
  simp [offsetOf]

/-! ### Words put together of fields -/

theorem getLsbD_append_of_lt {n m i : Nat} {x : BitVec n} {y : BitVec m} (h : i < m) :
    (x ++ y).getLsbD i = y.getLsbD i := by
  rw [BitVec.getLsbD_append, if_pos h]

theorem getLsbD_append_of_le {n m i : Nat} {x : BitVec n} {y : BitVec m} (h : m ≤ i) :
    (x ++ y).getLsbD i = x.getLsbD (i - m) := by
  rw [BitVec.getLsbD_append, if_neg (Nat.not_lt.2 h)]

theorem kindBit_getLsbD (k : NodeKind) : (kindBit k).getLsbD 0 = (k == .leaf) := by cases k <;> rfl

theorem flagBit_getLsbD (b : Bool) : (flagBit b).getLsbD 0 = b := by cases b <;> rfl

/-! ### The register file -/

/-- The `STATUS` word field by field (10_state.md R24). -/
theorem statusWord_fields (s : State) :
    (statusWord s).getLsbD 0 = busyFlag s ∧ (statusWord s).getLsbD 1 = s.doneFlag ∧
    (statusWord s).getLsbD 2 = errFlag s ∧ (statusWord s).extractLsb' 3 5 = 0 ∧
    (statusWord s).extractLsb' 8 8 = s.stage ∧ (statusWord s).extractLsb' 16 16 = 0 := by
  have upper : ∀ {start len : Nat}, 3 ≤ start → (statusWord s).extractLsb' start len =
      ((0 : BitVec 16) ++ s.stage ++ (0 : BitVec 5)).extractLsb' (start - 1 - 1 - 1) len := fun h =>
    (BitVec.extractLsb'_append_eq_of_le (by omega)).trans
      ((BitVec.extractLsb'_append_eq_of_le (by omega)).trans
        (BitVec.extractLsb'_append_eq_of_le (by omega)))
  refine ⟨?_, ?_, ?_, ?_, ?_, ?_⟩
  · exact (getLsbD_append_of_lt (by decide)).trans (flagBit_getLsbD _)
  · exact (getLsbD_append_of_le (by decide)).trans
      ((getLsbD_append_of_lt (by decide)).trans (flagBit_getLsbD _))
  · exact (getLsbD_append_of_le (by decide)).trans ((getLsbD_append_of_le (by decide)).trans
      ((getLsbD_append_of_lt (by decide)).trans (flagBit_getLsbD _)))
  · exact (upper (by decide)).trans BitVec.extractLsb'_append_eq_right
  · exact (upper (by decide)).trans ((BitVec.extractLsb'_append_eq_of_le (by decide)).trans
      BitVec.extractLsb'_append_eq_right)
  · exact (upper (by decide)).trans ((BitVec.extractLsb'_append_eq_of_le (by decide)).trans
      BitVec.extractLsb'_append_eq_left)

/-- Register numbers from 14 on are reserved and read 0 (10_state.md R34). -/
theorem readRegister_reserved (s : State) {n : Nat} (hn : 14 ≤ n) : readRegister s n = 0 := by
  unfold readRegister
  split
  case h_14 => rfl
  all_goals omega

/-- Settles O9. -/
theorem registerFileReads : Obligations.RegisterFileReads := by
  intro s hb
  have reads : ∀ a : Word, spaceOf a = 0 → (hostRead a s).hostData = readRegister s (offsetOf a) :=
    fun a ha => hostRead_value hb a (hostItem_register ha)
  have hcap : (BitVec.ofNat 32 Config.bufCap).toNat = Config.bufCap := by
    have := bufCap_bounds.2
    rw [BitVec.toNat_ofNat, Nat.mod_eq_of_lt (by omega)]
  obtain ⟨hbusy, hfields⟩ := statusWord_fields s
  dsimp only
  rw [reads 1 rfl]
  refine ⟨reads 0 rfl, ⟨hbusy.trans (busyFlag_of_not_busy hb), hfields⟩, reads 2 rfl, reads 3 rfl,
    reads 4 rfl, reads 5 rfl, reads 6 rfl, reads 7 rfl, reads 8 rfl, reads 9 rfl, reads 10 rfl,
    reads 11 rfl, ?_, reads 13 rfl, fun a h14 hlt => ?_⟩
  · rw [reads 12 rfl]
    exact hcap
  · rw [reads a (by rw [spaceOf_eq_div, Nat.div_eq_of_lt hlt]),
      readRegister_reserved s (by rwa [offsetOf_eq_mod, Nat.mod_eq_of_lt hlt])]

/-! ### The node window -/

/-- The link word field by field (30_encoding.md R87). -/
theorem linkWord_fields (n : Node) :
    (linkWord n).getLsbD 31 = (n.kind == .leaf) ∧ (linkWord n).extractLsb' 26 5 = 0 ∧
    (linkWord n).extractLsb' 17 9 = n.left ∧ (linkWord n).extractLsb' 8 9 = n.right ∧
    (linkWord n).extractLsb' 0 8 = n.tsym := by
  have children : ∀ {start len : Nat}, 8 ≤ start → (linkWord n).extractLsb' start len =
      (kindBit n.kind ++ (0 : BitVec 5) ++ n.left ++ n.right).extractLsb' (start - 8) len :=
    BitVec.extractLsb'_append_eq_of_le
  have above : ∀ {start len : Nat}, 26 ≤ start → (linkWord n).extractLsb' start len =
      (kindBit n.kind ++ (0 : BitVec 5)).extractLsb' (start - 8 - 9 - 9) len := fun h =>
    (children (by omega)).trans ((BitVec.extractLsb'_append_eq_of_le (by omega)).trans
      (BitVec.extractLsb'_append_eq_of_le (by omega)))
  refine ⟨?_, ?_, ?_, ?_, ?_⟩
  · exact (getLsbD_append_of_le (by decide)).trans ((getLsbD_append_of_le (by decide)).trans
      ((getLsbD_append_of_le (by decide)).trans ((getLsbD_append_of_le (by decide)).trans
        (kindBit_getLsbD _))))
  · exact (above (by decide)).trans BitVec.extractLsb'_append_eq_right
  · exact (children (by decide)).trans ((BitVec.extractLsb'_append_eq_of_le (by decide)).trans
      BitVec.extractLsb'_append_eq_right)
  · exact (children (by decide)).trans BitVec.extractLsb'_append_eq_right
  · exact BitVec.extractLsb'_append_eq_right

/-- The two items of a valid node: the weight at the even offset, the link word at the odd (R87). -/
theorem readNodeItem_valid {s : State} {i : NodeIdx} (hn : i ≠ Config.nil)
    (hi : i.toNat < s.nodeCnt.toNat) :
    readNodeItem s (2 * i.toNat) = .value (nodeAt s.nodes i).weight ∧
      readNodeItem s (2 * i.toNat + 1) = .value (linkWord (nodeAt s.nodes i)) := by
  have h511 : i.toNat < 511 := by
    have := i.isLt
    have : i.toNat ≠ 511 := fun e => hn (BitVec.eq_of_toNat_eq e)
    omega
  constructor
  · rw [readNodeItem, if_neg (by unfold Config.nodeCap; omega), Nat.mul_div_cancel_left _ (by decide),
      if_pos hi]
    simp
  · rw [readNodeItem, if_neg (by unfold Config.nodeCap; omega),
      show (2 * i.toNat + 1) / 2 = i.toNat by omega, if_pos hi]
    simp

/-- Settles O13. -/
theorem nodeWindowWords : Obligations.NodeWindowWords := by
  intro s i hb hn hi
  have reads : ∀ o < 1024, (hostItem s (BitVec.ofNat 32 (0x40000000 + o))) = readNodeItem s o := by
    intro o ho
    have ha : (BitVec.ofNat 32 (0x40000000 + o)).toNat = 0x40000000 + o := by
      rw [BitVec.toNat_ofNat, Nat.mod_eq_of_lt (by omega)]
    rw [hostItem_node (by rw [spaceOf_eq_div, ha]; omega), offsetOf_eq_mod, ha]
    congr 1
    omega
  obtain ⟨hweight, hlink⟩ := readNodeItem_valid hn hi
  have := i.isLt
  dsimp only
  rw [hostRead_value hb _ ((reads (2 * i.toNat) (by omega)).trans hweight), Nat.add_assoc,
    hostRead_value hb _ ((reads (2 * i.toNat + 1) (by omega)).trans hlink)]
  exact ⟨rfl, linkWord_fields _⟩

end Sys2Proof.Proofs
end

section
/-! Proofs about the turns: what the block's turn and a host transaction do, what the host cannot touch, and
what each command leaves unchanged. -/

namespace Sys2Proof.Proofs

open Sys2Proof Sys2Proof.Machine Sys2Proof.Safety

/-! ### Whose turn it is -/

theorem step_of_agenda_nil {s : State} (h : s.agenda = []) : step s = blockTurn s := by
  simp [step, advance, h]

theorem step_of_agenda_cons {s : State} {x : Turn} {rest : List Turn} (h : s.agenda = x :: rest) :
    step s = takeTurn x { s with agenda := rest } := by
  simp [step, advance, h]

/-- The block's turn completes the command in `PENDING` (49_control.md R222). -/
theorem blockTurn_of_busy {s : State} {i : Instr} (hb : s.fsm = .busy) (hd : decode s.pending = .ok i) :
    blockTurn s = exec i s := by
  simp [blockTurn, completePending, hb, hd]

/-- A block that is not busy waits (49_control.md R222). -/
theorem blockTurn_of_not_busy {s : State} (hb : s.fsm ≠ .busy) : blockTurn s = .next s := by
  rcases blockTurn_cases s with ⟨_, e⟩ | ⟨h, _⟩ | ⟨h, _⟩
  · exact e
  · exact absurd h hb
  · exact absurd h hb

/-- Settles O4: the agenda's first turn is taken, or the block's when there is none. -/
theorem stepRunsDecodedCommand : Obligations.StepRunsDecodedCommand :=
  ⟨fun _ _ hb hd =>
    ⟨fun ha => (step_of_agenda_nil ha).trans (blockTurn_of_busy hb hd),
      fun _ ha => (step_of_agenda_cons ha).trans (blockTurn_of_busy hb hd)⟩,
    fun _ _ =>
    ⟨fun _ _ ha => step_of_agenda_cons ha, fun _ ha => step_of_agenda_cons ha,
      fun hb ha => (step_of_agenda_cons ha).trans (blockTurn_of_not_busy hb),
      fun hb ha => (step_of_agenda_nil ha).trans (blockTurn_of_not_busy hb)⟩⟩

/-! ### The host while the block is busy -/

theorem busyFlag_of_busy {s : State} (hb : s.fsm = .busy) : busyFlag s = true := by
  simp [busyFlag, hb]

/-- While BUSY every host write is dropped (20_memory.md R73). -/
theorem hostWrite_of_busy {s : State} (hb : s.fsm = .busy) (a v : Word) : hostWrite a v s = s := by
  rw [hostWrite, if_pos (busyFlag_of_busy hb)]

/-- While BUSY a read of `STATUS` returns a free value with bit 0 set (20_memory.md R73). -/
theorem hostRead_status_of_busy {s : State} (hb : s.fsm = .busy) :
    hostRead 0x00000001 s = giveUnspecified busyStatusWord s := by
  rw [hostRead, if_pos (busyFlag_of_busy hb), if_pos rfl]

theorem busyStatusWord_getLsbD_zero (w : Word) : (busyStatusWord w).getLsbD 0 = true := by
  simp [busyStatusWord]

/-- Settles O8. -/
theorem hostReadsHarmlessAndBusyShutsOut : Obligations.HostReadsHarmlessAndBusyShutsOut := by
  refine ⟨hostRead_frame, fun s hb => ⟨hostWrite_of_busy hb, ?_⟩⟩
  rw [hostRead_status_of_busy hb]
  exact busyStatusWord_getLsbD_zero _

/-! ### What each command leaves unchanged -/

/-- What a command's rule leaves, the command leaves when it is no matter of the control registers: those are
all that a completion and a fault entry write (49_control.md R222, 60_exceptions.md R260). -/
theorem exec_frame {P : State → Prop} {i : Instr} {s t : State} (h : exec i s = .next t)
    (hr : (ruleOf i s).Leaves P) (ok : ∀ c u, P u → P (completeOk c u) := by exact fun _ _ hu => hu)
    (fault : ∀ k info u, P u → P (enterFault k info u) := by exact fun _ _ _ hu => hu) : P t :=
  exec_leaves h hr ok fault

/-! Every item is the same in a state and itself. The items a stage does not name in its update are those of
the state before it by definition, so these also compare the two states. -/

theorem sameInput_refl (s : State) : SameInput s s := ⟨rfl, fun _ => rfl⟩
theorem sameOutput_refl (s : State) : SameOutput s s := ⟨rfl, fun _ => rfl⟩
theorem sameAlphabet_refl (s : State) : SameAlphabet s s := ⟨rfl, fun _ => rfl⟩
theorem sameTopology_refl (s : State) : SameTopology s s := ⟨rfl, fun _ => rfl⟩
theorem samePayload_refl (s : State) : SamePayload s s := ⟨rfl, fun _ => rfl⟩
theorem sameTree_refl (s : State) : SameTree s s := ⟨rfl, rfl, rfl, fun _ => rfl⟩
theorem sameCode_refl (s : State) : SameCode s s := fun _ => rfl
theorem sameFreq_refl (s : State) : SameFreq s s := fun _ => rfl
theorem samePort_refl (s : State) : SamePort s s := ⟨rfl, rfl, rfl⟩

/-- No stage touches the port's fields or the input (20_memory.md R63). -/
theorem stagesKeep_port_and_input (s : State) :
    StagesKeep (fun _ => True) fun u => SamePort s u ∧ SameInput s u := {}

/-- Every command but CLR leaves the port's fields and the input (20_memory.md R63). -/
theorem port_and_input_exec {i : Instr} (hi : i ≠ .clr) {s t : State} (h : exec i s = .next t) :
    SamePort s t ∧ SameInput s t :=
  exec_frame (P := fun u => SamePort s u ∧ SameInput s u) h
    ((stagesKeep_port_and_input s).ruleOf_leaves hi ⟨samePort_refl s, sameInput_refl s⟩)

/-- Every command leaves the port's fields and the bytes of `IN_MEM` (20_memory.md R63). -/
theorem port_and_inMem_exec {i : Instr} {s t : State} (h : exec i s = .next t) :
    SamePort s t ∧ ∀ a, memRead t.inMem a = memRead s.inMem a := by
  by_cases hi : i = .clr
  · subst hi
    obtain rfl : _ = t := Host.Outcome.next.inj ((exec_clr s).symm.trans h)
    exact ⟨samePort_refl s, fun _ => rfl⟩
  · exact (port_and_input_exec hi h).imp_right And.right

/-! What each stage writes, told by what it leaves unchanged, completed or faulted. -/

/-- HIST writes `FREQ` only (40_symbol_table.md R100). -/
theorem runHist_frame (s : State) : (runHist s).Leaves fun u =>
    SameInput s u ∧ SameOutput s u ∧ SameAlphabet s u ∧ SameTopology s u ∧ SamePayload s u ∧ SameTree s u ∧
    SameCode s u := by
  refine runHist_leaves ?_ ?_ <;>
    exact ⟨sameInput_refl s, sameOutput_refl s, sameAlphabet_refl s, sameTopology_refl s,
      samePayload_refl s, sameTree_refl s, sameCode_refl s⟩

/-- BUILD writes the tree only (41_tree_builder.md R116). -/
theorem runBuild_frame (s : State) : (runBuild s).Leaves fun u =>
    SameInput s u ∧ SameOutput s u ∧ SameAlphabet s u ∧ SameTopology s u ∧ SamePayload s u ∧ SameCode s u ∧
    SameFreq s u := by
  refine runBuild_leaves ?_ (fun _ _ => ?_) fun _ _ _ _ _ _ => ?_ <;>
    exact ⟨sameInput_refl s, sameOutput_refl s, sameAlphabet_refl s, sameTopology_refl s,
      samePayload_refl s, sameCode_refl s, sameFreq_refl s⟩

/-- GENC writes the CodeTable only (42_code_table.md R126). -/
theorem runGenc_frame (s : State) : (runGenc s).Leaves fun u =>
    SameInput s u ∧ SameOutput s u ∧ SameAlphabet s u ∧ SameTopology s u ∧ SamePayload s u ∧ SameTree s u ∧
    SameFreq s u := by
  refine runGenc_leaves ?_ fun _ _ => ?_ <;>
    exact ⟨sameInput_refl s, sameOutput_refl s, sameAlphabet_refl s, sameTopology_refl s,
      samePayload_refl s, sameTree_refl s, sameFreq_refl s⟩

/-- TSER writes topology and Alphabet only (43_tree_serializer.md R136). -/
theorem runTser_frame (s : State) : (runTser s).Leaves fun u =>
    SameInput s u ∧ SameOutput s u ∧ SamePayload s u ∧ SameTree s u ∧ SameCode s u ∧ SameFreq s u := by
  refine runTser_leaves ?_ fun _ _ _ => ?_ <;>
    exact ⟨sameInput_refl s, sameOutput_refl s, samePayload_refl s, sameTree_refl s, sameCode_refl s,
      sameFreq_refl s⟩

/-- ENC writes the payload only (46_encoder.md R176). -/
theorem runEnc_frame (s : State) : (runEnc s).Leaves fun u =>
    SameInput s u ∧ SameOutput s u ∧ SameAlphabet s u ∧ SameTopology s u ∧ SameTree s u ∧ SameCode s u ∧
    SameFreq s u := by
  refine runEnc_leaves ?_ fun _ _ => ?_ <;>
    exact ⟨sameInput_refl s, sameOutput_refl s, sameAlphabet_refl s, sameTopology_refl s, sameTree_refl s,
      sameCode_refl s, sameFreq_refl s⟩

/-- ASM writes the output only (48_container.md R201). -/
theorem runAsm_frame (s : State) : (runAsm s).Leaves fun u =>
    SameInput s u ∧ SameAlphabet s u ∧ SameTopology s u ∧ SamePayload s u ∧ SameTree s u ∧ SameCode s u ∧
    SameFreq s u := by
  refine runAsm_leaves ?_ fun _ _ => ?_ <;>
    exact ⟨sameInput_refl s, sameAlphabet_refl s, sameTopology_refl s, samePayload_refl s, sameTree_refl s,
      sameCode_refl s, sameFreq_refl s⟩

/-- PARSE writes Alphabet, topology and payload only (48_container.md R202). -/
theorem runParse_frame (s : State) : (runParse s).Leaves fun u =>
    SameInput s u ∧ SameOutput s u ∧ SameTree s u ∧ SameCode s u ∧ SameFreq s u := by
  refine runParse_leaves ?_ fun _ _ _ _ _ _ _ => ?_ <;>
    exact ⟨sameInput_refl s, sameOutput_refl s, sameTree_refl s, sameCode_refl s, sameFreq_refl s⟩

/-- TDES writes the tree only (44_tree_deserializer.md R146). -/
theorem runTdes_frame (s : State) : (runTdes s).Leaves fun u =>
    SameInput s u ∧ SameOutput s u ∧ SameAlphabet s u ∧ SameTopology s u ∧ SamePayload s u ∧ SameCode s u ∧
    SameFreq s u := by
  refine runTdes_leaves ?_ ?_ fun _ _ _ => ?_ <;>
    exact ⟨sameInput_refl s, sameOutput_refl s, sameAlphabet_refl s, sameTopology_refl s,
      samePayload_refl s, sameCode_refl s, sameFreq_refl s⟩

/-- DEC writes the output only (47_decoder.md R186). -/
theorem runDec_frame (s : State) : (runDec s).Leaves fun u =>
    SameInput s u ∧ SameAlphabet s u ∧ SameTopology s u ∧ SamePayload s u ∧ SameTree s u ∧ SameCode s u ∧
    SameFreq s u := by
  refine runDec_leaves ?_ fun _ _ => ?_ <;>
    exact ⟨sameInput_refl s, sameAlphabet_refl s, sameTopology_refl s, samePayload_refl s, sameTree_refl s,
      sameCode_refl s, sameFreq_refl s⟩

/-- DECOMP writes neither the input nor `FREQ` nor the CodeTable, since none of its stages does
(49_control.md R226). -/
theorem runDecomp_frame (s : State) : (runDecomp s).Leaves fun u =>
    SameInput s u ∧ SameCode s u ∧ SameFreq s u :=
  runDecomp_leaves ⟨sameInput_refl s, sameCode_refl s, sameFreq_refl s⟩ (fun _ hu => hu)
    (fun _ hu => runParse_leaves hu fun _ _ _ _ _ _ _ => hu)
    (fun _ hu => runTdes_leaves hu hu fun _ _ _ => hu)
    fun _ hu => runDec_leaves hu fun _ _ => hu

/-- Settles O15: the frame of each stage, which completion and a fault entry keep. -/
theorem commandFrames : Obligations.CommandFrames := fun s _ =>
  ⟨fun _ => port_and_inMem_exec, fun h => exec_frame h (runHist_frame s),
    fun h => exec_frame h (runBuild_frame s), fun h => exec_frame h (runGenc_frame s),
    fun h => exec_frame h (runTser_frame s), fun h => exec_frame h (runEnc_frame s),
    fun h => exec_frame h (runAsm_frame s), fun h => exec_frame h (runParse_frame s),
    fun h => exec_frame h (runTdes_frame s), fun h => exec_frame h (runDec_frame s),
    fun h => (port_and_input_exec (by decide) h).2, fun h => exec_frame h (runDecomp_frame s)⟩

end Sys2Proof.Proofs
end

section
/-! Proofs about the encoding: command words, the words of the code window, and the completion of a word
that is no command. -/

namespace Sys2Proof.Proofs

open Sys2Proof Sys2Proof.Machine Sys2Proof.Safety

/-! ### Command words -/

/-- The opcode map and the opcodes of the commands are inverse (30_encoding.md R81). -/
theorem instrOfOpcode_eq_some_iff (op : Byte) (i : Instr) :
    instrOfOpcode op = some i ↔ op = opcodeOf i := by
  have rows : ∀ row ∈ opcodeMap, row.1 = opcodeOf row.2 := by decide
  constructor
  · intro h
    obtain ⟨row, hfind, rfl⟩ := Option.map_eq_some_iff.1 h
    have hop : row.1 = op := by simpa using List.find?_some hfind
    exact hop.symm.trans (rows row (List.mem_of_find?_eq_some hfind))
  · rintro rfl
    cases i <;> rfl

/-- The defined opcodes are those of the commands (30_encoding.md R81). -/
theorem mem_definedOpcodes_iff (op : Byte) : op ∈ definedOpcodes ↔ ∃ i, op = opcodeOf i := by
  have rows : ∀ op ∈ definedOpcodes, (instrOfOpcode op).isSome := by decide
  constructor
  · intro h
    obtain ⟨i, hi⟩ := Option.isSome_iff_exists.1 (rows op h)
    exact ⟨i, (instrOfOpcode_eq_some_iff op i).1 hi⟩
  · rintro ⟨i, rfl⟩
    cases i <;> decide

/-- A word decodes to a command exactly when its reserved field is 0 and its opcode is the command's
(30_encoding.md R83). -/
theorem decode_eq_ok_iff (w : Word) (i : Instr) :
    decode w = .ok i ↔ w.extractLsb' 8 24 = 0 ∧ w.extractLsb' 0 8 = opcodeOf i := by
  rw [← instrOfOpcode_eq_some_iff, decode]
  split
  · next hr => cases instrOfOpcode (w.extractLsb' 0 8) <;> simp [hr]
  · next hr => exact iff_of_false nofun fun h => hr h.1

/-- A 32-bit word is its two fields in a row (30_encoding.md R80). -/
theorem word_eq_append_iff (w : Word) (hi : BitVec 24) (lo : Byte) :
    w = hi ++ lo ↔ w.extractLsb' 8 24 = hi ∧ w.extractLsb' 0 8 = lo := by
  constructor
  · rintro rfl
    exact ⟨BitVec.extractLsb'_append_eq_left, BitVec.extractLsb'_append_eq_right⟩
  · rintro ⟨rfl, rfl⟩
    rw [BitVec.extractLsb'_append_extractLsb'_eq_extractLsb' (by rfl)]
    exact BitVec.extractLsb'_eq_self.symm

/-- Decoding and encoding are inverse (30_encoding.md R80, R81, R83). -/
theorem decode_eq_ok_iff_eq_encode (w : Word) (i : Instr) : decode w = .ok i ↔ w = encode i :=
  (decode_eq_ok_iff w i).trans (word_eq_append_iff w 0 (opcodeOf i)).symm

/-- Settles O3: a word and its two fields determine each other, and so do opcode and command. -/
theorem decodeEncodeInverse : Obligations.DecodeEncodeInverse := by
  refine ⟨decode_eq_ok_iff_eq_encode, fun w => ?_⟩
  simp only [decode_eq_ok_iff, mem_definedOpcodes_iff, exists_and_left]

theorem decode_encode (i : Instr) : decode (encode i) = .ok i :=
  (decode_eq_ok_iff_eq_encode _ _).2 rfl

/-- Settles O2: each of the twelve words is the command's own. -/
theorem opcodeMapDecodes : Obligations.OpcodeMapDecodes :=
  ⟨decode_encode .clr, decode_encode .hist, decode_encode .build, decode_encode .genc, decode_encode .tser,
    decode_encode .enc, decode_encode .asm, decode_encode .parse, decode_encode .tdes, decode_encode .dec,
    decode_encode .comp, decode_encode .decomp⟩

/-! ### A word that is no command -/

/-- The block's turn completes a word that is no command with `BadCommand` (30_encoding.md R83). -/
theorem blockTurn_of_not_command {s : State} (hb : s.fsm = .busy) (hd : ∀ i, decode s.pending ≠ .ok i) :
    blockTurn s = .next (badCommand s) := by
  rcases blockTurn_cases s with ⟨h, _⟩ | ⟨_, i, h, _⟩ | ⟨_, _, e⟩
  · exact absurd hb h
  · exact absurd h (hd i)
  · exact e

/-- Settles O5: the agenda's turn is taken off, and the block's turn is the fault entry. -/
theorem illegalWordFaults : Obligations.IllegalWordFaults := fun _ hb hd =>
  ⟨fun ha => (step_of_agenda_nil ha).trans (blockTurn_of_not_command hb hd),
    fun _ ha => (step_of_agenda_cons ha).trans (blockTurn_of_not_command hb hd)⟩

/-! ### The code window -/

/-- Bits accumulated most significant first: of `n` bits, the `m`-th is bit `n - 1 - m` of the number. -/
theorem testBit_foldl_bits (f : Nat → Bool) {n m : Nat} (hm : m < n) :
    ((List.range n).foldl (fun acc k => 2 * acc + (f k).toNat) 0).testBit (n - 1 - m) = f m := by
  induction n with
  | zero => omega
  | succ n ih =>
    rw [List.range_succ, List.foldl_concat, ← Nat.bit_val]
    rcases Nat.lt_succ_iff_lt_or_eq.1 hm with hlt | rfl
    · rw [show n + 1 - 1 - m = (n - 1 - m) + 1 by omega, Nat.testBit_bit_succ]
      exact ih hlt
    · rw [show m + 1 - 1 - m = 0 by omega, Nat.testBit_bit_zero]

/-- Bit `31 - m` of a word of code bits is the code's bit `start + m`, 0 beyond its end (30_encoding.md
R88). -/
theorem codeBitsWord_getLsbD (c : BitSeq) (start : Nat) {m : Nat} (hm : m < 32) :
    (codeBitsWord c start).getLsbD (31 - m) = c.getD (start + m) false := by
  rw [codeBitsWord, BitVec.getLsbD_ofNat,
    testBit_foldl_bits (fun m => c.getD (start + m) false) hm, decide_eq_true (by omega), Bool.true_and]

/-- Word 0 of a valid entry: the valid bit, and its length (30_encoding.md R88). -/
def codeHeadWord (c : BitSeq) : Word := (1 : BitVec 1) ++ (0 : BitVec 23) ++ BitVec.ofNat 8 c.length

theorem codeHeadWord_fields (c : BitSeq) (hc : c.length ≤ 255) :
    (codeHeadWord c).getLsbD 31 = true ∧ (codeHeadWord c).extractLsb' 8 23 = 0 ∧
    ((codeHeadWord c).extractLsb' 0 8).toNat = c.length := by
  refine ⟨?_, ?_, ?_⟩
  · exact (getLsbD_append_of_le (by decide)).trans (getLsbD_append_of_le (by decide))
  · exact (BitVec.extractLsb'_append_eq_of_le (by decide)).trans BitVec.extractLsb'_append_eq_right
  · rw [codeHeadWord, BitVec.extractLsb'_append_eq_right, BitVec.toNat_ofNat, Nat.mod_eq_of_lt (by omega)]

/-- The word at place `j` of the sixteen an entry of the CodeTable shows (30_encoding.md R88). -/
def codeEntryWord (entry : Option BitSeq) (j : Nat) : Word :=
  match entry with
  | none => 0
  | some c => if j = 0 then codeHeadWord c else if j ≤ 8 then codeBitsWord c (32 * (j - 1)) else 0

/-- The `CODE` space is sixteen words per symbol (30_encoding.md R88). -/
theorem readCodeItem_entry (s : State) (sym : Byte) {j : Nat} (hj : j < 16) :
    readCodeItem s (16 * sym.toNat + j) = .value (codeEntryWord (codeAt s sym) j) := by
  have hsym := sym.isLt
  rw [readCodeItem, if_neg (by omega), show (16 * sym.toNat + j) / 16 = sym.toNat by omega,
    show (16 * sym.toNat + j) % 16 = j by omega, BitVec.ofNat_toNat, BitVec.setWidth_eq]
  cases codeAt s sym with
  | none => rfl
  | some c =>
    simp only [codeEntryWord, codeHeadWord]
    split_ifs <;> rfl

/-- Word `j` of a symbol, read by the host at its address (20_memory.md R61, 30_encoding.md R88). -/
theorem hostRead_code {s : State} (hb : s.fsm ≠ .busy) (sym : Byte) {j : Nat} (hj : j < 16) :
    (hostRead (BitVec.ofNat 32 (0x50000000 + 16 * sym.toNat + j)) s).hostData =
      codeEntryWord (codeAt s sym) j := by
  have hsym := sym.isLt
  have ha : (BitVec.ofNat 32 (0x50000000 + 16 * sym.toNat + j)).toNat =
      0x50000000 + (16 * sym.toNat + j) := by
    rw [BitVec.toNat_ofNat, Nat.mod_eq_of_lt (by omega), Nat.add_assoc]
  apply hostRead_value hb
  rw [hostItem_code (by rw [spaceOf_eq_div, ha]; omega), offsetOf_eq_mod, ha,
    show (0x50000000 + (16 * sym.toNat + j)) % 2 ^ 28 = 16 * sym.toNat + j by omega]
  exact readCodeItem_entry s sym hj

/-- Settles O14: an entry that is not valid shows 0 everywhere, a valid one its three kinds of words. -/
theorem codeWindowWords : Obligations.CodeWindowWords := by
  intro s sym j hb hcodes hj
  dsimp only
  rw [hostRead_code hb sym hj, codeValid, codeLen]
  cases hentry : codeAt s sym with
  | none => simp [codeEntryWord]
  | some c =>
    refine ⟨fun h0 => ?_, fun h1 h8 m hm => ?_, fun h9 => ?_⟩
    · rw [codeEntryWord, if_pos h0]
      exact codeHeadWord_fields c (hcodes sym c hentry)
    · rw [codeEntryWord, if_neg (by omega), if_pos h8]
      exact codeBitsWord_getLsbD c _ hm
    · rw [codeEntryWord, if_neg (by omega), if_neg (by omega)]

end Sys2Proof.Proofs
end

section
/-! Proofs about the symbol table: the counters HIST leaves, and the faults of an input without symbols. -/

namespace Sys2Proof.Proofs

open Sys2Proof Sys2Proof.Machine Sys2Proof.Safety

/-! ### The list of all symbols -/

theorem allSymbols_nodup : allSymbols.Nodup := by decide +kernel

theorem mem_allSymbols (sym : Byte) : sym ∈ allSymbols :=
  List.mem_map.2 ⟨sym.toNat, List.mem_range.2 sym.isLt, by rw [BitVec.ofNat_toNat, BitVec.setWidth_eq]⟩

/-- Over all symbols the counts of a byte sequence add up to its length (40_symbol_table.md R101 (a)). -/
theorem sum_count_allSymbols (bs : List Byte) : (allSymbols.map fun sym => bs.count sym).sum = bs.length := by
  have hmem : ∀ sym ∈ (bs : Multiset Byte), sym ∈ allSymbols.toFinset := fun sym _ =>
    List.mem_toFinset.2 (mem_allSymbols sym)
  simpa only [Multiset.coe_count, Multiset.coe_card, List.sum_toFinset _ allSymbols_nodup] using
    Multiset.sum_count_eq_card hmem

/-! ### The counters after HIST -/

theorem inBytes_length (s : State) : (inBytes s).length = s.inLen.toNat := memBytes_length _ _

/-- The counters of a table that holds a histogram do not wrap when the sequence is shorter than 2^32
(40_symbol_table.md R100). -/
theorem freqAt_histogram {t : State} {bs : List Byte} (ht : t.freq = histogram bs)
    (hlen : bs.length < 2 ^ 32) (sym : Byte) : (freqAt t sym).toNat = bs.count sym := by
  have hcount : bs.count sym < 2 ^ 32 := List.count_le_length.trans_lt hlen
  simpa [freqAt, ht, histogram] using hcount

/-- The state a HIST of a non-empty input answers (40_symbol_table.md R100, 49_control.md R222). -/
def afterHist (s : State) : State :=
  completeOk false { setStage .hist s with freq := histogram (inBytes s) }

theorem afterHist_freq (s : State) : (afterHist s).freq = histogram (inBytes s) := rfl

theorem freqAt_afterHist (s : State) (sym : Byte) : (freqAt (afterHist s) sym).toNat = (inBytes s).count sym := by
  refine freqAt_histogram (afterHist_freq s) ?_ sym
  rw [inBytes_length]
  have := s.inLen.isLt
  omega

theorem freqAt_afterHist_ne_zero_iff (s : State) (sym : Byte) :
    freqAt (afterHist s) sym ≠ 0 ↔ sym ∈ inBytes s := by
  rw [← List.count_pos_iff, ← freqAt_afterHist, Nat.pos_iff_ne_zero, ne_eq, ne_eq, ← BitVec.toNat_inj]
  rfl

theorem freqTotal_afterHist (s : State) : freqTotal (afterHist s) = s.inLen.toNat := by
  simp only [freqTotal, freqAt_afterHist, sum_count_allSymbols, inBytes_length]

/-- What HIST answers: the fault of an empty input with all counters 0, or the counts of the input. -/
theorem exec_hist_cases (s : State) :
    (s.inLen = 0 ∧ exec .hist s = .next (enterFault .emptyInput 0 (clearFreq (setStage .hist s)))) ∨
    (s.inLen ≠ 0 ∧ exec .hist s = .next (afterHist s)) := by
  rw [exec_eq_complete, ruleOf]
  rcases runHist_cases s with ⟨h, e⟩ | ⟨h, e⟩ <;> rw [e]
  · exact .inl ⟨h, rfl⟩
  · exact .inr ⟨h, rfl⟩

/-- Settles O18: each counter is the count of its symbol, which a 32-bit counter holds. -/
theorem histCompletes : Obligations.HistCompletes := by
  intro s hs
  rcases exec_hist_cases s with ⟨h, _⟩ | ⟨_, e⟩
  · exact absurd h hs
  · exact ⟨afterHist s, e, ⟨rfl, rfl, rfl, rfl, rfl⟩, freqAt_afterHist s⟩

/-- Settles O19: counts add up to the length, and are nonzero for the members of the input. -/
theorem histTotals : Obligations.HistTotals := by
  intro s t h hidle
  rcases exec_hist_cases s with ⟨_, e⟩ | ⟨hs, e⟩ <;> obtain rfl := Host.Outcome.next.inj (e.symm.trans h)
  · cases hidle
  · have hne : inBytes s ≠ [] := by
      intro hnil
      have hlen := inBytes_length s
      rw [hnil] at hlen
      exact hs (BitVec.eq_of_toNat_eq hlen.symm)
    obtain ⟨sym, hsym⟩ := List.exists_mem_of_ne_nil _ hne
    exact ⟨freqTotal_afterHist s, freqAt_afterHist_ne_zero_iff s, sym,
      (freqAt_afterHist_ne_zero_iff s sym).2 hsym⟩

/-! ### No symbols -/

theorem freqAt_clearFreq (s : State) (sym : Byte) : freqAt (clearFreq s) sym = 0 := by
  simp [freqAt]

/-- BUILD of an all-zero table faults with no tree left (41_tree_builder.md R116). -/
theorem exec_build_of_countedSymbols_nil {s : State} (h : countedSymbols s = []) :
    exec .build s = .next (enterFault .emptyInput 0 (dropTree (setStage .build s))) := by
  rw [exec_eq_complete, ruleOf]
  rcases runBuild_cases s with ⟨_, e⟩ | ⟨_, hone, _⟩ | ⟨hmany, _⟩ | ⟨hmany, _⟩
  · rw [e]; rfl
  · simp [h] at hone
  · simp [h] at hmany
  · simp [h] at hmany

/-- Settles O20: both rules raise before they count or merge. -/
theorem emptyInputFaults : Obligations.EmptyInputFaults := by
  refine fun s => ⟨fun hs => ?_, fun hs => ?_⟩
  · rcases exec_hist_cases s with ⟨_, e⟩ | ⟨hne, _⟩
    · exact ⟨_, e, ⟨rfl, rfl, rfl, rfl, rfl⟩, freqAt_clearFreq (setStage .hist s)⟩
    · exact absurd hs hne
  · exact ⟨_, exec_build_of_countedSymbols_nil hs, ⟨rfl, rfl, rfl, rfl, rfl⟩, rfl, rfl, rfl⟩

end Sys2Proof.Proofs
end

section
/-! Proofs about the tree builder: what BUILD answers for one symbol, for more, and on overflow; the order in
which it merges; and that it reads `FREQ` alone. -/

namespace Sys2Proof.Proofs

open Sys2Proof Sys2Proof.Machine Sys2Proof.Safety

/-! ### Entries of the node table -/

/-- A known entry is read as it stands, the index being given by its bits. -/
theorem nodeAt_eq_of_getElem? {t : Arena} {i : NodeIdx} {n : Node} (h : t.entries[i.toNat]? = some n) :
    nodeAt t i = n := by
  rw [nodeAt, h]

/-- A register set to a number it can hold holds the number. -/
theorem toNat_ofNat_eq {w n : Nat} (h : n < 2 ^ w) : (BitVec.ofNat w n).toNat = n := by
  rw [BitVec.toNat_ofNat, Nat.mod_eq_of_lt h]

/-- Known entries read the same whatever stands beyond them. -/
theorem nodeAt_entries_congr (ns : List Node) (e1 e2 : Nat) {i : NodeIdx} (hi : i.toNat < ns.length) :
    nodeAt { entries := ns, epoch := e1 } i = nodeAt { entries := ns, epoch := e2 } i := by
  have hget := List.getElem?_eq_getElem hi
  rw [nodeAt_eq_of_getElem? hget, nodeAt_eq_of_getElem? hget]

/-- A Leaf keeps its index in the arena merged from the Leaves (41_tree_builder.md R113). -/
theorem getElem?_leaf_of_arena {s : State} {arena new : List Node} (h : arena = leafNodes s.freq ++ new)
    {k : Nat} (hk : k < (countedSymbols s).length) :
    arena[k]? = some (leafNode (freqAt s (countedSymbols s)[k]) (countedSymbols s)[k]) := by
  rw [h, leafNodes_eq_map, List.getElem?_append_left (by simpa using hk), List.getElem?_map,
    List.getElem?_eq_getElem hk]
  rfl

/-! ### What BUILD answers -/

/-- One counted symbol: the Leaf and the wrapper over it (41_tree_builder.md R115). -/
theorem exec_build_of_single {s : State} {sym : Byte} (h : countedSymbols s = [sym]) :
    exec .build s = .next (completeOk false (setTree
      [leafNode (freqAt s sym) sym, wrapperNode (leafNode (freqAt s sym) sym)] 1 1 (setStage .build s))) := by
  rw [exec_eq_complete, ruleOf]
  rcases runBuild_cases s with ⟨hnone, _⟩ | ⟨sym', hone, e⟩ | ⟨hmany, _⟩ | ⟨hmany, _⟩
  · simp [h] at hnone
  · obtain rfl : sym' = sym := by simpa [h] using hone.symm
    rw [e]; rfl
  · simp [h] at hmany
  · simp [h] at hmany

/-- More symbols whose counters add up to more than 32 bits hold: the fault, with no tree left
(41_tree_builder.md R120). -/
theorem exec_build_of_overflow {s : State} (h2 : 2 ≤ (countedSymbols s).length)
    (hover : 0xFFFFFFFF < freqTotal s) :
    exec .build s = .next (enterFault .capacityExceeded 1 (dropTree (setStage .build s))) := by
  rw [exec_eq_complete, ruleOf]
  rcases runBuild_cases s with ⟨hnone, _⟩ | ⟨_, hone, _⟩ | ⟨_, _, e⟩ | ⟨_, hfits, _⟩
  · simp [hnone] at h2
  · simp [hone] at h2
  · rw [e]; rfl
  · omega

/-- More symbols whose counters fit: the Leaves followed by the merged nodes, under the merge loop's
invariant with one member left, the node made last (41_tree_builder.md R113, R114). -/
theorem exec_build_of_fits {s : State} (h2 : 2 ≤ (countedSymbols s).length)
    (hfits : freqTotal s ≤ 0xFFFFFFFF) :
    ∃ arena root T L new, arena = leafNodes s.freq ++ new ∧
      MergeInv arena [(arena.length - 1, root)] T L (countedSymbols s).length (freqTotal s)
        (countedSymbols s) ∧
      exec .build s = .next (completeOk false (setTree arena (arena.length - 1) (countedSymbols s).length
        (setStage .build s))) := by
  rw [exec_eq_complete, ruleOf]
  rcases runBuild_cases s with ⟨hnone, _⟩ | ⟨_, hone, _⟩ | ⟨_, hover, _⟩ |
    ⟨_, _, arena, root, T, L, new, harena, inv, e⟩
  · simp [hnone] at h2
  · simp [hone] at h2
  · omega
  · exact ⟨arena, root, T, L, new, harena, inv, by rw [e]; rfl⟩

/-- Settles O21: the arena holds the Leaf and the wrapper, and nothing else. -/
theorem buildWrapsSingleSymbol : Obligations.BuildWrapsSingleSymbol :=
  fun _ _ h => ⟨_, exec_build_of_single h, ⟨rfl, rfl, rfl, rfl, rfl⟩, rfl, rfl, rfl, rfl, rfl⟩

/-- Settles O22: the last member of the queue is the root, and its weight all the weights there are. -/
theorem buildCompletes : Obligations.BuildCompletes := by
  intro s h2 hfits
  obtain ⟨arena, root, T, L, new, harena, inv, e⟩ := exec_build_of_fits h2 hfits
  have hlen := mergeInv_length inv
  have h256 := countedSymbols_length_le s
  have hroot : (BitVec.ofNat 9 (arena.length - 1)).toNat = arena.length - 1 := toNat_ofNat_eq (by omega)
  have hcnt : (BitVec.ofNat 10 arena.length).toNat = arena.length := toNat_ofNat_eq (by omega)
  refine ⟨_, e, ⟨rfl, rfl, rfl, rfl, rfl⟩, toNat_ofNat_eq (by omega), hcnt.trans (by omega),
    hroot.trans (by omega), fun k hk => nodeAt_eq_of_getElem? ?_, ?_⟩
  · rw [toNat_ofNat_eq (by omega)]
    exact getElem?_leaf_of_arena harena hk
  · have hat : nodeAt ⟨arena, s.free⟩ (BitVec.ofNat 9 (arena.length - 1)) = root :=
      nodeAt_eq_of_getElem? (hroot.symm ▸ inv.mem _ (List.mem_singleton.2 rfl))
    exact (congrArg (·.weight.toNat) hat).trans (by simpa using inv.weights)

/-- Settles O23: counters that fit are merged without a fault. -/
theorem buildOverflowsExactly : Obligations.BuildOverflowsExactly := by
  refine fun s h2 => ⟨fun ⟨t, ht, ⟨hfsm, _⟩, _⟩ => ?_, fun hover =>
    ⟨_, exec_build_of_overflow h2 hover, ⟨rfl, rfl, rfl, rfl, rfl⟩, rfl⟩⟩
  by_contra hfits
  obtain ⟨_, _, _, _, _, _, _, e⟩ := exec_build_of_fits h2 (Nat.le_of_not_lt hfits)
  obtain rfl := Host.Outcome.next.inj (e.symm.trans ht)
  cases hfsm

/-! ### The order of merging -/

/-- The nodes unmerged below `k` are those the merge loop's invariant calls free. -/
theorem unmergedBelow_iff_freeBefore {t : Arena} {k : NodeIdx} (hk : k.toNat ≤ t.entries.length)
    (j : NodeIdx) : UnmergedBelow t k j ↔ freeBefore t.entries k.toNat j.toNat := by
  have hj : BitVec.ofNat 9 j.toNat = j := by rw [BitVec.ofNat_toNat, BitVec.setWidth_eq]
  rw [UnmergedBelow, freeBefore, hj]
  refine and_congr_right fun _ => ⟨fun h m n hm hn => ?_, fun h m hm => ?_⟩
  · have hto : (BitVec.ofNat 9 m).toNat = m := toNat_ofNat_eq (by omega)
    have hat : nodeAt t (BitVec.ofNat 9 m) = n := nodeAt_eq_of_getElem? (by rw [hto]; exact hn)
    exact hat ▸ h (BitVec.ofNat 9 m) (by omega)
  · have hn := List.getElem?_eq_getElem (hm.trans_le hk)
    exact nodeAt_eq_of_getElem? hn ▸ h m.toNat _ hm hn

/-- `NODE_CNT` covers no more than the entries BUILD wrote. -/
theorem nodeCnt_le_of_runBuild {s u : State} (h : runBuild s = .done u) :
    u.nodeCnt.toNat ≤ u.nodes.entries.length := by
  rcases runBuild_ends s with ⟨_, _, _, e⟩ | ⟨_, _, e⟩ | ⟨_, _, _, e⟩
  · simp [e] at h
  all_goals
    obtain rfl := Ran.done.inj (e.symm.trans h)
    exact toNat_ofNat_le (Nat.le_refl _)

/-- A node merged of the two free nodes with the least keys, told as the host reads the node table. -/
theorem unmerged_least_of_mergedLeast {t : Arena} {k : NodeIdx} {n : Node}
    (hk : k.toNat < t.entries.length) (h : MergedLeast t.entries k.toNat n) :
    UnmergedBelow t k n.left ∧ UnmergedBelow t k n.right ∧
      LesserKey (nodeAt t n.left) (nodeAt t n.right) ∧
      ∀ j : NodeIdx, UnmergedBelow t k j → j ≠ n.left → j ≠ n.right →
        LesserKey (nodeAt t n.right) (nodeAt t j) := by
  obtain ⟨a, b, na, nb, hleft, hright, hna, hnb, ha, hb, hlesser, hleast⟩ := h
  have free := unmergedBelow_iff_freeBefore hk.le
  obtain rfl : n.left.toNat = a := by rw [hleft]; exact toNat_ofNat_eq (by have := ha.1; omega)
  obtain rfl : n.right.toNat = b := by rw [hright]; exact toNat_ofNat_eq (by have := hb.1; omega)
  obtain rfl := nodeAt_eq_of_getElem? hna
  obtain rfl := nodeAt_eq_of_getElem? hnb
  refine ⟨(free _).2 ha, (free _).2 hb, hlesser, fun j hj hjl hjr => ?_⟩
  have hnj := List.getElem?_eq_getElem (hj.1.trans hk)
  rw [nodeAt_eq_of_getElem? hnj]
  exact hleast _ _ hnj ((free j).1 hj) (hjl ∘ BitVec.eq_of_toNat_eq) (hjr ∘ BitVec.eq_of_toNat_eq)

/-- Settles O25: the loop takes the two members of the least keys, and its queue holds the free nodes. -/
theorem buildMergesLeastKeys : Obligations.BuildMergesLeastKeys := by
  intro s t h hidle k hk n hkind hright
  rw [exec_eq_complete] at h
  rcases complete_eq_next h with ⟨u, hu, rfl⟩ | ⟨_, _, _, _, rfl⟩
  · have hcnt := nodeCnt_le_of_runBuild (s := s) hu
    have hlt : k.toNat < u.nodes.entries.length := hk.trans_le hcnt
    have hget := List.getElem?_eq_getElem hlt
    have hn : n = u.nodes.entries[k.toNat] := nodeAt_eq_of_getElem? hget
    exact unmerged_least_of_mergedLeast hlt (runBuild_order hu (hn ▸ hget) hkind hright)
  · cases hidle

/-! ### What BUILD reads -/

theorem freq_eq_of_freqAt_eq {s1 s2 : State} (h : ∀ sym, freqAt s1 sym = freqAt s2 sym) :
    s1.freq = s2.freq := by
  refine Vector.ext fun i hi => ?_
  have hto : (BitVec.ofNat 8 i).toNat = i := toNat_ofNat_eq hi
  simpa [freqAt, hto] using h (BitVec.ofNat 8 i)

/-- The counters alone fix how BUILD ends: with which fault, or with which arena, root and number of Leaves
(41_tree_builder.md R119). -/
theorem runBuild_of_freq (freq : Vector Word 256) :
    (∃ k info, ∀ s : State, s.freq = freq → runBuild s = .raised k info (dropTree (setStage .build s))) ∨
    (∃ ns root nsym, ∀ s : State, s.freq = freq →
      runBuild s = .done (setTree ns root nsym (setStage .build s))) := by
  cases hl : leafNodes freq with
  | nil => exact .inl ⟨.emptyInput, 0, fun s hs => by simp [runBuild, hs, hl]⟩
  | cons x rest =>
    cases rest with
    | nil => exact .inr ⟨[x, wrapperNode x], 1, 1, fun s hs => by simp [runBuild, hs, hl]⟩
    | cons y rest =>
      cases hm : mergeLeaves (x :: y :: rest) with
      | none => exact .inl ⟨.capacityExceeded, 1, fun s hs => by simp [runBuild, hs, hl, hm]⟩
      | some arena =>
        exact .inr ⟨arena, arena.length - 1, (x :: y :: rest).length, fun s hs => by
          simp [runBuild, hs, hl, hm]⟩

/-- Settles O26: from equal counters BUILD raises the same fault or sets the same tree. -/
theorem buildDependsOnWeightsOnly : Obligations.BuildDependsOnWeightsOnly := by
  intro s1 s2 t1 t2 hfreq h1 h2
  have hfreq' := (freq_eq_of_freqAt_eq hfreq).symm
  rcases runBuild_of_freq s1.freq with ⟨k, info, e⟩ | ⟨ns, root, nsym, e⟩
  · obtain rfl := Host.Outcome.next.inj ((congrArg (complete false) (e s1 rfl)).symm.trans h1)
    obtain rfl := Host.Outcome.next.inj ((congrArg (complete false) (e s2 hfreq')).symm.trans h2)
    exact ⟨rfl, rfl, rfl, rfl, rfl, fun _ hi => absurd hi (Nat.not_lt_zero _)⟩
  · obtain rfl := Host.Outcome.next.inj ((congrArg (complete false) (e s1 rfl)).symm.trans h1)
    obtain rfl := Host.Outcome.next.inj ((congrArg (complete false) (e s2 hfreq')).symm.trans h2)
    exact ⟨rfl, rfl, rfl, rfl, rfl, fun _ hi =>
      nodeAt_entries_congr ns _ _ (hi.trans_le (toNat_ofNat_le (Nat.le_refl _)))⟩

end Sys2Proof.Proofs
end

section
/-! Proofs about the code table: the codes GENC records are the paths to the Leaves, prefix-free and of Kraft
sum at most 1; and the stages that find no tree. -/

namespace Sys2Proof.Proofs

open Sys2Proof Sys2Proof.Machine Sys2Proof.Safety

/-! ### No tree -/

/-- A rule that raises makes its command take the fault (60_exceptions.md R260). -/
theorem exec_of_raised {i : Instr} {s u : State} {k : ErrKind} {info : Word}
    (h : ruleOf i s = .raised k info u) : exec i s = .next (enterFault k info u) := by
  rw [exec_eq_complete, h, complete_raised]

/-- GENC without a tree faults with every code invalid (42_code_table.md R126). -/
theorem exec_genc_of_nil {s : State} (h : s.root = Config.nil) :
    exec .genc s = .next (enterFault .notReady 0 (clearCode (setStage .genc s))) := by
  refine exec_of_raised ?_
  rcases runGenc_cases s with ⟨_, e⟩ | ⟨hne, _⟩ | ⟨hne, _⟩
  · exact e
  all_goals exact absurd h hne

/-- TSER without a tree faults with no topology and no Alphabet left (43_tree_serializer.md R136). -/
theorem exec_tser_of_nil {s : State} (h : s.root = Config.nil) :
    exec .tser s = .next (enterFault .notReady 0 (dropTopo (dropAlpha (setStage .tser s)))) := by
  refine exec_of_raised ?_
  rcases runTser_cases s with ⟨_, e⟩ | ⟨hne, _⟩ | ⟨hne, _⟩
  · exact e
  all_goals exact absurd h hne

/-- DEC without a tree faults with no output left (47_decoder.md R186). -/
theorem exec_dec_of_nil {s : State} (h : s.root = Config.nil) :
    exec .dec s = .next (enterFault .notReady 0 (dropOut (setStage .dec s))) := by
  refine exec_of_raised ?_
  rcases runDec_cases s with ⟨_, e⟩ | ⟨hne, _⟩ | ⟨hne, _⟩
  · exact e
  all_goals exact absurd h hne

theorem codeValid_of_code_empty {s : State} (h : s.code = Vector.replicate 256 none) (sym : Byte) :
    codeValid s sym = false := by
  simp [codeValid, codeAt, h]

/-- Settles O28: each of the three rules asks for the tree first. -/
theorem stagesWithoutTreeFault : Obligations.StagesWithoutTreeFault := fun _ h =>
  ⟨⟨_, exec_genc_of_nil h, ⟨rfl, rfl, rfl, rfl, rfl⟩, codeValid_of_code_empty rfl⟩,
    ⟨_, exec_tser_of_nil h, ⟨rfl, rfl, rfl, rfl, rfl⟩, rfl, rfl⟩,
    ⟨_, exec_dec_of_nil h, ⟨rfl, rfl, rfl, rfl, rfl⟩, rfl⟩⟩

/-! ### The table of a tree -/

/-- The state a GENC of the tree `x` answers (42_code_table.md R126, 49_control.md R222). -/
def afterGenc (x : Tree) (s : State) : State :=
  completeOk false { clearCode (setStage .genc s) with code := codeTableOf x }

theorem codeAt_afterGenc (x : Tree) (s : State) (sym : Byte) :
    codeAt (afterGenc x s) sym = (codeTableOf x)[sym.toNat]'sym.isLt := rfl

theorem completed_afterGenc (x : Tree) (s : State) : Completed false 0x12 (afterGenc x s) :=
  ⟨rfl, rfl, rfl, rfl, rfl⟩

theorem exec_genc_of_tree {s : State} {x : Tree} (h : s.root ≠ Config.nil) (hx : treeOf s = some x) :
    exec .genc s = .next (afterGenc x s) := by
  rw [exec_eq_complete, ruleOf]
  rcases runGenc_cases s with ⟨hnil, _⟩ | ⟨_, hnone, _⟩ | ⟨_, y, hy, e⟩
  · exact absurd hnil h
  · simp [hx] at hnone
  · obtain rfl := Option.some.inj (hx.symm.trans hy)
    rw [e]; rfl

/-- A symbol's code is the path to a Leaf of the symbol (42_code_table.md R125). -/
theorem leafAt_of_codeAt_afterGenc {x : Tree} {s : State} {sym : Byte} {p : BitSeq}
    (h : codeAt (afterGenc x s) sym = some p) : leafAt x p sym :=
  ((codeTableOf_eq_some x sym p).1 h).1

/-- Codes of two symbols end at two Leaves, so neither begins the other (42_code_table.md R128, R130). -/
theorem codes_afterGenc_prefixFree {x : Tree} {s : State} {a b : Byte} {c d : BitSeq} (hab : a ≠ b)
    (hc : codeAt (afterGenc x s) a = some c) (hd : codeAt (afterGenc x s) b = some d) : ¬ c <+: d :=
  fun hcd => hab (leafAt_first x c d a b (leafAt_of_codeAt_afterGenc hc)
    (leafAt_of_codeAt_afterGenc hd) hcd).1

/-- Settles O27: the walk records the Leaves from left to right, and the last record of a symbol stays. -/
theorem gencCompletes : Obligations.GencCompletes := fun s x h hx =>
  ⟨afterGenc x s, exec_genc_of_tree h hx, completed_afterGenc x s, codeTableOf_eq_some x,
    codeTableOf_eq_none x, fun _ _ _ _ => codes_afterGenc_prefixFree⟩

/-! ### The Kraft sum -/

/-- With distinct symbols a Leaf's path is its symbol's code (42_code_table.md R126, R130). -/
theorem codeAt_afterGenc_of_mem_walkCodes {x : Tree} (hx : (sideList x).Nodup) (s : State)
    {e : Byte × BitSeq} (he : e ∈ walkCodes x []) : codeAt (afterGenc x s) e.1 = some e.2 := by
  obtain ⟨sym, p⟩ := e
  have mem_iff : ∀ q, (sym, q) ∈ walkCodes x [] ↔ leafAt x q sym := by simp [walkCodes_mem]
  rw [← walkCodes_symbols x []] at hx
  refine (codeTableOf_eq_some x sym p).2 ⟨(mem_iff p).1 he, fun q hq => .inl ?_⟩
  exact congrArg Prod.snd (List.inj_on_of_nodup_map hx ((mem_iff q).2 hq) he rfl)

theorem mem_sideList_iff (x : Tree) (sym : Byte) : sym ∈ sideList x ↔ ∃ p, leafAt x p sym := by
  simp [← walkCodes_symbols x [], walkCodes_mem]

/-- A symbol of no Leaf adds nothing to the Kraft sum: it has no code. -/
theorem codeValid_afterGenc_of_not_mem {x : Tree} {s : State} {sym : Byte} (h : sym ∉ sideList x) :
    codeValid (afterGenc x s) sym = false := by
  have hnone : codeAt (afterGenc x s) sym = none :=
    (codeTableOf_eq_none x sym).2 fun p hp => h ((mem_sideList_iff x sym).2 ⟨p, hp⟩)
  rw [codeValid, hnone, Option.isSome_none]

/-- The sum of `2^(-length)` over the paths the walk lists. -/
def walkKraft (x : Tree) (pre : BitSeq) : ℚ :=
  ((walkCodes x pre).map fun e => (1 / 2 : ℚ) ^ e.2.length).sum

/-- With distinct symbols the Kraft sum of the table is that of the walk. -/
theorem kraftSum_afterGenc {x : Tree} (hx : (sideList x).Nodup) (s : State) :
    kraftSum (afterGenc x s) = walkKraft x [] := by
  have hsub : (sideList x).toFinset ⊆ allSymbols.toFinset := fun sym _ =>
    List.mem_toFinset.2 (mem_allSymbols sym)
  rw [kraftSum, ← List.sum_toFinset _ allSymbols_nodup, ← Finset.sum_subset hsub,
    List.sum_toFinset _ hx, ← walkCodes_symbols x [], List.map_map, walkKraft]
  · refine congrArg List.sum (List.map_congr_left fun e he => ?_)
    simp [codeValid, codeLen, codeAt_afterGenc_of_mem_walkCodes hx s he]
  · intro sym _ hsym
    simp [codeValid_afterGenc_of_not_mem (mt List.mem_toFinset.2 hsym)]

/-- Below a node with two children everywhere the paths make up what the node's own path weighs: each
branch takes a half (42_code_table.md R130). -/
theorem walkKraft_of_full {x : Tree} (h : fullTree x = true) (pre : BitSeq) :
    walkKraft x pre = (1 / 2 : ℚ) ^ pre.length := by
  induction x generalizing pre with
  | absent => simp [fullTree] at h
  | leaf sym => simp [walkKraft, walkCodes]
  | internal l r ihl ihr =>
    obtain ⟨hl, hr⟩ : fullTree l = true ∧ fullTree r = true := by simpa [fullTree] using h
    calc walkKraft (.internal l r) pre
        = walkKraft l (pre ++ [false]) + walkKraft r (pre ++ [true]) := by simp [walkKraft, walkCodes]
      _ = (1 / 2) ^ (pre.length + 1) + (1 / 2) ^ (pre.length + 1) := by simp [ihl hl, ihr hr]
      _ = (1 / 2) ^ pre.length := by ring

/-- The wrapper's one code is the bit 0 (42_code_table.md R127). -/
theorem walkKraft_of_wrapper {x : Tree} (h : wrapperTree x = true) : walkKraft x [] = 1 / 2 := by
  obtain ⟨sym, rfl⟩ := (wrapperTree_iff x).1 h
  simp [walkKraft, walkCodes]

/-- Settles O29: the paths below each node weigh what the node weighs, and the wrapper lacks one half. -/
theorem codesPrefixFreeAndKraft : Obligations.CodesPrefixFreeAndKraft := by
  intro s x h hx hproper hdistinct
  have hfull : fullTree x = true → kraftSum (afterGenc x s) = 1 := fun hf => by
    rw [kraftSum_afterGenc hdistinct, walkKraft_of_full hf, List.length_nil, pow_zero]
  have hwrapper : wrapperTree x = true → kraftSum (afterGenc x s) = 1 / 2 := fun hw => by
    rw [kraftSum_afterGenc hdistinct, walkKraft_of_wrapper hw]
  refine ⟨afterGenc x s, exec_genc_of_tree h hx, completed_afterGenc x s,
    fun _ _ _ _ => codes_afterGenc_prefixFree, ?_, hfull, hwrapper⟩
  rcases (Bool.or_eq_true _ _).mp hproper with hf | hw
  · exact (hfull hf).le
  · rw [hwrapper hw]; norm_num

end Sys2Proof.Proofs
end

section
/-! Proofs about the tree serializer: TSER writes the topology and the Alphabet of the tree in the node table,
and after a TDES these are what TDES read. -/

namespace Sys2Proof.Proofs

open Sys2Proof Sys2Proof.Machine Sys2Proof.Safety

/-! ### The bits of a topology -/

/-- The traversal of a full tree ends its descent to the left at a Leaf, which comes first (43_tree_serializer.md
R135). -/
theorem head?_emitTopology_of_full {x : Tree} (h : fullTree x = true) :
    (emitTopology x).head? = some true := by
  induction x with
  | absent => simp [fullTree] at h
  | leaf sym => rfl
  | internal l r ihl _ =>
    obtain ⟨hl, _⟩ : fullTree l = true ∧ fullTree r = true := by simpa [fullTree] using h
    simp [emitTopology, List.head?_append, ihl hl]

/-- The bit of the root comes last, and a root with anything below it is Internal (R135). -/
theorem getLast?_emitTopology {x : Tree} (h : 2 ≤ treeSize x) : (emitTopology x).getLast? = some false := by
  cases x with
  | absent => simp [treeSize] at h
  | leaf sym => simp [treeSize] at h
  | internal l r => exact List.getLast?_concat

theorem emitTopology_of_wrapper {x : Tree} (h : wrapperTree x = true) : emitTopology x = wrapperTopology := by
  obtain ⟨sym, rfl⟩ := (wrapperTree_iff x).1 h
  rfl

/-- Settles O31: each count by induction on the tree, the first and the last bit from the traversal. -/
theorem topologyCounts : Obligations.TopologyCounts := by
  intro x
  refine ⟨emitTopology_length x, emitTopology_count x, fun hfull => ?_, emitTopology_of_wrapper⟩
  obtain ⟨hsize, hleaves⟩ := treeSize_of_full x hfull
  exact ⟨by omega, hleaves, head?_emitTopology_of_full hfull, getLast?_emitTopology⟩

/-! ### The state TSER answers -/

/-- Unpacking gives back the bits packed, whatever stands beyond them (45_bit_packer_unpacker.md R169). -/
theorem unpack_memLoad_pack (b : BitSeq) (e : Nat) : unpack (memLoad (pack b) e) b.length = b := by
  refine List.ext_getElem (unpack_length _ _) fun k _ hk => ?_
  have hpacked : k < 8 * ceil8 b.length := hk.trans_le (ceil8_bounds _).1
  rw [unpack_getElem, getBit_memLoad_pack b e k hpacked, List.getD_eq_getElem _ _ hk]

/-- The state a TSER of the tree `x` answers (43_tree_serializer.md R136, 49_control.md R222). -/
def afterTser (x : Tree) (s : State) : State :=
  completeOk false (setAlpha (sideList x).reverse
    (setTopo (pack (emitTopology x)) (emitTopology x).length (setStage .tser s)))

theorem completed_afterTser (x : Tree) (s : State) : Completed false 0x13 (afterTser x s) :=
  ⟨rfl, rfl, rfl, rfl, rfl⟩

theorem serialFits_of_counts {x : Tree} (hsize : treeSize x ≤ 511) (hleaves : treeLeaves x ≤ 256) :
    serialFits x = true := by
  simp [serialFits, emitTopology_length, sideList_length, Config.nodeCap, Config.nsymMax, hsize, hleaves]

theorem exec_tser_of_tree {s : State} {x : Tree} (h : s.root ≠ Config.nil) (hx : treeOf s = some x)
    (hfits : serialFits x = true) : exec .tser s = .next (afterTser x s) := by
  rw [exec_eq_complete, ruleOf]
  rcases runTser_cases s with ⟨hnil, _⟩ | ⟨_, hnone, _⟩ | ⟨_, y, hy, _, e⟩
  · exact absurd hnil h
  · simp [hnone x hx] at hfits
  · obtain rfl := Option.some.inj (hx.symm.trans hy)
    rw [e]; rfl

section Counts

variable {x : Tree} (s : State)

theorem topoBits_afterTser (hsize : treeSize x ≤ 511) : (afterTser x s).topoBits.toNat = treeSize x := by
  rw [← emitTopology_length] at hsize ⊢
  exact toNat_ofNat_eq (by omega)

theorem alphaLen_afterTser (hleaves : treeLeaves x ≤ 256) : (afterTser x s).alphaLen.toNat = treeLeaves x := by
  rw [← sideList_length, ← List.length_reverse] at hleaves ⊢
  exact toNat_ofNat_eq (by omega)

theorem topoSeq_afterTser (hsize : treeSize x ≤ 511) : topoSeq (afterTser x s) = emitTopology x := by
  rw [topoSeq, topoBits_afterTser s hsize, ← emitTopology_length]
  exact unpack_memLoad_pack _ _

theorem topoBytes_afterTser (hsize : treeSize x ≤ 511) : topoBytes (afterTser x s) = pack (emitTopology x) := by
  rw [topoBytes, topoBits_afterTser s hsize, ← emitTopology_length, ← pack_length]
  exact memBytes_memLoad _ _

theorem alphaBytes_afterTser (hleaves : treeLeaves x ≤ 256) :
    alphaBytes (afterTser x s) = (sideList x).reverse := by
  rw [alphaBytes, alphaLen_afterTser s hleaves, ← sideList_length, ← List.length_reverse]
  exact memBytes_memLoad _ _

end Counts

/-- Settles O30: what TSER wrote is read back over the extents its two registers give. -/
theorem tserCompletes : Obligations.TserCompletes := fun s x h hx hsize hleaves =>
  ⟨afterTser x s, exec_tser_of_tree h hx (serialFits_of_counts hsize hleaves), completed_afterTser x s,
    topoSeq_afterTser s hsize, topoBytes_afterTser s hsize, alphaBytes_afterTser s hleaves,
    topoBits_afterTser s hsize, alphaLen_afterTser s hleaves⟩

/-! ### TSER after TDES -/

theorem topoSeq_length (s : State) : (topoSeq s).length = s.topoBits.toNat := unpack_length _ _

theorem alphaBytes_length (s : State) : (alphaBytes s).length = s.alphaLen.toNat := memBytes_length _ _

/-- The tree in `t` is `x`, and the topology and the Alphabet in `s` are those of `x`. -/
def HoldsTreeReadFrom (s : State) (x : Tree) (t : State) : Prop :=
  t.root ≠ Config.nil ∧ treeOf t = some x ∧ topoSeq s = emitTopology x ∧ alphaBytes s = (sideList x).reverse

/-- The nodes TDES sets for the bits `1 0` form the wrapper of the first Alphabet symbol
(44_tree_deserializer.md R147). -/
theorem treeOf_setTree_wrapper (sym : Byte) (s : State) :
    treeOf (setTree [rebuiltInternal 1 Config.nil, rebuiltLeaf sym] 0 1 s) =
      some (.internal (.leaf sym) .absent) :=
  (wrapper_walk (i := 0) (j := 1) 254 (by decide) (by decide) rfl rfl rfl rfl).1

/-- The nodes TDES sets for the topology of a full tree form that tree (R145). -/
theorem treeOf_setTree_entriesOf {x : Tree} (hfull : fullTree x = true) (hsize : treeSize x ≤ 511)
    (nsym : Nat) (s : State) : treeOf (setTree (entriesOf x 0) 0 nsym s) = some x :=
  readTree_entriesOf _ x [] [] 256 hfull (by simp) (by simpa using hsize)
    (treeHeight_le_of_full hfull (treeLeaves_le_of_full hfull hsize))

/-- A TDES that runs to its end has read the topology and the Alphabet of the tree it leaves (R145, R147). -/
theorem holdsTreeReadFrom_of_runTdes {s u : State} (hreg : RegistersOk s) (h : runTdes s = .done u) :
    ∃ x, HoldsTreeReadFrom s x u := by
  obtain ⟨_, _, _, hbits, _⟩ := hreg
  rcases runTdes_cases s with ⟨k, info, e⟩ | ⟨htopo, hcount, e⟩ | ⟨b, _, hcount, hb, hrest, e⟩ <;> rw [e] at h
  · cases h
  · cases h
    have hlen : s.alphaLen.toNat = 1 := by rw [← hcount, htopo]; rfl
    refine ⟨_, ofNat_ne_nil 0 (by decide), treeOf_setTree_wrapper _ _, htopo, ?_⟩
    rw [alphaBytes, hlen]; rfl
  · cases h
    obtain ⟨x, hfull, hread, hentries, _, halpha⟩ := rebuild_only_topologies _ _ _ _ _ _ hb
    have htopo : topoSeq s = emitTopology x := by simpa [hrest] using hread
    have hsize : treeSize x ≤ 511 := by rwa [← emitTopology_length, ← htopo, topoSeq_length]
    have hlen : s.alphaLen.toNat = (sideList x).reverse.length := by
      rw [← hcount, htopo, emitTopology_count, List.length_reverse, sideList_length]
    rw [hentries]
    refine ⟨x, ofNat_ne_nil 0 (by decide), treeOf_setTree_entriesOf hfull hsize _ _, htopo, ?_⟩
    refine List.ext_getElem ((alphaBytes_length s).trans hlen) fun j _ hj => ?_
    rw [← halpha j hj, Nat.zero_add]
    exact memBytes_getElem _ _ _ _

/-- A TDES that leaves the block idle did not fault. -/
theorem holdsTreeReadFrom_of_exec_tdes {s t : State} (hreg : RegistersOk s) (h : exec .tdes s = .next t)
    (hidle : t.fsm = .idle) : ∃ x, HoldsTreeReadFrom s x t := by
  rw [exec_eq_complete] at h
  rcases complete_eq_next h with ⟨u, hu, rfl⟩ | ⟨k, info, u, _, rfl⟩
  · exact (holdsTreeReadFrom_of_runTdes hreg hu : ∃ x, HoldsTreeReadFrom s x u)
  · cases hidle

/-- Settles O35: TSER writes the topology and the Alphabet of the tree, which are what TDES read. -/
theorem tdesThenTserRestoresTopology : Obligations.TdesThenTserRestoresTopology := by
  intro s t hreg h hidle
  obtain ⟨x, hroot, hx, htopo, halpha⟩ := holdsTreeReadFrom_of_exec_tdes hreg h hidle
  have hbits : treeSize x = s.topoBits.toNat := by rw [← emitTopology_length, ← htopo, topoSeq_length]
  have hlen : treeLeaves x = s.alphaLen.toNat := by
    rw [← sideList_length, ← List.length_reverse, ← halpha, alphaBytes_length]
  obtain ⟨_, _, hleaves, hsize, _⟩ := hreg
  rw [← hlen] at hleaves
  rw [← hbits] at hsize
  refine ⟨afterTser x t, exec_tser_of_tree hroot hx (serialFits_of_counts hsize hleaves),
    completed_afterTser x t, BitVec.eq_of_toNat_eq ((topoBits_afterTser t hsize).trans hbits),
    BitVec.eq_of_toNat_eq ((alphaLen_afterTser t hleaves).trans hlen), ?_, ?_, ?_⟩
  · rw [topoSeq_afterTser t hsize, htopo]
  · rw [alphaBytes_afterTser t hleaves, halpha]
  · rw [topoBytes_afterTser t hsize, htopo]

end Sys2Proof.Proofs
end

section
/-! Proofs about the tree deserializer: TDES rebuilds the tree whose topology and Alphabet it reads, which of
its faults any other topology takes, and that it undoes TSER. -/

namespace Sys2Proof.Proofs

open Sys2Proof Sys2Proof.Machine Sys2Proof.Safety

/-! ### The walk over the topology -/

/-- What the walk of R145 makes of the topology, from its last bit on. -/
def walkTopology (s : State) : Option Rebuilt :=
  rebuild s.alphaMem ((topoSeq s).length + 1) (topoSeq s).reverse 0 0

/-- A walk that ends has popped the topology of a full tree from the end of the bits. -/
theorem topoSeq_of_walkTopology {s : State} {b : Rebuilt} (h : walkTopology s = some b) :
    ∃ x, fullTree x = true ∧ topoSeq s = b.rest.reverse ++ emitTopology x := by
  obtain ⟨x, hfull, hbits, _⟩ := rebuild_only_topologies _ _ _ _ _ _ h
  exact ⟨x, hfull, by simpa using congrArg List.reverse hbits⟩

/-- Every level of a tree costs the walk a bit, so its fuel lasts for any final part of the bits. -/
theorem treeHeight_le_fuel {s : State} {x : Tree} {front : BitSeq}
    (htopo : topoSeq s = front ++ emitTopology x) : treeHeight x ≤ (topoSeq s).length + 1 := by
  have := treeHeight_le_size x
  rw [htopo, List.length_append, emitTopology_length]
  omega

/-- Where the topology of a full tree ends the bits, the walk ends with what stands before it. -/
theorem walkTopology_of_final_part {s : State} {x : Tree} {front : BitSeq} (hfull : fullTree x = true)
    (htopo : topoSeq s = front ++ emitTopology x) :
    ∃ b, walkTopology s = some b ∧ b.rest = front.reverse := by
  have h := rebuild_of_topology s.alphaMem x hfull _ 0 0 front.reverse (treeHeight_le_fuel htopo)
  rwa [← List.reverse_append, ← htopo] at h

/-- The Alphabet is read from its first byte on (R145). -/
theorem memRead_alphaMem_of_alphaBytes {s : State} {bs : List Byte} (h : alphaBytes s = bs) (j : Nat)
    (hj : j < bs.length) : memRead s.alphaMem j = bs[j] := by
  subst h
  exact (memBytes_getElem ..).symm

/-- With the Alphabet of the tree too, the walk rebuilds the tree. -/
theorem walkTopology_of_tree {s : State} {x : Tree} (hfull : fullTree x = true)
    (htopo : topoSeq s = emitTopology x) (halpha : alphaBytes s = (sideList x).reverse) :
    walkTopology s = some { entries := entriesOf x 0, rest := [], ai := treeLeaves x } := by
  have h := rebuild_of_emitTopology s.alphaMem x hfull _ 0 0 []
    (treeHeight_le_fuel (front := []) htopo)
    (by simpa using memRead_alphaMem_of_alphaBytes halpha)
  rwa [List.append_nil, ← htopo, Nat.zero_add] at h

/-! ### The branches of the rule -/

theorem topoSeq_setStage (i : Instr) (s : State) : topoSeq (setStage i s) = topoSeq s := rfl

/-- The Leaf count comes before everything else (44_tree_deserializer.md R148). -/
theorem runTdes_of_count_ne {s : State} (h : (topoSeq s).count true ≠ s.alphaLen.toNat) :
    runTdes s = .raised .invalidContainer 5 (dropTree (setStage .tdes s)) := if_pos h

section Counted

variable {s : State} (hcount : (topoSeq s).count true = s.alphaLen.toNat)
include hcount

/-- The bits `1 0` are the wrapper's (R147). -/
theorem runTdes_of_wrapper (hw : topoSeq s = wrapperTopology) :
    runTdes s = .done (setTree [rebuiltInternal 1 Config.nil, rebuiltLeaf (memRead s.alphaMem 0)] 0 1
      (setStage .tdes s)) :=
  (if_neg (not_not.2 hcount)).trans (if_pos hw)

variable (hw : topoSeq s ≠ wrapperTopology)
include hw

/-- Premature exhaustion: a subtree is required and no bit is left (R146). -/
theorem runTdes_of_exhausted (h : walkTopology s = none) :
    runTdes s = .raised .malformedTopology 1 (dropTree (setStage .tdes s)) := by
  rw [walkTopology] at h
  simp [runTdes, topoSeq_setStage, hcount, hw, h]

variable {b : Rebuilt} (h : walkTopology s = some b)
include h

/-- Leftover bits: a tree is complete and bits were never popped (R146). -/
theorem runTdes_of_leftover (hrest : b.rest ≠ []) :
    runTdes s = .raised .malformedTopology 2 (dropTree (setStage .tdes s)) := by
  rw [walkTopology] at h
  simp [runTdes, topoSeq_setStage, hcount, hw, h, hrest]

/-- The walk has popped every bit, and its nodes are the tree (R146). -/
theorem runTdes_of_used_up (hrest : b.rest = []) :
    runTdes s = .done (setTree b.entries 0 b.ai (setStage .tdes s)) := by
  rw [walkTopology] at h
  simp [runTdes, topoSeq_setStage, hcount, hw, h, hrest]

end Counted

/-! ### The topologies of the two shapes of trees -/

/-- A tree of R41 is full, or the wrapper over one Leaf. -/
theorem properTree_cases {x : Tree} (h : properTree x = true) :
    fullTree x = true ∨ ∃ sym, x = .internal (.leaf sym) .absent :=
  (Bool.or_eq_true_iff.1 h).imp_right (wrapperTree_iff x).1

/-- No full tree has as few as two nodes, or any other even number (43_tree_serializer.md R138). -/
theorem emitTopology_ne_wrapper {x : Tree} (h : fullTree x = true) : emitTopology x ≠ wrapperTopology := by
  intro e
  have hlen : treeSize x = 2 := by rw [← emitTopology_length, e]; rfl
  have := (treeSize_of_full x h).1
  omega

/-- Bits that are no tree's topology are not the wrapper's. -/
theorem topoSeq_ne_wrapper {s : State} (h : ¬ ∃ x, properTree x = true ∧ topoSeq s = emitTopology x) :
    topoSeq s ≠ wrapperTopology :=
  fun hw => h ⟨.internal (.leaf 0) .absent, rfl, hw⟩

/-! ### Which ends TDES takes -/

theorem exec_tdes_of_done {s u : State} (h : runTdes s = .done u) :
    exec .tdes s = .next (completeOk false u) := by
  rw [exec_eq_complete, ruleOf, h]
  rfl

/-- A fault of TDES is taken in its own stage (60_exceptions.md R260). -/
theorem exec_tdes_of_raised {s : State} {k : ErrKind} {info : Word}
    (h : runTdes s = .raised k info (dropTree (setStage .tdes s))) :
    ∃ t, exec .tdes s = .next t ∧ FaultTaken k info 0x21 t :=
  ⟨_, exec_of_raised (i := .tdes) h, rfl, rfl, rfl, rfl, rfl⟩

/-- A tree that TDES sets is set in its own stage, without error (49_control.md R222). -/
theorem exec_tdes_of_setTree {s : State} {ns : List Node} {nsym : Nat}
    (h : runTdes s = .done (setTree ns 0 nsym (setStage .tdes s))) :
    ∃ t, exec .tdes s = .next t ∧ Completed false 0x21 t :=
  ⟨_, exec_tdes_of_done h, rfl, rfl, rfl, rfl, rfl⟩

/-- Settles O33: the walk ends exactly on a final part of the bits that is a full tree's topology, and the
bits left before it tell completion from leftover bits. -/
theorem tdesAcceptsExactlyTreeTopologies : Obligations.TdesAcceptsExactlyTreeTopologies := by
  intro s _
  refine ⟨fun hne => exec_tdes_of_raised (runTdes_of_count_ne hne), ?tree, ?leftover, ?exhausted⟩
  case tree =>
    rintro hcount ⟨x, hproper, htopo⟩
    rcases properTree_cases hproper with hfull | ⟨sym, rfl⟩
    · obtain ⟨b, hb, hrest⟩ := walkTopology_of_final_part (front := []) hfull htopo
      exact exec_tdes_of_setTree
        (runTdes_of_used_up hcount (htopo ▸ emitTopology_ne_wrapper hfull) hb hrest)
    · exact exec_tdes_of_setTree (runTdes_of_wrapper hcount htopo)
  case leftover =>
    rintro hcount hnone ⟨x, front, hfull, hfront, htopo⟩
    obtain ⟨b, hb, hrest⟩ := walkTopology_of_final_part hfull htopo
    exact exec_tdes_of_raised (runTdes_of_leftover hcount (topoSeq_ne_wrapper hnone) hb
      (by rwa [hrest, ne_eq, List.reverse_eq_nil_iff]))
  case exhausted =>
    intro hcount hnone hfinal
    refine exec_tdes_of_raised (runTdes_of_exhausted hcount (topoSeq_ne_wrapper hnone) ?_)
    refine Option.eq_none_iff_forall_ne_some.2 fun b hb => ?_
    obtain ⟨x, hfull, htopo⟩ := topoSeq_of_walkTopology hb
    by_cases hrest : b.rest = []
    · exact hnone ⟨x, properTree_of_full hfull, by simpa [hrest] using htopo⟩
    · exact hfinal ⟨x, b.rest.reverse, hfull, mt List.reverse_eq_nil_iff.1 hrest, htopo⟩

/-! ### The nodes TDES makes -/

/-- The nodes TDES makes for a tree of R41: the wrapper's two, whose root has no right child, or those of
the walk (44_tree_deserializer.md R145, R147). -/
def deserializedNodes : Tree → List Node
  | .internal (.leaf sym) .absent => [rebuiltInternal 1 Config.nil, rebuiltLeaf sym]
  | x => entriesOf x 0

theorem deserializedNodes_of_full {x : Tree} (h : fullTree x = true) :
    deserializedNodes x = entriesOf x 0 := by
  unfold deserializedNodes
  split
  · simp [fullTree] at h
  · rfl

/-- Node `k` is of the kind that the bit popped at the `k`-th place says (R149). -/
theorem deserializedNodes_kinds {x : Tree} (h : properTree x = true) :
    (deserializedNodes x).map (fun n => n.kind == .leaf) = (emitTopology x).reverse := by
  rcases properTree_cases h with hfull | ⟨sym, rfl⟩
  · rw [deserializedNodes_of_full hfull]
    exact entriesOf_kinds x 0
  · rfl

theorem deserializedNodes_length {x : Tree} (h : properTree x = true) :
    (deserializedNodes x).length = treeSize x := by
  simpa [emitTopology_length] using congrArg List.length (deserializedNodes_kinds h)

theorem kind_deserializedNodes {x : Tree} (h : properTree x = true) {k : Nat} {n : Node}
    (hn : (deserializedNodes x)[k]? = some n) :
    n.kind = .leaf ↔ (emitTopology x).getD (treeSize x - 1 - k) false = true := by
  have hk : k < (emitTopology x).length := by
    rw [emitTopology_length, ← deserializedNodes_length h]
    exact (List.getElem?_eq_some_iff.1 hn).1
  have hbit : (emitTopology x).reverse[k]? = some (n.kind == .leaf) := by
    rw [← deserializedNodes_kinds h, List.getElem?_map, hn]
    rfl
  rw [List.getElem?_reverse hk, emitTopology_length] at hbit
  rw [List.getD_eq_getElem?_getD, hbit, Option.getD_some, beq_iff_eq]

/-- Weights and Internal symbols are 0, and a right child follows its parent (R145, R149). -/
theorem deserializedNodes_entry {x : Tree} (h : properTree x = true) {k : Nat} {n : Node}
    (hn : (deserializedNodes x)[k]? = some n) :
    n.weight = 0 ∧ (n.kind = .internal → n.tsym = 0) ∧
      (n.kind = .internal → fullTree x = true → n.right = BitVec.ofNat 9 (k + 1)) := by
  rcases properTree_cases h with hfull | ⟨sym, rfl⟩
  · rw [deserializedNodes_of_full hfull] at hn
    obtain ⟨hweight, hinternal⟩ := entriesOf_entry x 0 k n hn
    exact ⟨hweight, fun hk => (hinternal hk).1, fun hk _ => by simpa using (hinternal hk).2⟩
  · have hmem : n = rebuiltInternal 1 Config.nil ∨ n = rebuiltLeaf sym := by
      simpa [deserializedNodes] using List.mem_of_getElem? hn
    rcases hmem with rfl | rfl
    · exact ⟨rfl, fun _ => rfl, fun _ hfull => nomatch hfull⟩
    · exact ⟨rfl, fun hk => (nomatch hk), fun hk => (nomatch hk)⟩

/-! ### The state TDES answers -/

theorem alphaLen_of_alphaBytes {s : State} {x : Tree} (halpha : alphaBytes s = (sideList x).reverse) :
    s.alphaLen.toNat = treeLeaves x := by
  rw [← alphaBytes_length, halpha, List.length_reverse, sideList_length]

theorem topoBits_of_topoSeq {s : State} {x : Tree} (htopo : topoSeq s = emitTopology x) :
    s.topoBits.toNat = treeSize x := by
  rw [← topoSeq_length, htopo, emitTopology_length]

/-- Topology and Alphabet of one tree agree in the number of Leaves (R148). -/
theorem count_topoSeq_of_tree {s : State} {x : Tree} (htopo : topoSeq s = emitTopology x)
    (halpha : alphaBytes s = (sideList x).reverse) : (topoSeq s).count true = s.alphaLen.toNat := by
  rw [htopo, emitTopology_count, alphaLen_of_alphaBytes halpha]

/-- TDES sets the nodes of the tree whose topology and Alphabet it reads (R146). -/
theorem runTdes_of_tree {s : State} {x : Tree} (htopo : topoSeq s = emitTopology x)
    (halpha : alphaBytes s = (sideList x).reverse) (hproper : properTree x = true) :
    runTdes s = .done (setTree (deserializedNodes x) 0 (treeLeaves x) (setStage .tdes s)) := by
  have hcount := count_topoSeq_of_tree htopo halpha
  rcases properTree_cases hproper with hfull | ⟨sym, rfl⟩
  · rw [deserializedNodes_of_full hfull]
    exact runTdes_of_used_up hcount (htopo ▸ emitTopology_ne_wrapper hfull)
      (walkTopology_of_tree hfull htopo halpha) rfl
  · have hsym : memRead s.alphaMem 0 = sym := memRead_alphaMem_of_alphaBytes halpha 0 Nat.one_pos
    rw [runTdes_of_wrapper hcount htopo, hsym]
    rfl

/-- The state a TDES answers on the topology and the Alphabet of the tree `x` (R146, 49_control.md R222). -/
def afterTdes (x : Tree) (s : State) : State :=
  completeOk false (setTree (deserializedNodes x) 0 (treeLeaves x) (setStage .tdes s))

theorem exec_tdes_of_tree {s : State} {x : Tree} (htopo : topoSeq s = emitTopology x)
    (halpha : alphaBytes s = (sideList x).reverse) (hproper : properTree x = true) :
    exec .tdes s = .next (afterTdes x s) := exec_tdes_of_done (runTdes_of_tree htopo halpha hproper)

theorem completed_afterTdes (x : Tree) (s : State) : Completed false 0x21 (afterTdes x s) :=
  ⟨rfl, rfl, rfl, rfl, rfl⟩

theorem treeOf_afterTdes {x : Tree} (hproper : properTree x = true) (hsize : treeSize x ≤ 511) (s : State) :
    treeOf (afterTdes x s) = some x := by
  rcases properTree_cases hproper with hfull | ⟨sym, rfl⟩
  · rw [afterTdes, deserializedNodes_of_full hfull]
    exact treeOf_setTree_entriesOf hfull hsize (treeLeaves x) _
  · exact treeOf_setTree_wrapper sym _

theorem nodeCnt_afterTdes {x : Tree} (hproper : properTree x = true) (s : State) {cnt : BitVec 10}
    (h : treeSize x = cnt.toNat) : (afterTdes x s).nodeCnt = cnt := by
  simp [afterTdes, deserializedNodes_length hproper, h]

theorem nsym_afterTdes {x : Tree} (s : State) {nsym : BitVec 9} (h : treeLeaves x = nsym.toNat) :
    (afterTdes x s).nsym = nsym := by
  simp [afterTdes, h]

theorem entry_afterTdes {x : Tree} (hproper : properTree x = true) (s : State) {k : NodeIdx}
    (hk : k.toNat < treeSize x) :
    (deserializedNodes x)[k.toNat]? = some (nodeAt (afterTdes x s).nodes k) := by
  rw [← deserializedNodes_length hproper] at hk
  have hget := List.getElem?_eq_getElem hk
  exact hget.trans (congrArg some (nodeAt_eq_of_getElem? hget).symm)

/-- Settles O32: TDES sets the nodes of the tree, which `deserializedNodes` lists in pop order. -/
theorem tdesCompletes : Obligations.TdesCompletes := by
  intro s x hproper hsize htopo halpha
  have hbits := topoBits_of_topoSeq htopo
  have hcnt := nodeCnt_afterTdes hproper s hbits.symm
  refine ⟨afterTdes x s, exec_tdes_of_tree htopo halpha hproper, completed_afterTdes x s,
    treeOf_afterTdes hproper hsize s, rfl, hcnt, nsym_afterTdes s (alphaLen_of_alphaBytes halpha).symm,
    fun k hk => ?_, fun hwrapper => ?_⟩
  · rw [hcnt, hbits] at hk
    have hn := entry_afterTdes hproper s hk
    obtain ⟨hweight, htsym, hright⟩ := deserializedNodes_entry hproper hn
    rw [htopo, hbits]
    refine ⟨hweight, kind_deserializedNodes hproper hn, htsym, fun hk' hfull => ?_⟩
    rw [hright hk' hfull]
    exact toNat_ofNat_eq (by omega)
  · obtain ⟨sym, rfl⟩ := (wrapperTree_iff x).1 hwrapper
    exact ⟨rfl, rfl⟩

/-- Settles O34: TSER leaves the topology and the Alphabet of the tree, and the counts of R41 are those TDES
sets. -/
theorem tserThenTdesRestoresTree : Obligations.TserThenTdesRestoresTree := by
  intro s t htree hroot h
  obtain ⟨x, hx, hproper, hcnt, hnsym, hsize, hleaves⟩ := htree.2 hroot
  obtain rfl : afterTser x s = t :=
    Host.Outcome.next.inj ((exec_tser_of_tree hroot hx (serialFits_of_counts hsize hleaves)).symm.trans h)
  exact ⟨afterTdes x (afterTser x s),
    exec_tdes_of_tree (topoSeq_afterTser s hsize) (alphaBytes_afterTser s hleaves) hproper,
    completed_afterTdes x _, (treeOf_afterTdes hproper hsize _).trans hx.symm,
    nodeCnt_afterTdes hproper _ hcnt, nsym_afterTdes _ hnsym⟩

end Sys2Proof.Proofs
end

section
/-! Proofs about the BitPacker and the BitUnpacker: the bits of a packed sequence, and that packing and
unpacking undo each other. -/

namespace Sys2Proof.Proofs

open Sys2Proof Sys2Proof.Machine Sys2Proof.Safety

/-! ### The bits of a byte, most significant first -/

/-- Bit `i` of byte `j` in the order of the stream (45_bit_packer_unpacker.md R164). -/
theorem getLsbD_getElem_pack (b : BitSeq) {j i : Nat} (hj : j < (pack b).length) (hi : i < 8) :
    ((pack b)[j]).getLsbD (7 - i) = b.getD (8 * j + i) false := by
  have hbit := (pack_bits b).2 (8 * j + i)
  rwa [show (8 * j + i) / 8 = j by omega, show (8 * j + i) % 8 = i by omega,
    List.getD_eq_getElem _ _ hj] at hbit

/-- Bit `i` of the memory's byte `j` in the order of the stream (45_bit_packer_unpacker.md R166). -/
theorem getBit_of_byte (m : Memory) (j : Nat) {i : Nat} (hi : i < 8) :
    getBit m (8 * j + i) = (memRead m j).getLsbD (7 - i) := by
  rw [getBit, show (8 * j + i) / 8 = j by omega, show (8 * j + i) % 8 = i by omega]

theorem byte_eq_of_stream_bits {x y : Byte} (h : ∀ i < 8, x.getLsbD (7 - i) = y.getLsbD (7 - i)) : x = y := by
  refine BitVec.eq_of_getLsbD_eq fun k hk => ?_
  have hbit := h (7 - k) (by omega)
  rwa [show 7 - (7 - k) = k by omega] at hbit

/-- Settles O36: the length of a packing run, and its bits. -/
theorem packClosedForm : Obligations.PackClosedForm := fun b =>
  ⟨pack_length b, fun _ hj _ hi => getLsbD_getElem_pack b hj hi⟩

/-! ### Packing what was unpacked -/

/-- With the padding 0, the bits unpacked and the 0 beyond them are the bits of the memory
(45_bit_packer_unpacker.md R167). -/
theorem getD_unpack_of_paddingClear {m : Memory} {len : Nat} (h : PaddingClear m len) {k : Nat}
    (hk : k < 8 * ceil8 len) : (unpack m len).getD k false = getBit m k := by
  rcases Nat.lt_or_ge k len with hlt | hge
  · rw [List.getD_eq_getElem _ _ (by rwa [unpack_length]), unpack_getElem]
  · rw [List.getD_eq_default _ _ (by rwa [unpack_length]), h k hge hk]

/-- The bytes packed agree with the memory's bit by bit (45_bit_packer_unpacker.md R169). -/
theorem pack_unpack_of_paddingClear {m : Memory} {len : Nat} (h : PaddingClear m len) :
    pack (unpack m len) = memBytes m (ceil8 len) := by
  have hlen : (pack (unpack m len)).length = ceil8 len := by rw [pack_length, unpack_length]
  refine List.ext_getElem (by rw [hlen, memBytes_length]) fun j hj _ => byte_eq_of_stream_bits fun i hi => ?_
  calc ((pack (unpack m len))[j]).getLsbD (7 - i)
      = (unpack m len).getD (8 * j + i) false := getLsbD_getElem_pack _ hj hi
    _ = getBit m (8 * j + i) := getD_unpack_of_paddingClear h (by omega)
    _ = ((memBytes m (ceil8 len))[j]).getLsbD (7 - i) := by rw [memBytes_getElem, getBit_of_byte m j hi]

/-- Settles O37: unpacking reads the bits pushed, and packing writes the bits read. -/
theorem packUnpackInverse : Obligations.PackUnpackInverse :=
  ⟨unpack_memLoad_pack, fun _ _ h => pack_unpack_of_paddingClear h⟩

end Sys2Proof.Proofs
end

section
/-! Proofs about the Encoder: the payload ENC writes for codes that fit, and the first byte of the input that
it faults at. -/

namespace Sys2Proof.Proofs

open Sys2Proof Sys2Proof.Machine Sys2Proof.Safety

/-! ### A payload written and read back -/

section Payload

variable {b : BitSeq} (h : b.length < 2 ^ 32) (s : State)
include h

theorem payBits_setPay_pack : (setPay (pack b) b.length s).payBits.toNat = b.length :=
  toNat_ofNat_eq h

/-- The payload sequence is the bits packed (45_bit_packer_unpacker.md R169). -/
theorem paySeq_setPay_pack : paySeq (setPay (pack b) b.length s) = b := by
  rw [paySeq, payBits_setPay_pack h]
  exact unpack_memLoad_pack _ _

theorem payBytes_setPay_pack : payBytes (setPay (pack b) b.length s) = pack b := by
  rw [payBytes, payBits_setPay_pack h, ← pack_length]
  exact memBytes_memLoad _ _

end Payload

/-! ### Which end ENC takes -/

/-- The codes of the bytes one after another (46_encoder.md R175). -/
def codesOf (s : State) (bs : List Byte) : BitSeq := bs.flatMap fun x => (codeAt s x).getD []

theorem codesOf_length (s : State) (bs : List Byte) : (codesOf s bs).length = codeTotal s bs :=
  codeTotal_eq_length s bs

/-- Codes that fit the payload memory have a length that `PAY_BITS` holds (46_encoder.md R178). -/
theorem codesOf_length_lt {s : State} {bs : List Byte} (hfits : codeTotal s bs ≤ 8 * Config.bufCap) :
    (codesOf s bs).length < 2 ^ 32 := by
  have := bufCap_bounds.2
  rw [codesOf_length]
  omega

/-- The state an ENC of the payload bits `b` answers (46_encoder.md R176, 49_control.md R222). -/
def afterEnc (b : BitSeq) (s : State) : State :=
  completeOk false (setPay (pack b) b.length (setStage .enc s))

theorem completed_afterEnc (b : BitSeq) (s : State) : Completed false 0x14 (afterEnc b s) :=
  ⟨rfl, rfl, rfl, rfl, rfl⟩

theorem exec_enc_of_bits {s : State} {b : BitSeq}
    (h : encodeLoop Config.bufCap s.code 0 (inBytes s) [] = .bits b) :
    exec .enc s = .next (afterEnc b s) := by
  rw [exec_eq_complete, ruleOf]
  rcases runEnc_cases s with ⟨_, _, hraise, _⟩ | ⟨_, hbits, _, e⟩
  · exact nomatch h.symm.trans hraise
  · obtain rfl := Encoded.bits.inj (h.symm.trans hbits)
    rw [e]; rfl

/-- A fault of ENC is taken in its own stage and leaves no payload (46_encoder.md R176, 60_exceptions.md
R260). -/
theorem exec_enc_of_raise {s : State} {k : ErrKind} {info : Word}
    (h : encodeLoop Config.bufCap s.code 0 (inBytes s) [] = .raise k info) :
    ∃ t, exec .enc s = .next t ∧ FaultTaken k info 0x14 t ∧ t.payBits = 0 := by
  rcases runEnc_cases s with ⟨_, _, hraise, e⟩ | ⟨_, hbits, _, _⟩
  · obtain ⟨rfl, rfl⟩ := Encoded.raise.inj (h.symm.trans hraise)
    exact ⟨_, exec_of_raised (i := .enc) e, ⟨rfl, rfl, rfl, rfl, rfl⟩, rfl⟩
  · exact nomatch h.symm.trans hbits

/-! ### The loop over the input -/

/-- After bytes that all have a code and whose codes fit, the loop stands at the next byte with their codes
pushed (46_encoder.md R176). -/
theorem encodeLoop_inBytes_append {s : State} {done rest : List Byte} (hin : inBytes s = done ++ rest)
    (hvalid : ∀ y ∈ done, codeValid s y = true) (hfits : codeTotal s done ≤ 8 * Config.bufCap) :
    encodeLoop Config.bufCap s.code 0 (inBytes s) [] =
      encodeLoop Config.bufCap s.code done.length rest (codesOf s done) := by
  rw [hin, encodeLoop_append Config.bufCap s done rest 0 [] hvalid (by simpa using hfits), Nat.zero_add]
  rfl

/-- The loop raises at a byte without a code (46_encoder.md R177). -/
theorem encodeLoop_of_no_code {s : State} {x : Byte} (h : codeValid s x = false) (cap i : Nat)
    (rest : List Byte) (sofar : BitSeq) :
    encodeLoop cap s.code i (x :: rest) sofar = .raise .symbolNotInTable (BitVec.ofNat 32 i) := by
  have hx : s.code[x.toNat]'x.isLt = none :=
    Option.isNone_iff_eq_none.1 (Option.isSome_eq_false_iff.1 h)
  rw [encodeLoop, hx]

/-- The loop raises at a byte whose code no longer fits (46_encoder.md R178). -/
theorem encodeLoop_of_no_room {s : State} {x : Byte} {cap : Nat} {sofar : BitSeq}
    (h : codeValid s x = true) (hroom : 8 * cap < sofar.length + codeLen s x) (i : Nat) (rest : List Byte) :
    encodeLoop cap s.code i (x :: rest) sofar = .raise .capacityExceeded 2 := by
  obtain ⟨c, hc⟩ := Option.isSome_iff_exists.1 h
  have hx : s.code[x.toNat]'x.isLt = some c := hc
  rw [codeLen, hc] at hroom
  rw [encodeLoop, hx]
  exact if_pos hroom

/-- Settles O38: the loop runs over the whole input, and what it pushed is the payload. -/
theorem encCompletes : Obligations.EncCompletes := by
  intro s hvalid hfits
  have hloop := encodeLoop_inBytes_append (List.append_nil _).symm hvalid hfits
  have hword := codesOf_length_lt hfits
  have hseq : paySeq (afterEnc (codesOf s (inBytes s)) s) = codesOf s (inBytes s) :=
    paySeq_setPay_pack hword _
  refine ⟨_, exec_enc_of_bits hloop, completed_afterEnc _ s, ?_, hseq, ?_⟩
  · rw [← codesOf_length]
    exact payBits_setPay_pack hword (setStage .enc s)
  · rw [hseq]
    exact payBytes_setPay_pack hword _

/-- Settles O39: the loop comes to the byte `x` with the codes before it pushed, and asks for the code of `x`
before it asks for room. -/
theorem encFaults : Obligations.EncFaults := by
  intro s done x rest hin hvalid hfits
  have hloop := encodeLoop_inBytes_append hin hvalid hfits
  refine ⟨fun hnone => exec_enc_of_raise (hloop.trans (encodeLoop_of_no_code hnone _ _ _ _)),
    fun hcode hroom => exec_enc_of_raise (hloop.trans (encodeLoop_of_no_room hcode ?_ _ _))⟩
  rwa [codesOf_length]

end Sys2Proof.Proofs
end

section
/-! Proofs about the Decoder: what DEC answers for whole codes, for bits that are no whole codes, and for a
bare Leaf. -/

namespace Sys2Proof.Proofs

open Sys2Proof Sys2Proof.Machine Sys2Proof.Safety

/-! ### Which end DEC takes -/

/-- What DEC makes of the payload of the state, given that it holds a tree (47_decoder.md R186). -/
def decoded (s : State) : Decoded := decodePayload Config.bufCap s.nodes s.root (paySeq s)

/-- The state a DEC of the symbols `bs` answers (47_decoder.md R186, 49_control.md R222). -/
def afterDec (bs : List Byte) (s : State) : State := completeOk false (setOut bs (setStage .dec s))

theorem completed_afterDec (bs : List Byte) (s : State) : Completed false 0x22 (afterDec bs s) :=
  ⟨rfl, rfl, rfl, rfl, rfl⟩

/-- Symbols that fit the output memory are read back over the length DEC leaves (47_decoder.md R189). -/
theorem output_afterDec {bs : List Byte} (hfits : bs.length ≤ Config.bufCap) (s : State) :
    (afterDec bs s).outLen.toNat = bs.length ∧ outBytes (afterDec bs s) = bs := by
  have hlen : bs.length < 2 ^ 29 := by
    have := bufCap_bounds.2
    omega
  exact (outBytes_setOut bs hlen (setStage .dec s)).symm

theorem exec_dec_of_symbols {s : State} {bs : List Byte} (hroot : s.root ≠ Config.nil)
    (h : decoded s = .symbols bs) : exec .dec s = .next (afterDec bs s) := by
  rw [exec_eq_complete, ruleOf]
  rcases runDec_cases s with ⟨hnil, _⟩ | ⟨_, _, _, hraise, _⟩ | ⟨_, _, hsymbols, _, e⟩
  · exact absurd hnil hroot
  · exact nomatch h.symm.trans hraise
  · obtain rfl := Decoded.symbols.inj (h.symm.trans hsymbols)
    rw [e]; rfl

/-- A fault of DEC is taken in its own stage and leaves no output (47_decoder.md R186, 60_exceptions.md
R260). -/
theorem exec_dec_of_raise {s : State} {k : ErrKind} {info : Word} (hroot : s.root ≠ Config.nil)
    (h : decoded s = .raise k info) :
    ∃ t, exec .dec s = .next t ∧ FaultTaken k info 0x22 t ∧ t.outLen = 0 := by
  rcases runDec_cases s with ⟨hnil, _⟩ | ⟨_, _, _, hraise, e⟩ | ⟨_, _, hsymbols, _, _⟩
  · exact absurd hnil hroot
  · obtain ⟨rfl, rfl⟩ := Decoded.raise.inj (h.symm.trans hraise)
    exact ⟨_, exec_of_raised (i := .dec) e, ⟨rfl, rfl, rfl, rfl, rfl⟩, rfl⟩
  · exact nomatch h.symm.trans hsymbols

/-- A DEC that leaves the block idle did not fault. -/
theorem symbols_of_exec_dec {s t : State} (h : exec .dec s = .next t) (hidle : t.fsm = .idle) :
    ∃ bs, decoded s = .symbols bs ∧ t = afterDec bs s := by
  rw [exec_eq_complete, ruleOf] at h
  rcases runDec_cases s with ⟨_, e⟩ | ⟨_, _, _, _, e⟩ | ⟨_, bs, hsymbols, _, e⟩ <;>
    rw [e] at h <;> cases h
  · cases hidle
  · cases hidle
  · exact ⟨bs, hsymbols, rfl⟩

/-! ### A root that is an Internal node -/

theorem reads_of_treeOf {s : State} {x : Tree} (h : treeOf s = some x) : Reads s.nodes s.root x := ⟨256, h⟩

section Internal

variable {s : State} {l r : Tree} (htree : treeOf s = some (.internal l r))
include htree

theorem root_ne_nil_of_internal : s.root ≠ Config.nil := (reads_of_treeOf htree).isInternal.1

/-- With an Internal root DEC walks the payload from the root on (47_decoder.md R186). -/
theorem decoded_of_internal :
    decoded s = decodeLoop Config.bufCap s.nodes s.root (paySeq s) s.root [] := by
  obtain ⟨_, hkind, _⟩ := (reads_of_treeOf htree).isInternal
  rw [decoded, decodePayload, hkind]

/-- After whole codes that fit the output memory the walk stands at the root with their symbols stored
(47_decoder.md R185). -/
theorem decoded_after_paths {es : List (BitSeq × Byte)} {rest : BitSeq}
    (hpaths : ∀ e ∈ es, leafAt (.internal l r) e.1 e.2) (hfits : es.length ≤ Config.bufCap)
    (hpay : paySeq s = es.flatMap (fun e => e.1) ++ rest) :
    decoded s = decodeLoop Config.bufCap s.nodes s.root rest s.root (es.map fun e => e.2) := by
  rw [decoded_of_internal htree, hpay,
    decodeLoop_paths _ _ _ l r (reads_of_treeOf htree) es rest [] hpaths (by simpa using hfits),
    List.nil_append]

end Internal

/-- Settles O40: after the last whole code the walk is at the root with no bit left. -/
theorem decCompletes : Obligations.DecCompletes := by
  intro s l r es htree hpaths hpay hfits
  have hend := decoded_after_paths (rest := []) htree hpaths hfits (by rw [hpay, List.append_nil])
  rw [decodeLoop, if_pos rfl] at hend
  obtain ⟨hlen, hout⟩ := output_afterDec (bs := es.map fun e => e.2) (by rwa [List.length_map]) s
  exact ⟨_, exec_dec_of_symbols (root_ne_nil_of_internal htree) hend, completed_afterDec _ s,
    hlen.trans (List.length_map _), hout⟩

/-- Settles O41: a walk that ends without a raise has come back to the root after each whole code. -/
theorem decReadsOnlyWholeCodes : Obligations.DecReadsOnlyWholeCodes := by
  intro s t l r htree hexec hidle
  obtain ⟨bs, hsymbols, rfl⟩ := symbols_of_exec_dec hexec hidle
  rw [decoded_of_internal htree] at hsymbols
  obtain ⟨es, hpaths, hpay, rfl, hfits⟩ :=
    decodeLoop_whole _ _ _ l r (reads_of_treeOf htree) _ _ [] bs rfl (Nat.zero_le _) hsymbols
  exact ⟨es, hpaths, hpay, (output_afterDec hfits s).2, by simpa using hfits⟩

/-- Settles O42: from the root, with the symbols of the whole codes stored, the bits `p` end inside a code,
select an absent child, or lead to one Leaf more. -/
theorem decFaults : Obligations.DecFaults := by
  intro s l r es p rest htree hpaths hfits hpay
  have hreads := reads_of_treeOf htree
  have hroot := root_ne_nil_of_internal htree
  have hloop := decoded_after_paths htree hpaths hfits hpay
  refine ⟨fun hp hrest hinside => ?_, fun habsent => ?_, fun sym hleaf hfull => ?_⟩ <;>
    refine exec_dec_of_raise hroot (hloop.trans ?_)
  · rw [hrest, List.append_nil]
    exact decodeLoop_inside _ _ _ _ hreads p l r _ _ hreads hinside le_rfl (absurd · hp)
  · exact decodeLoop_absent _ _ _ p rest l r _ _ hreads habsent
  · rw [decodeLoop_path _ _ _ p l r _ sym rest _ hreads hleaf, if_pos (by rwa [List.length_map])]

/-! ### A root that is a bare Leaf -/

/-- A bare Leaf decodes the payload of no bits only (47_decoder.md R188). -/
theorem decoded_of_leaf {s : State} {sym : Byte} (htree : treeOf s = some (.leaf sym)) :
    decoded s = if s.payBits = 0 then .symbols [] else .raise .decodeDesync 3 := by
  obtain ⟨_, hkind, _⟩ := (reads_of_treeOf htree).isLeaf
  have hlen : (paySeq s).length = 0 ↔ s.payBits = 0 := by
    rw [paySeq, unpack_length]
    exact BitVec.toNat_inj (y := 0)
  rw [decoded, decodePayload, hkind]
  exact if_congr hlen rfl rfl

/-- Settles O43: no bit can be walked from a bare Leaf. -/
theorem decBareLeafRoot : Obligations.DecBareLeafRoot := by
  intro s sym htree
  have hroot : s.root ≠ Config.nil := (reads_of_treeOf htree).isLeaf.1
  have hleaf := decoded_of_leaf htree
  exact ⟨fun hpay => ⟨_, exec_dec_of_symbols hroot (hleaf.trans (if_pos hpay)), completed_afterDec [] s, rfl⟩,
    fun hpay => exec_dec_of_raise hroot (hleaf.trans (if_neg hpay))⟩

end Sys2Proof.Proofs
end

section
/-! Proofs about the container: what ASM writes, which inputs PARSE splits and which it faults at, and that
PARSE undoes ASM. -/

namespace Sys2Proof.Proofs

open Sys2Proof Sys2Proof.Machine Sys2Proof.Safety

/-! ### Ends of a rule -/

/-- A rule that runs to its end makes its command complete (49_control.md R222). -/
theorem exec_of_done {i : Instr} {s u : State} (hi : i ≠ .clr) (h : ruleOf i s = .done u) :
    exec i s = .next (completeOk false u) := by
  rw [exec_eq_complete, h, complete_done, beq_false_of_ne hi]

/-- Output bytes that fit the output memory are read back over the length set with them (10_state.md R30,
R45). -/
theorem output_setOut {bs : List Byte} (hfits : bs.length ≤ Config.bufCap) (s : State) :
    outBytes (setOut bs s) = bs ∧ (setOut bs s).outLen.toNat = bs.length :=
  outBytes_setOut bs (by have := bufCap_bounds.2; omega) s

/-! ### ASM -/

/-- The container of the Alphabet, the topology and the payload of the state (48_container.md R200). -/
def containerOf (s : State) : List Byte :=
  containerBytes (s.alphaLen.setWidth 32) (s.topoBits.setWidth 32) s.payBits (alphaBytes s) (topoBytes s)
    (payBytes s)

/-- Its length, from the three length registers (R200). -/
def containerSize (s : State) : Nat := containerLen s.alphaLen.toNat s.topoBits.toNat s.payBits.toNat

theorem containerOf_length (s : State) : (containerOf s).length = containerSize s := runAsm_length s

/-- The length fields of the container are the three registers. -/
theorem containerOf_eq (s : State) :
    containerOf s = be32 (BitVec.ofNat 32 s.alphaLen.toNat) ++ be32 (BitVec.ofNat 32 s.topoBits.toNat)
      ++ be32 s.payBits ++ alphaBytes s ++ topoBytes s ++ payBytes s := by
  rw [containerOf, containerBytes, setWidth_eq_ofNat, setWidth_eq_ofNat]

theorem runAsm_of_fits {s : State} (h : containerSize s ≤ Config.bufCap) :
    runAsm s = .done (setOut (containerOf s) (setStage .asm s)) := by
  rcases runAsm_cases s with ⟨_, e⟩ | ⟨hover, _⟩
  · exact e
  · exact absurd h (Nat.not_le.2 hover)

theorem runAsm_of_exceeds {s : State} (h : Config.bufCap < containerSize s) :
    runAsm s = .raised .capacityExceeded 3 (dropOut (setStage .asm s)) := by
  rcases runAsm_cases s with ⟨hfits, _⟩ | ⟨_, e⟩
  · exact absurd hfits (Nat.not_le.2 h)
  · exact e

/-- The container ASM writes is read back from the output memory (48_container.md R201). -/
theorem output_container {s : State} (h : containerSize s ≤ Config.bufCap) (u : State) :
    outBytes (setOut (containerOf s) u) = containerOf s ∧
      (setOut (containerOf s) u).outLen.toNat = containerSize s := by
  rw [← containerOf_length] at h ⊢
  exact output_setOut h u

/-- Settles O44: the container's length decides, and its bytes are those of the registers and memories. -/
theorem asmCompletes : Obligations.AsmCompletes := by
  intro s
  refine ⟨fun h => ?_, fun h => ?_⟩
  · obtain ⟨hbytes, hlen⟩ := output_container h (setStage .asm s)
    exact ⟨_, exec_of_done (i := .asm) (by decide) (runAsm_of_fits h), ⟨rfl, rfl, rfl, rfl, rfl⟩, hlen,
      hbytes.trans (containerOf_eq s)⟩
  · exact ⟨_, exec_of_raised (i := .asm) (runAsm_of_exceeds h), ⟨rfl, rfl, rfl, rfl, rfl⟩, rfl⟩

/-! ### The faults of PARSE -/

/-- The three lengths the header gives (48_container.md R200, R202). -/
def headerAlphaLen (s : State) : Nat := (headerField s.inMem 0).toNat
def headerTopoBits (s : State) : Nat := (headerField s.inMem 4).toNat
def headerPayBits (s : State) : Nat := (headerField s.inMem 8).toNat

/-- The regions the header gives fill the input exactly (R202, R203). -/
def RegionsFill (s : State) : Prop :=
  containerLen (headerAlphaLen s) (headerTopoBits s) (headerPayBits s) = s.inLen.toNat

theorem runParse_of_short {s : State} (h : s.inLen.toNat < 12) :
    runParse s = .raised .invalidContainer 1 (dropParsed (setStage .parse s)) := if_pos h

section Long

variable {s : State} (hlong : 12 ≤ s.inLen.toNat)
include hlong

theorem runParse_of_not_fill (h : ¬ RegionsFill s) :
    runParse s = .raised .invalidContainer 2 (dropParsed (setStage .parse s)) :=
  (if_neg (Nat.not_lt.2 hlong)).trans (if_pos h)

variable (hfill : RegionsFill s)
include hfill

theorem runParse_of_long_alphabet (h : 256 < headerAlphaLen s) :
    runParse s = .raised .invalidContainer 3 (dropParsed (setStage .parse s)) :=
  (if_neg (Nat.not_lt.2 hlong)).trans ((if_neg (not_not.2 hfill)).trans (if_pos h))

theorem runParse_of_long_topology (ha : headerAlphaLen s ≤ 256) (h : 511 < headerTopoBits s) :
    runParse s = .raised .invalidContainer 4 (dropParsed (setStage .parse s)) :=
  (if_neg (Nat.not_lt.2 hlong)).trans ((if_neg (not_not.2 hfill)).trans
    ((if_neg (Nat.not_lt.2 ha)).trans (if_pos h)))

end Long

/-- A raise of PARSE is taken in its own stage and leaves the three lengths 0 (R202, 60_exceptions.md R260). -/
theorem exec_parse_of_raised {s : State} {info : Word}
    (h : runParse s = .raised .invalidContainer info (dropParsed (setStage .parse s))) :
    ∃ u, exec .parse s = .next u ∧ FaultTaken .invalidContainer info 0x20 u ∧ u.alphaLen = 0 ∧
      u.topoBits = 0 ∧ u.payBits = 0 :=
  ⟨_, exec_of_raised (i := .parse) h, ⟨rfl, rfl, rfl, rfl, rfl⟩, rfl, rfl, rfl⟩

/-- Settles O45, check by check. -/
theorem parseFaults : Obligations.ParseFaults := fun _ =>
  ⟨fun h => exec_parse_of_raised (runParse_of_short h),
    fun hlong h => exec_parse_of_raised (runParse_of_not_fill hlong h),
    fun hlong hfill h => exec_parse_of_raised (runParse_of_long_alphabet hlong hfill h),
    fun hlong hfill ha h => exec_parse_of_raised (runParse_of_long_topology hlong hfill ha h)⟩

/-! ### The parts of a container -/

/-- The Alphabet, the topology and the payload of a container, the padding bits of the last two cleared
(48_container.md R202, R204). -/
def setParts (alpha topo pay : List Byte) (t p : Nat) (s : State) : State :=
  setPay (clearPadding p pay) p (setTopo (clearPadding t topo) t (setAlpha alpha s))

/-- The bytes of the parts are read back over the lengths set with them. -/
theorem bytes_setParts {alpha topo pay : List Byte} {t p : Nat} (ha : alpha.length < 2 ^ 9) (ht : t < 2 ^ 10)
    (hp : p < 2 ^ 32) (htopo : topo.length = ceil8 t) (hpay : pay.length = ceil8 p) (s : State) :
    alphaBytes (setParts alpha topo pay t p s) = alpha ∧
      topoBytes (setParts alpha topo pay t p s) = clearPadding t topo ∧
      payBytes (setParts alpha topo pay t p s) = clearPadding p pay := by
  refine ⟨memBytes_memLoad_of_length _ _ _ (toNat_ofNat_eq ha).symm, memBytes_memLoad_of_length _ _ _ ?_,
    memBytes_memLoad_of_length _ _ _ ?_⟩
  · exact (clearPadding_length ..).trans (htopo.trans (congrArg ceil8 (toNat_ofNat_eq ht).symm))
  · exact (clearPadding_length ..).trans (hpay.trans (congrArg ceil8 (toNat_ofNat_eq hp).symm))

/-- A container that passes the checks is split into its regions (R202). -/
theorem runParse_of_fill {s : State} (hfill : RegionsFill s) (ha : headerAlphaLen s ≤ 256)
    (ht : headerTopoBits s ≤ 511) :
    runParse s = .done (setParts (memSlice s.inMem 12 (headerAlphaLen s))
      (memSlice s.inMem (12 + headerAlphaLen s) (ceil8 (headerTopoBits s)))
      (memSlice s.inMem (12 + headerAlphaLen s + ceil8 (headerTopoBits s)) (ceil8 (headerPayBits s)))
      (headerTopoBits s) (headerPayBits s) (setStage .parse s)) :=
  runParse_ok s hfill.symm ha ht

/-- The bits of a region copied with its padding cleared (R204). -/
theorem getBit_clearPadding_memSlice (m : Memory) (a n e : Nat) {k : Nat} (hk : k < 8 * ceil8 n) :
    getBit (memLoad (clearPadding n (memSlice m a (ceil8 n))) e) k =
      if k < n then (memRead m (a + k / 8)).getLsbD (7 - k % 8) else false := by
  rw [getBit_clearPadding n _ (memSlice_length ..) k hk]
  simp only [memSlice_getElem]

/-- Settles O46: the registers are the header's numbers, and each copy is read bit by bit. -/
theorem parseCompletes : Obligations.ParseCompletes := by
  intro s a t p hfill ha ht
  have hexec := exec_of_done (i := .parse) (by decide) (runParse_of_fill hfill ha ht)
  have hlen : (memSlice s.inMem 12 a).length = a := memSlice_length ..
  refine ⟨_, hexec, ⟨rfl, rfl, rfl, rfl, rfl⟩,
    (toNat_ofNat_eq (hlen.trans_lt (ha.trans_lt (by decide)))).trans hlen,
    toNat_ofNat_eq (ht.trans_lt (by decide)), toNat_ofNat_eq (headerField s.inMem 8).isLt, fun j hj => ?_,
    fun k => getBit_clearPadding_memSlice _ _ t _, fun k => getBit_clearPadding_memSlice _ _ p _⟩
  exact (memRead_memLoad _ _ j (hj.trans_eq hlen.symm)).trans (memSlice_getElem ..)

/-! ### PARSE after ASM -/

/-- A region whose padding bits are 0 is copied as it stands (48_container.md R204). -/
theorem clearPadding_of_paddingClear {m : Memory} {n : Nat} (h : PaddingClear m n) :
    clearPadding n (memBytes m (ceil8 n)) = memBytes m (ceil8 n) := by
  have hlen : (memBytes m (ceil8 n)).length = ceil8 n := memBytes_length ..
  have hbits : unpack (memLoad (clearPadding n (memBytes m (ceil8 n))) 0) n = unpack m n := by
    refine List.ext_getElem (by simp) fun k hk _ => ?_
    rw [unpack_length] at hk
    rw [unpack_getElem, unpack_getElem,
      getBit_clearPadding n _ hlen k (hk.trans_le (ceil8_bounds n).1), if_pos hk, memBytes_getElem, getBit]
  have hcopy := pack_unpack_of_paddingClear (paddingClear_clearPadding 0 hlen)
  rw [hbits, pack_unpack_of_paddingClear h,
    memBytes_memLoad_of_length _ _ _ ((clearPadding_length ..).trans hlen)] at hcopy
  exact hcopy.symm

/-- The same Alphabet, topology and payload, with the registers that cover them. -/
structure SameParts (s u : State) : Prop where
  alphaLen : u.alphaLen = s.alphaLen
  topoBits : u.topoBits = s.topoBits
  payBits : u.payBits = s.payBits
  alphaBytes : alphaBytes u = alphaBytes s
  topoBytes : topoBytes u = topoBytes s
  payBytes : payBytes u = payBytes s

/-- Parts that were read from a state with clean BitBuffers are its parts again. -/
theorem sameParts_setParts {s : State} (hbuf : BuffersOk s) (v : State) :
    SameParts s (setParts (alphaBytes s) (topoBytes s) (payBytes s) s.topoBits.toNat s.payBits.toNat v) := by
  obtain ⟨htopo, hpay⟩ := hbuf
  obtain ⟨ha, ht, hp⟩ := bytes_setParts (alpha := alphaBytes s) (topo := topoBytes s) (pay := payBytes s)
    ((alphaBytes_length s).trans_lt s.alphaLen.isLt) s.topoBits.isLt s.payBits.isLt (memBytes_length ..)
    (memBytes_length ..) v
  exact ⟨by simp [setParts, alphaBytes_length], by simp [setParts], by simp [setParts], ha,
    ht.trans (clearPadding_of_paddingClear htopo), hp.trans (clearPadding_of_paddingClear hpay)⟩

/-- PARSE of the container of a state with clean BitBuffers gives the parts of that state (R205). -/
theorem runParse_of_container {s v : State} (ha : s.alphaLen.toNat ≤ 256) (ht : s.topoBits.toNat ≤ 511)
    (hbuf : BuffersOk s) (hv : Loaded (containerOf s) v) :
    ∃ u, runParse v = .done u ∧ u.stage = 0x20 ∧ SameParts s u := by
  have ha' : (s.alphaLen.setWidth 32).toNat = s.alphaLen.toNat := by
    rw [BitVec.toNat_setWidth, Nat.mod_eq_of_lt (by omega)]
  have ht' : (s.topoBits.setWidth 32).toNat = s.topoBits.toNat := by
    rw [BitVec.toNat_setWidth, Nat.mod_eq_of_lt (by omega)]
  have h := parse_container v _ _ _ _ _ _ hv ((alphaBytes_length s).trans ha'.symm)
    ((memBytes_length ..).trans (congrArg ceil8 ht'.symm)) (memBytes_length ..) (ha'.trans_le ha)
    (ht'.trans_le ht)
  rw [ht'] at h
  exact ⟨_, h, rfl, sameParts_setParts hbuf (setStage .parse v)⟩

/-- An ASM that leaves the block idle wrote the container. -/
theorem containerSize_le_of_exec_asm {s t : State} (h : exec .asm s = .next t) (hidle : t.fsm = .idle) :
    containerSize s ≤ Config.bufCap ∧ outBytes t = containerOf s := by
  by_cases hfits : containerSize s ≤ Config.bufCap
  · obtain rfl := Host.Outcome.next.inj
      ((exec_of_done (i := .asm) (by decide) (runAsm_of_fits hfits)).symm.trans h)
    exact ⟨hfits, (output_container hfits (setStage .asm s)).1⟩
  · obtain rfl := Host.Outcome.next.inj
      ((exec_of_raised (i := .asm) (runAsm_of_exceeds (Nat.not_le.1 hfits))).symm.trans h)
    cases hidle

/-- Settles O47: PARSE reads the header ASM wrote, and copies regions whose padding is 0 already. -/
theorem asmThenParseRestores : Obligations.AsmThenParseRestores := by
  intro s t v hreg hbuf h hidle hv
  obtain ⟨_, _, ha, ht, _⟩ := hreg
  rw [(containerSize_le_of_exec_asm h hidle).2] at hv
  obtain ⟨u, hu, hstage, hsame⟩ := runParse_of_container ha ht hbuf hv
  exact ⟨_, exec_of_done (i := .parse) (by decide) hu, ⟨rfl, rfl, rfl, rfl, hstage⟩, hsame.alphaLen,
    hsame.topoBits, hsame.payBits, hsame.alphaBytes, hsame.topoBytes, hsame.payBytes⟩

end Sys2Proof.Proofs
end

section
/-! Proofs about DECOMP on containers whose parts are a tree and whole codes of it. -/

namespace Sys2Proof.Proofs

open Sys2Proof Sys2Proof.Machine Sys2Proof.Safety

/-! ### DEC of whole codes -/

theorem root_ne_nil_of_proper {s : State} {x : Tree} (htree : treeOf s = some x)
    (hproper : properTree x = true) : s.root ≠ Config.nil := by
  cases x with
  | absent => cases hproper
  | leaf sym => exact (reads_of_treeOf htree).isLeaf.1
  | internal l r => exact root_ne_nil_of_internal htree

/-- Whole nonempty codes decode to their symbols; a bare Leaf has none (47_decoder.md R186, R188). -/
theorem decoded_of_paths {s : State} {x : Tree} {es : List (BitSeq × Byte)} (htree : treeOf s = some x)
    (hproper : properTree x = true) (hpaths : ∀ e ∈ es, leafAt x e.1 e.2 ∧ e.1 ≠ [])
    (hpay : paySeq s = es.flatMap (fun e => e.1)) (hfits : es.length ≤ Config.bufCap) :
    decoded s = .symbols (es.map fun e => e.2) := by
  cases x with
  | absent => cases hproper
  | leaf sym =>
    obtain rfl : es = [] := List.eq_nil_iff_forall_not_mem.2 fun e he =>
      (hpaths e he).2 ((leafAt_leaf _ _ _).1 (hpaths e he).1).1
    have hbits : s.payBits = 0 := by
      have hlen := congrArg List.length hpay
      rw [paySeq, unpack_length] at hlen
      exact BitVec.eq_of_toNat_eq hlen
    rw [decoded_of_leaf htree, if_pos hbits, List.map_nil]
  | internal l r =>
    rw [decoded_after_paths (rest := []) htree (fun e he => (hpaths e he).1) hfits
      (hpay.trans (List.append_nil _).symm), decodeLoop, if_pos rfl]

theorem runDec_of_symbols {s : State} {bs : List Byte} (hroot : s.root ≠ Config.nil)
    (h : decoded s = .symbols bs) : runDec s = .done (setOut bs (setStage .dec s)) := by
  rcases runDec_cases s with ⟨hnil, _⟩ | ⟨_, _, _, hraise, _⟩ | ⟨_, _, hsymbols, _, e⟩
  · exact absurd hnil hroot
  · exact nomatch h.symm.trans hraise
  · obtain rfl := Decoded.symbols.inj (h.symm.trans hsymbols)
    exact e

theorem runDec_of_raise {s : State} {k : ErrKind} {info : Word} (hroot : s.root ≠ Config.nil)
    (h : decoded s = .raise k info) : runDec s = .raised k info (dropOut (setStage .dec s)) := by
  rcases runDec_cases s with ⟨hnil, _⟩ | ⟨_, _, _, hraise, e⟩ | ⟨_, _, hsymbols, _, _⟩
  · exact absurd hnil hroot
  · obtain ⟨rfl, rfl⟩ := Decoded.raise.inj (h.symm.trans hraise)
    exact e
  · exact nomatch h.symm.trans hsymbols

/-! ### The three stages -/

/-- PARSE accepts no topology longer than `TOPO_MAX` (48_container.md R202). -/
theorem topoBits_le_of_runParse {s u : State} (h : runParse s = .done u) : u.topoBits.toNat ≤ 511 := by
  have hleaves := runParse_leaves (s := s) (P := fun v => v.topoBits.toNat ≤ 511) (Nat.zero_le _)
    fun _ t _ _ ht _ _ => (Nat.mod_le t _).trans ht
  rwa [h] at hleaves

theorem runDecomp_of_stages {s u v w : State} (hparse : runParse s = .done u) (htdes : runTdes u = .done v)
    (hdec : runDec v = .done w) : runDecomp s = .done w := by
  rw [runDecomp, hparse, andThen_done, htdes, andThen_done, hdec, dropOutOnRaise_done]

/-- Settles O50: TDES rebuilds the tree, and DEC walks it once for each code. -/
theorem decompCompletes : Obligations.DecompCompletes := by
  intro s u x es hparse hproper htopo halpha hpaths hpay hfits
  have hsize : treeSize x ≤ 511 := (topoBits_of_topoSeq htopo).symm.trans_le (topoBits_le_of_runParse hparse)
  have htree : treeOf (setTree (deserializedNodes x) 0 (treeLeaves x) (setStage .tdes u)) = some x :=
    treeOf_afterTdes hproper hsize u
  have hdec := runDec_of_symbols (root_ne_nil_of_proper htree hproper)
    (decoded_of_paths htree hproper hpaths hpay hfits)
  obtain ⟨hout, hlen⟩ := output_setOut (bs := es.map fun e => e.2) (by rwa [List.length_map])
    (setStage .dec (setTree (deserializedNodes x) 0 (treeLeaves x) (setStage .tdes u)))
  exact ⟨_, exec_of_done (i := .decomp) (by decide)
    (runDecomp_of_stages hparse (runTdes_of_tree htopo halpha hproper) hdec), ⟨rfl, rfl, rfl, rfl, rfl⟩,
    hlen.trans (List.length_map _), hout, htree⟩

end Sys2Proof.Proofs
end

section
/-! Proofs about COMP: its first four stages run to their end on every non-empty input, what ENC and ASM make
of what they leave, and the container of copies of one symbol. -/

namespace Sys2Proof.Proofs

open Sys2Proof Sys2Proof.Machine Sys2Proof.Safety

/-! ### The tree BUILD makes -/

/-- A tree as BUILD makes it of the given symbols: one of R41 with a Leaf for each symbol and an Internal root,
the wrapper's when there is one symbol (41_tree_builder.md R113 to R115). -/
structure BuiltTree (x : Tree) (syms : List Byte) : Prop where
  proper : properTree x = true
  inner : ∃ l r, x = .internal l r
  symbols : (sideList x).Perm syms

theorem two_le_leaves_of_full {l r : Tree} (h : fullTree (.internal l r) = true) :
    2 ≤ treeLeaves (.internal l r) := by
  obtain ⟨hl, hr⟩ := Bool.and_eq_true_iff.1 h
  exact Nat.add_le_add (treeSize_of_full l hl).2 (treeSize_of_full r hr).2

namespace BuiltTree

variable {x : Tree} {syms : List Byte} (h : BuiltTree x syms)
include h

theorem leaves : treeLeaves x = syms.length := by rw [← sideList_length, h.symbols.length_eq]

/-- The number of nodes, hence of topology bits (43_tree_serializer.md R138). -/
theorem size : treeSize x = if syms.length = 1 then 2 else 2 * syms.length - 1 := by
  rw [← h.leaves]
  rcases properTree_cases h.proper with hfull | ⟨sym, rfl⟩
  · obtain ⟨l, r, rfl⟩ := h.inner
    have htwo := two_le_leaves_of_full hfull
    have hsize := (treeSize_of_full _ hfull).1
    rw [if_neg (by omega)]
    omega
  · rfl

/-- The tree of one symbol is the wrapper (41_tree_builder.md R115). -/
theorem eq_wrapper {sym : Byte} (hsyms : syms.Perm [sym]) : x = .internal (.leaf sym) .absent := by
  have hside : sideList x = [sym] := List.perm_singleton.1 (h.symbols.trans hsyms)
  rcases properTree_cases h.proper with hfull | ⟨y, rfl⟩
  · obtain ⟨l, r, rfl⟩ := h.inner
    have htwo := two_le_leaves_of_full hfull
    rw [← sideList_length, hside] at htwo
    exact absurd htwo (Nat.not_succ_le_self 1)
  · obtain rfl : y = sym := (List.cons.inj hside).1
    rfl

end BuiltTree

/-- The arena the merge loop leaves reads as a tree of its symbols, whatever lies beyond it (R114). -/
theorem builtTree_of_mergeInv {arena : List Node} {root : Node} {T : Nat → Tree} {L : Nat → List Nat}
    {N total : Nat} {S : List Byte} (inv : MergeInv arena [(arena.length - 1, root)] T L N total S)
    (h2 : 2 ≤ N) (hN : N ≤ 256) :
    BuiltTree (T (arena.length - 1)) S ∧ BitVec.ofNat 9 (arena.length - 1) ≠ Config.nil ∧
      ∀ e, readTree { entries := arena, epoch := e } 256 (BitVec.ofNat 9 (arena.length - 1)) =
        some (T (arena.length - 1)) := by
  have hlen := mergeInv_length inv
  have hfull : fullTree (T (arena.length - 1)) = true :=
    (inv.nodes _ root (inv.mem _ (List.mem_singleton.2 rfl))).full
  have hleaves : treeLeaves (T (arena.length - 1)) = N := by simpa using inv.leaves
  have hinner : ∃ l r, T (arena.length - 1) = .internal l r := by
    cases hT : T (arena.length - 1) with
    | absent => rw [hT] at hfull; cases hfull
    | leaf sym => rw [hT, treeLeaves] at hleaves; omega
    | internal l r => exact ⟨l, r, rfl⟩
  exact ⟨⟨properTree_of_full hfull, hinner, by simpa using inv.syms⟩, ofNat_ne_nil _ (by omega),
    fun e => (readTree_of_nodes arena e T L inv.nodes (by omega) 256 _ (by omega)
      (treeHeight_le_of_full hfull (hleaves.trans_le hN))).1⟩

/-- A BUILD that runs to its end leaves a tree of the counted symbols, whatever lies beyond its arena (R114,
R115). -/
theorem builtTree_of_runBuild {s u : State} (h : runBuild s = .done u) :
    ∃ x, BuiltTree x (countedSymbols s) ∧ u.root ≠ Config.nil ∧
      ∀ e, readTree { entries := u.nodes.entries, epoch := e } 256 u.root = some x := by
  rcases runBuild_cases s with ⟨_, e⟩ | ⟨sym, hsyms, e⟩ | ⟨_, _, e⟩ | ⟨h2, _, _, _, T, _, _, _, inv, e⟩ <;>
    rw [e] at h <;> cases h
  · rw [hsyms]
    exact ⟨.internal (.leaf sym) .absent, ⟨rfl, ⟨_, _, rfl⟩, List.Perm.refl _⟩, ofNat_ne_nil 1 (by decide),
      fun _ => (wrapper_walk (i := 1) (j := 0) 254 (by decide) (by decide) rfl rfl rfl rfl).1⟩
  · exact ⟨_, builtTree_of_mergeInv inv h2 (countedSymbols_length_le s)⟩

/-- BUILD of counters that are not all 0 and do not add up to more than a word holds sets a tree, one and the
same from every state with these counters (R116, R119). -/
theorem runBuild_of_counted {s : State} (hne : countedSymbols s ≠ []) (hfits : freqTotal s ≤ 0xFFFFFFFF) :
    ∃ x, BuiltTree x (countedSymbols s) ∧ ∀ t : State, t.freq = s.freq → ∃ ns root nsym,
      runBuild t = .done (setTree ns root nsym (setStage .build t)) ∧ BitVec.ofNat 9 root ≠ Config.nil ∧
      treeOf (setTree ns root nsym (setStage .build t)) = some x := by
  obtain ⟨u, hu⟩ : ∃ u, runBuild s = .done u := by
    rcases runBuild_cases s with ⟨hnil, _⟩ | ⟨_, _, e⟩ | ⟨_, hover, _⟩ | ⟨_, _, _, _, _, _, _, _, _, e⟩
    · exact absurd hnil hne
    · exact ⟨_, e⟩
    · exact absurd hfits (Nat.not_le.2 hover)
    · exact ⟨_, e⟩
  obtain ⟨x, hx, hroot, hread⟩ := builtTree_of_runBuild hu
  rcases runBuild_of_freq s.freq with ⟨_, _, e⟩ | ⟨ns, root, nsym, e⟩
  · exact nomatch hu.symm.trans (e s rfl)
  · obtain rfl := Ran.done.inj (hu.symm.trans (e s rfl))
    exact ⟨x, hx, fun t ht => ⟨ns, root, nsym, e t ht, hroot, hread _⟩⟩

/-! ### The first four stages -/

/-- The symbols that occur in the input, ascending. -/
def inputSymbols (bs : List Byte) : List Byte := allSymbols.filter fun x => bs.contains x

theorem mem_inputSymbols (bs : List Byte) (sym : Byte) : sym ∈ inputSymbols bs ↔ sym ∈ bs := by
  simp [inputSymbols, mem_allSymbols]

theorem inputSymbols_length_le (bs : List Byte) : (inputSymbols bs).length ≤ 256 :=
  (List.length_filter_le ..).trans_eq (by simp [allSymbols])

/-- The state HIST leaves of a non-empty input (40_symbol_table.md R100). -/
def counted (s : State) : State := { setStage .hist s with freq := histogram (inBytes s) }

/-- The input is a matter of `IN_MEM` and `IN_LEN`. -/
theorem inBytes_of_same {s t : State} {bs : List Byte} (h : inBytes s = bs) (hmem : t.inMem = s.inMem)
    (hlen : t.inLen = s.inLen) : inBytes t = bs := by rw [← h, inBytes, inBytes, hmem, hlen]

theorem runHist_of_input {s : State} (h : s.inLen ≠ 0) : runHist s = .done (counted s) := by
  rcases runHist_cases s with ⟨h0, _⟩ | ⟨_, e⟩
  · exact absurd h0 h
  · exact e

theorem countedSymbols_counted (s : State) : countedSymbols (counted s) = inputSymbols (inBytes s) := by
  refine List.filter_congr fun sym _ => Bool.eq_iff_iff.2 ?_
  rw [bne_iff_ne, List.contains_iff_mem]
  exact freqAt_afterHist_ne_zero_iff s sym

theorem freqTotal_counted_le (s : State) : freqTotal (counted s) ≤ 0xFFFFFFFF := by
  have htotal : freqTotal (counted s) = s.inLen.toNat := freqTotal_afterHist s
  have := s.inLen.isLt
  omega

theorem exists_mem_inBytes {s : State} (h : s.inLen ≠ 0) : ∃ sym, sym ∈ inBytes s :=
  List.exists_mem_of_length_pos (by
    rw [inBytes_length]
    exact Nat.pos_of_ne_zero fun h0 => h (BitVec.eq_of_toNat_eq h0))

/-- The state TSER leaves of the tree `x` (43_tree_serializer.md R136). -/
def serialized (x : Tree) (g : State) : State :=
  setAlpha (sideList x).reverse (setTopo (pack (emitTopology x)) (emitTopology x).length (setStage .tser g))

/-- The state GENC leaves of the tree `x` (42_code_table.md R126). -/
def withCodes (x : Tree) (s : State) : State := { clearCode (setStage .genc s) with code := codeTableOf x }

theorem treeOf_withCodes (x : Tree) (s : State) : treeOf (withCodes x s) = treeOf s := by
  rw [treeOf, treeOf]
  rfl

theorem runGenc_of_tree {s : State} {x : Tree} (hroot : s.root ≠ Config.nil) (hx : treeOf s = some x) :
    runGenc s = .done (withCodes x s) := by
  rcases runGenc_cases s with ⟨hnil, _⟩ | ⟨_, hnone, _⟩ | ⟨_, y, hy, e⟩
  · exact absurd hnil hroot
  · exact nomatch hx.symm.trans hnone
  · obtain rfl := Option.some.inj (hx.symm.trans hy)
    exact e

theorem runTser_of_tree {s : State} {x : Tree} (hroot : s.root ≠ Config.nil) (hx : treeOf s = some x)
    (hfits : serialFits x = true) : runTser s = .done (serialized x s) := by
  rcases runTser_cases s with ⟨hnil, _⟩ | ⟨_, hnofit, _⟩ | ⟨_, y, hy, _, e⟩
  · exact absurd hnil hroot
  · exact nomatch hfits.symm.trans (hnofit x hx)
  · obtain rfl := Option.some.inj (hx.symm.trans hy)
    exact e

theorem BuiltTree.counts_le {x : Tree} {bs : List Byte} (h : BuiltTree x (inputSymbols bs)) :
    treeSize x ≤ 511 ∧ treeLeaves x ≤ 256 := by
  have hle := inputSymbols_length_le bs
  rw [h.leaves, h.size]
  exact ⟨by split <;> omega, hle⟩

/-- What the first four stages of COMP leave of the input `bs`: its symbols' tree `x`, the codes of that tree,
and its Alphabet and topology (49_control.md R225). -/
structure FrontLeft (bs : List Byte) (x : Tree) (u : State) : Prop where
  tree : BuiltTree x (inputSymbols bs)
  input : inBytes u = bs
  code : u.code = codeTableOf x
  parts : ∃ g, u = serialized x g

/-- The first four stages run to their end on every non-empty input, and the tree they leave is a matter of the
input alone (R225). -/
theorem compFront_of_input {s : State} (hne : s.inLen ≠ 0) :
    ∃ x, ∀ t : State, t.inLen ≠ 0 → inBytes t = inBytes s →
      ∃ u, compFront t = .done u ∧ FrontLeft (inBytes s) x u := by
  have hcounted : countedSymbols (counted s) ≠ [] := by
    obtain ⟨sym, hsym⟩ := exists_mem_inBytes hne
    rw [countedSymbols_counted]
    exact List.ne_nil_of_mem ((mem_inputSymbols _ sym).2 hsym)
  obtain ⟨x, hx, hbuild⟩ := runBuild_of_counted hcounted (freqTotal_counted_le s)
  rw [countedSymbols_counted] at hx
  refine ⟨x, fun t ht hin => ?_⟩
  obtain ⟨ns, root, nsym, hdone, hroot, htree⟩ := hbuild (counted t) (congrArg histogram hin)
  obtain ⟨hsize, hleaves⟩ := hx.counts_le
  have hinput : inBytes (serialized x (withCodes x (setTree ns root nsym (setStage .build (counted t))))) =
      inBytes s := inBytes_of_same hin (by simp [serialized, withCodes, counted])
    (by simp [serialized, withCodes, counted])
  refine ⟨_, ?_, hx, hinput, rfl, _, rfl⟩
  rw [compFront, runHist_of_input ht, andThen_done, hdone, andThen_done, runGenc_of_tree hroot htree,
    andThen_done]
  exact runTser_of_tree hroot ((treeOf_withCodes x _).trans htree) (serialFits_of_counts hsize hleaves)

namespace FrontLeft

variable {bs : List Byte} {x : Tree} {u : State} (h : FrontLeft bs x u)
include h

theorem alphaLen : u.alphaLen.toNat = treeLeaves x := by
  obtain ⟨g, rfl⟩ := h.parts
  exact alphaLen_afterTser g h.tree.counts_le.2

theorem topoBits : u.topoBits.toNat = treeSize x := by
  obtain ⟨g, rfl⟩ := h.parts
  exact topoBits_afterTser g h.tree.counts_le.1

theorem alphaBytes : alphaBytes u = (sideList x).reverse := by
  obtain ⟨g, rfl⟩ := h.parts
  exact alphaBytes_afterTser g h.tree.counts_le.2

theorem topoBytes : topoBytes u = pack (emitTopology x) := by
  obtain ⟨g, rfl⟩ := h.parts
  exact topoBytes_afterTser g h.tree.counts_le.1

theorem topoSeq : topoSeq u = emitTopology x := by
  obtain ⟨g, rfl⟩ := h.parts
  exact topoSeq_afterTser g h.tree.counts_le.1

/-- The topology is padded with 0 (10_state.md R47). -/
theorem paddingClear : PaddingClear u.topoMem u.topoBits.toNat := by
  rw [h.topoBits, ← emitTopology_length]
  obtain ⟨g, rfl⟩ := h.parts
  exact paddingClear_pack _ _

/-- Every byte of the input has a code: its symbol is one of a Leaf (42_code_table.md R125). -/
theorem codeValid : ∀ y ∈ inBytes u, codeValid u y = true := fun y hy => by
  have hmem : y ∈ sideList x := h.tree.symbols.mem_iff.2 ((mem_inputSymbols bs y).2 (h.input ▸ hy))
  obtain ⟨p, hp⟩ := (mem_sideList_iff x y).1 hmem
  refine Option.isSome_iff_ne_none.2 fun hnone => ?_
  rw [codeAt] at hnone
  simp only [h.code] at hnone
  exact (codeTableOf_eq_none x y).1 hnone p hp

end FrontLeft

/-! ### ENC and ASM after them -/

/-- With a code for every byte the loop of ENC pushes all codes or runs out of room (46_encoder.md R176,
R178). -/
theorem encodeLoop_of_valid (cap : Nat) (s : State) (bs : List Byte) (i : Nat) (sofar : BitSeq)
    (hvalid : ∀ y ∈ bs, codeValid s y = true) :
    encodeLoop cap s.code i bs sofar = .bits (sofar ++ codesOf s bs) ∨
      encodeLoop cap s.code i bs sofar = .raise .capacityExceeded 2 := by
  induction bs generalizing i sofar with
  | nil => exact .inl (congrArg Encoded.bits (List.append_nil sofar).symm)
  | cons y ys ih =>
    obtain ⟨hy, hys⟩ := List.forall_mem_cons.1 hvalid
    obtain ⟨c, hc⟩ := Option.isSome_iff_exists.1 hy
    have hcode : s.code[y.toNat]'y.isLt = some c := hc
    have hpush : sofar ++ codesOf s (y :: ys) = (sofar ++ c) ++ codesOf s ys := by
      simp [codesOf, hc]
    rw [encodeLoop, hcode, hpush]
    dsimp only
    split
    · exact .inr rfl
    · exact ih (i + 1) (sofar ++ c) hys

/-- The state ENC leaves when it pushes the codes of the whole input (46_encoder.md R175). -/
def withPayload (u : State) : State :=
  setPay (pack (codesOf u (inBytes u))) (codesOf u (inBytes u)).length (setStage .enc u)

theorem runEnc_of_fits {u : State} (hvalid : ∀ y ∈ inBytes u, codeValid u y = true)
    (hfits : codeTotal u (inBytes u) ≤ 8 * Config.bufCap) : runEnc u = .done (withPayload u) := by
  have hloop := encodeLoop_inBytes_append (List.append_nil _).symm hvalid hfits
  rcases runEnc_cases u with ⟨_, _, hraise, _⟩ | ⟨_, hbits, _, e⟩
  · exact nomatch hloop.symm.trans hraise
  · obtain rfl := Encoded.bits.inj (hloop.symm.trans hbits)
    exact e

theorem runEnc_of_exceeds {u : State} (hvalid : ∀ y ∈ inBytes u, codeValid u y = true)
    (hover : 8 * Config.bufCap < codeTotal u (inBytes u)) :
    runEnc u = .raised .capacityExceeded 2 (dropPay (setStage .enc u)) := by
  have hloop := encodeLoop_of_valid Config.bufCap u (inBytes u) 0 [] hvalid
  rcases runEnc_cases u with ⟨_, _, hraise, e⟩ | ⟨b, hbits, hle, _⟩ <;>
    rcases hloop with hloop | hloop
  · exact nomatch hloop.symm.trans hraise
  · obtain ⟨rfl, rfl⟩ := Encoded.raise.inj (hloop.symm.trans hraise)
    exact e
  · obtain rfl := Encoded.bits.inj (hloop.symm.trans hbits)
    rw [List.nil_append, codesOf_length] at hle
    exact absurd hover (Nat.not_lt.2 hle)
  · exact nomatch hloop.symm.trans hbits

/-- The container of the state ENC leaves, part by part (48_container.md R200). -/
theorem container_withPayload {u : State} (hfits : codeTotal u (inBytes u) ≤ 8 * Config.bufCap) :
    containerSize (withPayload u) = 12 + u.alphaLen.toNat + ceil8 u.topoBits.toNat
        + ceil8 (codeTotal u (inBytes u)) ∧
    containerOf (withPayload u) = be32 (BitVec.ofNat 32 u.alphaLen.toNat)
      ++ be32 (BitVec.ofNat 32 u.topoBits.toNat) ++ be32 (BitVec.ofNat 32 (codeTotal u (inBytes u)))
      ++ alphaBytes u ++ topoBytes u ++ pack (codesOf u (inBytes u)) := by
  have hword := codesOf_length_lt hfits
  have hbits : (withPayload u).payBits.toNat = codeTotal u (inBytes u) :=
    (payBits_setPay_pack hword (setStage .enc u)).trans (codesOf_length u _)
  have hbytes : payBytes (withPayload u) = pack (codesOf u (inBytes u)) := payBytes_setPay_pack hword _
  refine ⟨by rw [containerSize, hbits]; rfl, ?_⟩
  rw [containerOf_eq, hbytes, withPayload, setPay_payBits, codesOf_length]
  rfl

/-- The ways COMP can end once its first four stages have left a code for every byte (49_control.md R225). -/
theorem runComp_ends {s u : State} (hfront : compFront s = .done u)
    (hvalid : ∀ y ∈ inBytes u, codeValid u y = true) :
    (codeTotal u (inBytes u) ≤ 8 * Config.bufCap ∧ containerSize (withPayload u) ≤ Config.bufCap ∧
      runComp s = .done (setOut (containerOf (withPayload u)) (setStage .asm (withPayload u)))) ∨
    (8 * Config.bufCap < codeTotal u (inBytes u) ∧
      runComp s = .raised .capacityExceeded 2 (dropOut (dropPay (setStage .enc u)))) ∨
    (Config.bufCap < containerSize (withPayload u) ∧
      runComp s = .raised .capacityExceeded 3 (dropOut (dropOut (setStage .asm (withPayload u))))) := by
  rw [runComp, hfront, andThen_done]
  by_cases hpay : codeTotal u (inBytes u) ≤ 8 * Config.bufCap
  · rw [runEnc_of_fits hvalid hpay, andThen_done]
    by_cases hsize : containerSize (withPayload u) ≤ Config.bufCap
    · exact .inl ⟨hpay, hsize, by rw [runAsm_of_fits hsize, dropOutOnRaise_done]⟩
    · rw [Nat.not_le] at hsize
      exact .inr (.inr ⟨hsize, by rw [runAsm_of_exceeds hsize, dropOutOnRaise_raised]⟩)
  · rw [Nat.not_le] at hpay
    exact .inr (.inl ⟨hpay, by rw [runEnc_of_exceeds hvalid hpay, andThen_raised, dropOutOnRaise_raised]⟩)

/-- A payload whose container fits the output memory fits the payload memory. -/
theorem payload_fits_of_container_fits {a t p : Nat} (h : 12 + a + t + ceil8 p ≤ Config.bufCap) :
    p ≤ 8 * Config.bufCap := by
  have := (ceil8_bounds p).1
  omega

/-- COMP completes when the container fits, with the container as its output (49_control.md R225). -/
theorem exec_comp_of_fits {s u : State} (hfront : compFront s = .done u)
    (hvalid : ∀ y ∈ inBytes u, codeValid u y = true)
    (hsize : 12 + u.alphaLen.toNat + ceil8 u.topoBits.toNat + ceil8 (codeTotal u (inBytes u)) ≤
      Config.bufCap) :
    ∃ t, exec .comp s = .next t ∧ Completed false 0x15 t ∧ outBytes t = containerOf (withPayload u) ∧
      t.outLen.toNat = containerSize (withPayload u) := by
  have hpay := payload_fits_of_container_fits hsize
  rw [← (container_withPayload hpay).1] at hsize
  rcases runComp_ends hfront hvalid with ⟨_, _, e⟩ | ⟨hover, _⟩ | ⟨hover, _⟩
  · obtain ⟨hout, hlen⟩ := output_container hsize (setStage .asm (withPayload u))
    exact ⟨_, exec_of_done (i := .comp) (by decide) e, ⟨rfl, rfl, rfl, rfl, rfl⟩, hout, hlen⟩
  · exact absurd hpay (Nat.not_le.2 hover)
  · exact absurd hsize (Nat.not_le.2 hover)

/-- Settles O48: the stages before ENC leave a tree of the input's symbols with its codes, and ENC and ASM then
ask for room only. -/
theorem compCompletes : Obligations.CompCompletes := by
  intro s hne
  obtain ⟨x, hfront⟩ := compFront_of_input hne
  obtain ⟨u, hdone, hu⟩ := hfront s hne rfl
  have halpha : u.alphaLen.toNat = (inputSymbols (inBytes s)).length := hu.alphaLen.trans hu.tree.leaves
  refine ⟨u, hdone, halpha, ?_, hu.input ▸ hu.codeValid, fun hfits => ?_⟩
  · have hone : u.alphaLen = 1 ↔ (inputSymbols (inBytes s)).length = 1 := by
      rw [← halpha]
      exact BitVec.toNat_inj.symm
    rw [halpha, hu.topoBits, hu.tree.size]
    simp only [hone]
  · rw [← hu.input] at hfits ⊢
    obtain ⟨hlen, hbytes⟩ := container_withPayload (payload_fits_of_container_fits hfits)
    obtain ⟨t, hexec, hcompleted, hout, houtLen⟩ := exec_comp_of_fits hdone hu.codeValid hfits
    exact ⟨t, hexec, hcompleted, houtLen.trans hlen, hout.trans hbytes⟩

/-! ### The faults of COMP -/

theorem compFront_of_empty {s : State} (h : s.inLen = 0) :
    compFront s = .raised .emptyInput 0 (clearFreq (setStage .hist s)) := by
  rcases runHist_cases s with ⟨_, e⟩ | ⟨hne, _⟩
  · rw [compFront, e, andThen_raised, andThen_raised, andThen_raised]
  · exact absurd h hne

theorem runComp_of_empty {s : State} (h : s.inLen = 0) :
    runComp s = .raised .emptyInput 0 (dropOut (clearFreq (setStage .hist s))) := by
  rw [runComp, compFront_of_empty h, andThen_raised, andThen_raised, dropOutOnRaise_raised]

/-- Settles O49: HIST raises on the empty input, and on any other only ENC and ASM can. -/
theorem compFaults : Obligations.CompFaults := by
  intro s
  by_cases hne : s.inLen = 0
  · exact ⟨_, exec_of_raised (i := .comp) (runComp_of_empty hne), fun _ => ⟨⟨rfl, rfl, rfl, rfl, rfl⟩, rfl⟩,
      fun h => absurd hne h⟩
  · obtain ⟨x, hfront⟩ := compFront_of_input hne
    obtain ⟨u, hdone, hu⟩ := hfront s hne rfl
    rcases runComp_ends hdone hu.codeValid with ⟨_, _, e⟩ | ⟨_, e⟩ | ⟨_, e⟩
    · exact ⟨_, exec_of_done (i := .comp) (by decide) e, fun h => absurd h hne,
        fun _ => .inl ⟨rfl, rfl, rfl, rfl, rfl⟩⟩
    · exact ⟨_, exec_of_raised (i := .comp) e, fun h => absurd h hne,
        fun _ => .inr ⟨rfl, .inl ⟨rfl, rfl, rfl, rfl, rfl⟩⟩⟩
    · exact ⟨_, exec_of_raised (i := .comp) e, fun h => absurd h hne,
        fun _ => .inr ⟨rfl, .inr ⟨rfl, rfl, rfl, rfl, rfl⟩⟩⟩

/-! ### One symbol -/

theorem inputSymbols_replicate {n : Nat} (hn : 1 ≤ n) (sym : Byte) :
    (inputSymbols (List.replicate n sym)).Perm [sym] := by
  refine (List.perm_ext_iff_of_nodup (allSymbols_nodup.filter _) (List.nodup_singleton sym)).2 fun y => ?_
  exact (mem_inputSymbols _ y).trans (List.mem_replicate.trans
    ((and_iff_right (Nat.one_le_iff_ne_zero.1 hn)).trans List.mem_singleton.symm))

/-- The code of the wrapper's symbol is the bit 0 (42_code_table.md R127). -/
theorem codeAt_of_wrapper {u : State} {sym : Byte} (h : u.code = codeTableOf (.internal (.leaf sym) .absent)) :
    codeAt u sym = some [false] := by
  rw [codeAt]
  simp only [h]
  rw [codeTableOf_getElem]
  simp [walkCodes]

theorem codesOf_replicate {u : State} {sym : Byte} (h : codeAt u sym = some [false]) (n : Nat) :
    codesOf u (List.replicate n sym) = List.replicate n false := by
  simp [codesOf, List.flatMap_replicate, h]

theorem pack_replicate_false (n : Nat) : pack (List.replicate n false) = List.replicate (ceil8 n) 0 := by
  have hlen : (pack (List.replicate n false)).length = ceil8 n := by rw [pack_length, List.length_replicate]
  refine List.ext_getElem (by rw [hlen, List.length_replicate]) fun j hj _ => ?_
  refine byte_eq_of_stream_bits fun i hi => ?_
  rw [getLsbD_getElem_pack _ hj hi, List.getElem_replicate]
  simp

/-- Settles O52: the tree is the wrapper, its topology `1 0`, and every code the bit 0. -/
theorem singleSymbolContainer : Obligations.SingleSymbolContainer := by
  intro s n sym hn hin hfits
  have hne : s.inLen ≠ 0 := by
    intro h0
    have hlen := inBytes_length s
    rw [hin, List.length_replicate, h0] at hlen
    exact absurd hn (by simp [hlen])
  obtain ⟨x, hfront⟩ := compFront_of_input hne
  obtain ⟨u, hdone, hu⟩ := hfront s hne rfl
  rw [hin] at hu
  obtain rfl := hu.tree.eq_wrapper (inputSymbols_replicate hn sym)
  have hcodes : codesOf u (inBytes u) = List.replicate n false := by
    rw [hu.input, codesOf_replicate (codeAt_of_wrapper hu.code)]
  have htotal : codeTotal u (inBytes u) = n := by rw [← codesOf_length, hcodes, List.length_replicate]
  have hroom : 12 + u.alphaLen.toNat + ceil8 u.topoBits.toNat + ceil8 (codeTotal u (inBytes u)) ≤
      Config.bufCap := by
    rw [hu.alphaLen, hu.topoBits, htotal]
    simpa [treeLeaves, treeSize, show ceil8 2 = 1 from rfl] using hfits
  obtain ⟨t, hexec, hcompleted, hout, _⟩ := exec_comp_of_fits hdone hu.codeValid hroom
  refine ⟨t, hexec, hcompleted, hout.trans ?_⟩
  rw [(container_withPayload (payload_fits_of_container_fits hroom)).2, hu.alphaLen, hu.topoBits, htotal,
    hu.alphaBytes, hu.topoBytes, hcodes, pack_replicate_false]
  change be32 1 ++ be32 2 ++ be32 (BitVec.ofNat 32 n) ++ [sym] ++ [0x80] ++ _ = _
  rw [List.append_assoc _ [sym]]
  rfl

end Sys2Proof.Proofs
end

section
/-! Proofs about the round trip: DECOMP of the container COMP wrote gives the input back. -/

namespace Sys2Proof.Proofs

open Sys2Proof Sys2Proof.Machine Sys2Proof.Safety

/-! ### Bits from bytes -/

/-- The first bits of a memory are those of the bytes that hold them (10_state.md R47). -/
theorem unpack_eq_of_memBytes_eq {m m' : Memory} {n : Nat}
    (h : memBytes m (ceil8 n) = memBytes m' (ceil8 n)) : unpack m n = unpack m' n := by
  refine List.ext_getElem (by simp) fun k hk _ => ?_
  rw [unpack_length] at hk
  have hbyte : k / 8 < ceil8 n := by
    have := (ceil8_bounds n).1
    omega
  have hread : memRead m (k / 8) = memRead m' (k / 8) := by
    rw [← memBytes_getElem m (ceil8 n) (k / 8) (by simpa using hbyte),
      ← memBytes_getElem m' (ceil8 n) (k / 8) (by simpa using hbyte)]
    simp only [h]
  rw [unpack_getElem, unpack_getElem, getBit, getBit, hread]

theorem SameParts.topoSeq {s u : State} (h : SameParts s u) : topoSeq u = topoSeq s := by
  have hbytes := h.topoBytes
  rw [Machine.topoBytes, Machine.topoBytes, h.topoBits] at hbytes
  rw [Machine.topoSeq, Machine.topoSeq, h.topoBits, unpack_eq_of_memBytes_eq hbytes]

theorem SameParts.paySeq {s u : State} (h : SameParts s u) : paySeq u = paySeq s := by
  have hbytes := h.payBytes
  rw [Machine.payBytes, Machine.payBytes, h.payBits] at hbytes
  rw [Machine.paySeq, Machine.paySeq, h.payBits, unpack_eq_of_memBytes_eq hbytes]

/-! ### What COMP leaves in the container -/

/-- The topology and the payload in the container are padded with 0 (10_state.md R47). -/
theorem buffersOk_withPayload {bs : List Byte} {x : Tree} {u : State} (hu : FrontLeft bs x u)
    (hfits : codeTotal u (inBytes u) ≤ 8 * Config.bufCap) : BuffersOk (withPayload u) := by
  have hbits : (withPayload u).payBits.toNat = (codesOf u (inBytes u)).length :=
    payBits_setPay_pack (codesOf_length_lt hfits) _
  refine ⟨hu.paddingClear, ?_⟩
  rw [hbits]
  exact paddingClear_pack _ _

/-- A COMP that leaves the block idle wrote the container (49_control.md R225). -/
theorem container_of_exec_comp {s t u : State} (hfront : compFront s = .done u)
    (hvalid : ∀ y ∈ inBytes u, codeValid u y = true) (h : exec .comp s = .next t) (hidle : t.fsm = .idle) :
    codeTotal u (inBytes u) ≤ 8 * Config.bufCap ∧ outBytes t = containerOf (withPayload u) := by
  rcases runComp_ends hfront hvalid with ⟨hpay, hsize, e⟩ | ⟨_, e⟩ | ⟨_, e⟩
  · obtain rfl := Host.Outcome.next.inj ((exec_of_done (i := .comp) (by decide) e).symm.trans h)
    exact ⟨hpay, (output_container hsize (setStage .asm (withPayload u))).1⟩
  all_goals
    obtain rfl := Host.Outcome.next.inj ((exec_of_raised (i := .comp) e).symm.trans h)
    cases hidle

theorem inLen_ne_zero_of_exec_comp {s t : State} (h : exec .comp s = .next t) (hidle : t.fsm = .idle) :
    s.inLen ≠ 0 := by
  intro h0
  obtain rfl := Host.Outcome.next.inj ((exec_of_raised (i := .comp) (runComp_of_empty h0)).symm.trans h)
  cases hidle

/-! ### The codes as paths -/

/-- The code of each byte with the byte. -/
def codedBytes (u : State) (bs : List Byte) : List (BitSeq × Byte) := bs.map fun b => ((codeAt u b).getD [], b)

theorem codesOf_eq_flatMap (u : State) (bs : List Byte) :
    codesOf u bs = (codedBytes u bs).flatMap fun e => e.1 := by
  rw [codedBytes, List.flatMap_map, codesOf]

theorem map_codedBytes (u : State) (bs : List Byte) : (codedBytes u bs).map (fun e => e.2) = bs := by
  rw [codedBytes, List.map_map]
  exact List.map_id bs

/-- Each code is the nonempty path to a Leaf of its byte: the root is an Internal node (42_code_table.md
R125). -/
theorem leafAt_codedBytes {bs : List Byte} {x : Tree} {u : State} (hu : FrontLeft bs x u) :
    ∀ e ∈ codedBytes u (inBytes u), leafAt x e.1 e.2 ∧ e.1 ≠ [] := by
  refine List.forall_mem_map.2 fun y hy => ?_
  obtain ⟨c, hc⟩ := Option.isSome_iff_exists.1 (hu.codeValid y hy)
  have hpath : leafAt x c y := by
    rw [codeAt] at hc
    simp only [hu.code] at hc
    exact ((codeTableOf_eq_some x y c).1 hc).1
  simp only [hc, Option.getD_some]
  refine ⟨hpath, fun hnil => ?_⟩
  obtain ⟨l, r, rfl⟩ := hu.tree.inner
  rw [hnil] at hpath
  exact hpath

/-- Settles O51: PARSE gives back topology, Alphabet and payload as COMP left them, the payload is the input's
codes, and these are whole codes of the tree that the topology and the Alphabet stand for. -/
theorem roundTrip : Obligations.RoundTrip := by
  intro s t v hreg h hidle hv
  have hne := inLen_ne_zero_of_exec_comp h hidle
  obtain ⟨x, hfront⟩ := compFront_of_input hne
  obtain ⟨u, hdone, hu⟩ := hfront s hne rfl
  obtain ⟨hfits, hout⟩ := container_of_exec_comp hdone hu.codeValid h hidle
  obtain ⟨hsize, hleaves⟩ := hu.tree.counts_le
  rw [hout] at hv
  obtain ⟨p, hparse, _, hsame⟩ := runParse_of_container (s := withPayload u) (hu.alphaLen.trans_le hleaves)
    (hu.topoBits.trans_le hsize) (buffersOk_withPayload hu hfits) hv
  have hpay : paySeq p = (codedBytes u (inBytes u)).flatMap fun e => e.1 := by
    rw [hsame.paySeq, ← codesOf_eq_flatMap]
    exact paySeq_setPay_pack (codesOf_length_lt hfits) _
  have hlen : (codedBytes u (inBytes u)).length = s.inLen.toNat := by
    rw [codedBytes, List.length_map, hu.input, inBytes_length]
  obtain ⟨w, hexec, hcompleted, hwlen, hwout, _⟩ := decompCompletes v p x (codedBytes u (inBytes u)) hparse
    hu.tree.proper (hsame.topoSeq.trans hu.topoSeq) (hsame.alphaBytes.trans hu.alphaBytes)
    (leafAt_codedBytes hu) hpay (hlen.trans_le hreg.1)
  refine ⟨w, hexec, hcompleted, hwlen.trans hlen, hwout.trans ?_⟩
  rw [map_codedBytes, hu.input]

end Sys2Proof.Proofs
end

section
/-! Proofs about acceptance and faults: which words the host's write to `CMD` makes pending, what a recorded
fault outlasts, what a fault leaves invalid, and that no step stops the machine. -/

namespace Sys2Proof.Proofs

open Sys2Proof Sys2Proof.Machine Sys2Proof.Safety

/-! ### Acceptance -/

/-- Host address 0 is the register `CMD` (20_memory.md R61, 10_state.md R23). -/
theorem hostWrite_cmd {s : State} (hb : s.fsm ≠ .busy) (w : Word) :
    hostWrite 0x00000000 w s = acceptCommand w s :=
  hostWrite_register hb 0x00000000 w (by decide)

/-- Settles O6, control state by control state. -/
theorem acceptanceByControlState : Obligations.AcceptanceByControlState := by
  intro s w
  refine ⟨fun hf => ?_, fun hf hw => ?_, fun hf hw => ?_, fun hf => hostWrite_of_busy hf _ _⟩ <;>
    rw [hostWrite_cmd (by simp [hf]), acceptCommand, hf]
  · exact if_pos hw
  · exact if_neg hw

/-- In FAULTED a host write accepts the CLR word or leaves the record of the fault (49_control.md R221,
60_exceptions.md R264). -/
theorem hostWrite_of_faulted {s : State} (hf : s.fsm = .faulted) (a v : Word) :
    (v = encode .clr ∧ (hostWrite a v s).fsm = .busy ∧ (hostWrite a v s).pending = v) ∨
    ((hostWrite a v s).fsm = .faulted ∧ (hostWrite a v s).errCode = s.errCode ∧
      (hostWrite a v s).errInfo = s.errInfo ∧ (hostWrite a v s).stage = s.stage) := by
  rcases hostWrite_cases a v s with e | ⟨hidle, _⟩ | ⟨_, hv, e⟩ | ⟨_, _, e⟩ | ⟨_, _, _, e⟩ | ⟨_, _, _, e⟩
  · exact .inr (by rw [e]; exact ⟨hf, rfl, rfl, rfl⟩)
  · exact nomatch hf.symm.trans hidle
  · exact .inl ⟨hv, by rw [e], by rw [e]⟩
  all_goals exact .inr (by rw [e]; exact ⟨hf, rfl, rfl, rfl⟩)

/-- Settles O7, turn by turn: only an accepted CLR and the reset event touch the record. -/
theorem faultLeftByClrOrReset : Obligations.FaultLeftByClrOrReset := by
  intro s t hf h
  have hb : s.fsm ≠ .busy := by simp [hf]
  cases ha : s.agenda with
  | nil =>
    rw [step_of_agenda_nil ha, blockTurn_of_not_busy hb] at h
    obtain rfl := Host.Outcome.next.inj h
    exact .inl ⟨hf, rfl, rfl, rfl⟩
  | cons x rest =>
    rw [step_of_agenda_cons ha] at h
    cases x with
    | write a v =>
      obtain rfl := Host.Outcome.next.inj h
      rcases hostWrite_of_faulted (s := { s with agenda := rest }) hf a v with ⟨rfl, hbusy, hpending⟩ | hkept
      · exact .inr (.inl ⟨a, rest, rfl, hbusy, hpending⟩)
      · exact .inl hkept
    | read a =>
      obtain rfl := Host.Outcome.next.inj h
      obtain ⟨v, n, e⟩ := hostRead_frame a { s with agenda := rest }
      rw [e]
      exact .inl ⟨hf, rfl, rfl, rfl⟩
    | block =>
      rw [takeTurn, blockTurn_of_not_busy (by simpa using hb)] at h
      obtain rfl := Host.Outcome.next.inj h
      exact .inl ⟨hf, rfl, rfl, rfl⟩
    | reset => exact .inr (.inr ⟨rest, rfl⟩)

/-! ### What a raise leaves -/

/-- Where the stage raises, the state it leaves has the property. -/
def Raises (P : State → Prop) : Ran → Prop
  | .raised _ _ s => P s
  | .done _ => True
  | .halted _ => True

/-- A raise of two stages in order is one of the first's or one of the second's. -/
theorem andThen_raises {P : State → Prop} {r : Ran} {f : State → Ran} (hr : Raises P r)
    (hf : ∀ s, Raises P (f s)) : Raises P (andThen r f) := by
  cases r with
  | done s => exact hf s
  | raised k info s => exact hr
  | halted x => exact trivial

/-- A raise in a flow leaves no output beside what the stage left invalid (49_control.md R225, R226). -/
theorem dropOutOnRaise_raises {P : State → Prop} {r : Ran} (hr : Raises P r)
    (hd : ∀ s, P s → P (dropOut s)) : Raises (fun s => s.outLen = 0 ∧ P s) (dropOutOnRaise r) := by
  cases r with
  | done s => exact trivial
  | raised k info s => exact ⟨rfl, hd s hr⟩
  | halted x => exact trivial

/-- A command that faulted has taken a raise of its rule (60_exceptions.md R260). -/
theorem exec_raises {P : State → Prop} {i : Instr} {s t : State} (hf : t.fsm = .faulted)
    (h : exec i s = .next t) (hr : Raises P (ruleOf i s))
    (he : ∀ k info u, P u → P (enterFault k info u) := by exact fun _ _ _ hu => hu) : P t := by
  rw [exec_eq_complete] at h
  rcases complete_eq_next h with ⟨u, _, rfl⟩ | ⟨k, info, u, hu, rfl⟩
  · cases hf
  · rw [hu] at hr
    exact he k info u hr

section Raises

variable {P : State → Prop} {s : State}

/-! Each stage raises from one state only: the one it invalidates its products in (R261). -/

theorem runHist_raises (h : P (clearFreq (setStage .hist s))) : Raises P (runHist s) := by
  rcases runHist_cases s with ⟨_, e⟩ | ⟨_, e⟩ <;> rw [e]
  · exact h
  · exact trivial

theorem runBuild_raises (h : P (dropTree (setStage .build s))) : Raises P (runBuild s) := by
  rcases runBuild_ends s with ⟨_, _, _, e⟩ | ⟨_, _, e⟩ | ⟨_, _, _, e⟩ <;> rw [e]
  · exact h
  all_goals exact trivial

theorem runGenc_raises (h : P (clearCode (setStage .genc s))) : Raises P (runGenc s) := by
  rcases runGenc_cases s with ⟨_, e⟩ | ⟨_, _, e⟩ | ⟨_, _, _, e⟩ <;> rw [e]
  · exact h
  all_goals exact trivial

theorem runTser_raises (h : P (dropTopo (dropAlpha (setStage .tser s)))) : Raises P (runTser s) := by
  rcases runTser_cases s with ⟨_, e⟩ | ⟨_, _, e⟩ | ⟨_, _, _, _, e⟩ <;> rw [e]
  · exact h
  all_goals exact trivial

theorem runEnc_raises (h : P (dropPay (setStage .enc s))) : Raises P (runEnc s) := by
  rcases runEnc_cases s with ⟨_, _, _, e⟩ | ⟨_, _, _, e⟩ <;> rw [e]
  · exact h
  · exact trivial

theorem runAsm_raises (h : P (dropOut (setStage .asm s))) : Raises P (runAsm s) := by
  rcases runAsm_cases s with ⟨_, e⟩ | ⟨_, e⟩ <;> rw [e]
  · exact trivial
  · exact h

theorem runParse_raises (h : P (dropParsed (setStage .parse s))) : Raises P (runParse s) := by
  rcases runParse_cases s with ⟨_, e⟩ | ⟨_, _, _, _, _, _, _, _, _, e⟩ <;> rw [e]
  · exact h
  · exact trivial

theorem runTdes_raises (h : P (dropTree (setStage .tdes s))) : Raises P (runTdes s) := by
  rcases runTdes_cases s with ⟨_, _, e⟩ | ⟨_, _, e⟩ | ⟨_, _, _, _, _, e⟩ <;> rw [e]
  · exact h
  all_goals exact trivial

theorem runDec_raises (h : P (dropOut (setStage .dec s))) : Raises P (runDec s) := by
  rcases runDec_cases s with ⟨_, e⟩ | ⟨_, _, _, _, e⟩ | ⟨_, _, _, _, e⟩ <;> rw [e]
  · exact h
  · exact h
  · exact trivial

end Raises

/-! ### What a fault of a flow leaves invalid -/

/-- What a stage of COMP that raised, told by `STAGE`, leaves invalid (60_exceptions.md R261). -/
def CompInvalid (u : State) : Prop :=
  (u.stage = 0x10 → ∀ sym, freqAt u sym = 0) ∧ (u.stage = 0x14 → u.payBits = 0)

/-- No parts of a container (48_container.md R202). -/
def NoParts (u : State) : Prop := u.alphaLen = 0 ∧ u.topoBits = 0 ∧ u.payBits = 0

/-- No tree (10_state.md R32). -/
def NoTree (u : State) : Prop := u.root = Config.nil ∧ u.nodeCnt = 0 ∧ u.nsym = 0

/-- What a stage of DECOMP that raised leaves invalid (R261). -/
def DecompInvalid (u : State) : Prop := (u.stage = 0x20 → NoParts u) ∧ (u.stage = 0x21 → NoTree u)

theorem runComp_raises (s : State) : Raises (fun u => u.outLen = 0 ∧ CompInvalid u) (runComp s) := by
  have hother : ∀ u : State, u.stage ≠ 0x10 → u.stage ≠ 0x14 → CompInvalid u := fun _ h10 h14 =>
    ⟨fun h => absurd h h10, fun h => absurd h h14⟩
  have hhist : Raises CompInvalid (runHist s) := runHist_raises ⟨fun _ => freqAt_clearFreq _, nofun⟩
  have hbuild : ∀ u, Raises CompInvalid (runBuild u) := fun u => runBuild_raises (hother _ nofun nofun)
  have hgenc : ∀ u, Raises CompInvalid (runGenc u) := fun u => runGenc_raises (hother _ nofun nofun)
  have htser : ∀ u, Raises CompInvalid (runTser u) := fun u => runTser_raises (hother _ nofun nofun)
  have henc : ∀ u, Raises CompInvalid (runEnc u) := fun u => runEnc_raises ⟨nofun, fun _ => rfl⟩
  have hasm : ∀ u, Raises CompInvalid (runAsm u) := fun u => runAsm_raises (hother _ nofun nofun)
  exact dropOutOnRaise_raises (andThen_raises (andThen_raises (andThen_raises (andThen_raises
    (andThen_raises hhist hbuild) hgenc) htser) henc) hasm) fun _ hu => hu

theorem runDecomp_raises (s : State) : Raises (fun u => u.outLen = 0 ∧ DecompInvalid u) (runDecomp s) := by
  have hparse : Raises DecompInvalid (runParse s) := runParse_raises ⟨fun _ => ⟨rfl, rfl, rfl⟩, nofun⟩
  have htdes : ∀ u, Raises DecompInvalid (runTdes u) := fun u =>
    runTdes_raises ⟨nofun, fun _ => ⟨rfl, rfl, rfl⟩⟩
  have hdec : ∀ u, Raises DecompInvalid (runDec u) := fun u => runDec_raises ⟨nofun, nofun⟩
  exact dropOutOnRaise_raises (andThen_raises (andThen_raises hparse htdes) hdec) fun _ hu => hu

/-- Settles O16: a stage raises only after it has invalidated its products, and fault entry keeps them so. -/
theorem faultInvalidates : Obligations.FaultInvalidates := fun s _ hf =>
  have tree {u : State} {i : Instr} : NoTree (dropTree (setStage i u)) := ⟨rfl, rfl, rfl⟩
  ⟨fun h => exec_raises hf h (runHist_raises (P := fun u => ∀ sym, freqAt u sym = 0) (freqAt_clearFreq _)),
    fun h => exec_raises hf h (runBuild_raises tree), fun h => exec_raises hf h (runTdes_raises tree),
    fun h => exec_raises hf h
      (runGenc_raises (P := fun u => ∀ sym, codeValid u sym = false) (codeValid_of_code_empty rfl)),
    fun h => exec_raises hf h (runTser_raises (P := fun u => u.alphaLen = 0 ∧ u.topoBits = 0) ⟨rfl, rfl⟩),
    fun h => exec_raises hf h (runEnc_raises (P := fun u => u.payBits = 0) rfl),
    fun h => exec_raises hf h (runAsm_raises (P := fun u => u.outLen = 0) rfl),
    fun h => exec_raises hf h (runDec_raises (P := fun u => u.outLen = 0) rfl),
    fun h => exec_raises hf h (runParse_raises (P := NoParts) ⟨rfl, rfl, rfl⟩),
    fun h => exec_raises hf h (runComp_raises s), fun h => exec_raises hf h (runDecomp_raises s)⟩

/-! ### No stop -/

/-- The end of the rule is no stop of the model. -/
def GoesThrough : Ran → Prop
  | .done _ => True
  | .raised _ _ _ => True
  | .halted _ => False

theorem andThen_goesThrough {r : Ran} {f : State → Ran} (hr : GoesThrough r)
    (hf : ∀ s, GoesThrough (f s)) : GoesThrough (andThen r f) := by
  cases r with
  | done s => exact hf s
  | raised k info s => exact trivial
  | halted x => exact hr

theorem dropOutOnRaise_goesThrough {r : Ran} (hr : GoesThrough r) : GoesThrough (dropOutOnRaise r) := by
  cases r with
  | done s => exact trivial
  | raised k info s => exact trivial
  | halted x => exact hr

theorem runHist_goesThrough (s : State) : GoesThrough (runHist s) := by
  rcases runHist_cases s with ⟨_, e⟩ | ⟨_, e⟩ <;> rw [e] <;> exact trivial

theorem runBuild_goesThrough (s : State) : GoesThrough (runBuild s) := by
  rcases runBuild_ends s with ⟨_, _, _, e⟩ | ⟨_, _, e⟩ | ⟨_, _, _, e⟩ <;> rw [e] <;> exact trivial

theorem runEnc_goesThrough (s : State) : GoesThrough (runEnc s) := by
  rcases runEnc_cases s with ⟨_, _, _, e⟩ | ⟨_, _, _, e⟩ <;> rw [e] <;> exact trivial

theorem runAsm_goesThrough (s : State) : GoesThrough (runAsm s) := by
  rcases runAsm_cases s with ⟨_, e⟩ | ⟨_, e⟩ <;> rw [e] <;> exact trivial

theorem runParse_goesThrough (s : State) : GoesThrough (runParse s) := by
  rcases runParse_cases s with ⟨_, e⟩ | ⟨_, _, _, _, _, _, _, _, _, e⟩ <;> rw [e] <;> exact trivial

theorem runTdes_goesThrough (s : State) : GoesThrough (runTdes s) := by
  rcases runTdes_cases s with ⟨_, _, e⟩ | ⟨_, _, e⟩ | ⟨_, _, _, _, _, e⟩ <;> rw [e] <;> exact trivial

theorem runDec_goesThrough (s : State) : GoesThrough (runDec s) := by
  rcases runDec_cases s with ⟨_, e⟩ | ⟨_, _, _, _, e⟩ | ⟨_, _, _, _, e⟩ <;> rw [e] <;> exact trivial

/-- GENC has a tree of R41 to walk, or none (42_code_table.md R126). -/
theorem runGenc_goesThrough {s : State} (htree : TreeOk s) : GoesThrough (runGenc s) := by
  rcases runGenc_cases s with ⟨_, e⟩ | ⟨hroot, hnone, _⟩ | ⟨_, _, _, e⟩
  · rw [e]; exact trivial
  · obtain ⟨x, hx, _⟩ := htree.2 hroot
    exact nomatch hx.symm.trans hnone
  · rw [e]; exact trivial

/-- TSER has a tree of R41 to walk, which fits its two memories, or none (43_tree_serializer.md R136). -/
theorem runTser_goesThrough {s : State} (htree : TreeOk s) : GoesThrough (runTser s) := by
  rcases runTser_cases s with ⟨_, e⟩ | ⟨hroot, hnofit, _⟩ | ⟨_, _, _, _, e⟩
  · rw [e]; exact trivial
  · obtain ⟨x, hx, _, _, _, hsize, hleaves⟩ := htree.2 hroot
    exact nomatch (serialFits_of_counts hsize hleaves).symm.trans (hnofit x hx)
  · rw [e]; exact trivial

theorem exec_goesOn_of_goesThrough {i : Instr} {s : State} (h : GoesThrough (ruleOf i s)) :
    ∃ t, exec i s = .next t := by
  rw [exec_eq_complete]
  cases hr : ruleOf i s with
  | done u => exact ⟨_, rfl⟩
  | raised k info u => exact ⟨_, rfl⟩
  | halted f =>
    rw [hr] at h
    exact h.elim

/-- No command stops from a state with a tree of R41 or none; COMP builds its own (49_control.md R225). -/
theorem exec_goesOn {s : State} (htree : TreeOk s) (i : Instr) : ∃ t, exec i s = .next t := by
  cases i with
  | comp =>
    obtain ⟨t, h, _⟩ := compFaults s
    exact ⟨t, h⟩
  | clr => exact ⟨_, exec_clr s⟩
  | hist => exact exec_goesOn_of_goesThrough (runHist_goesThrough s)
  | build => exact exec_goesOn_of_goesThrough (runBuild_goesThrough s)
  | genc => exact exec_goesOn_of_goesThrough (runGenc_goesThrough htree)
  | tser => exact exec_goesOn_of_goesThrough (runTser_goesThrough htree)
  | enc => exact exec_goesOn_of_goesThrough (runEnc_goesThrough s)
  | asm => exact exec_goesOn_of_goesThrough (runAsm_goesThrough s)
  | parse => exact exec_goesOn_of_goesThrough (runParse_goesThrough s)
  | tdes => exact exec_goesOn_of_goesThrough (runTdes_goesThrough s)
  | dec => exact exec_goesOn_of_goesThrough (runDec_goesThrough s)
  | decomp =>
    exact exec_goesOn_of_goesThrough (dropOutOnRaise_goesThrough (andThen_goesThrough
      (andThen_goesThrough (runParse_goesThrough s) runTdes_goesThrough) runDec_goesThrough))

theorem blockTurn_goesOn {s : State} (htree : TreeOk s) : ∃ t, blockTurn s = .next t := by
  rcases blockTurn_cases s with ⟨_, e⟩ | ⟨_, i, _, e⟩ | ⟨_, _, e⟩ <;> rw [e]
  · exact ⟨_, rfl⟩
  · exact exec_goesOn htree i
  · exact ⟨_, rfl⟩

/-- Settles O60: of the turns only the block's can stop, and it does not from such a state. -/
theorem everyStepGoesOn : Obligations.EveryStepGoesOn := by
  intro s htree
  rw [GoesOn]
  cases ha : s.agenda with
  | nil =>
    rw [step_of_agenda_nil ha]
    exact blockTurn_goesOn htree
  | cons x rest =>
    rw [step_of_agenda_cons ha]
    cases x with
    | block => exact blockTurn_goesOn (keptUnder_treeOk.agenda s rest htree)
    | write a v => exact ⟨_, rfl⟩
    | read a => exact ⟨_, rfl⟩
    | reset => exact ⟨_, rfl⟩

end Sys2Proof.Proofs
end

section
/-! Proofs about what COMP and DECOMP depend on: from equal inputs each stage of a flow ends alike, whatever
else the states hold. -/

namespace Sys2Proof.Proofs

open Sys2Proof Sys2Proof.Machine Sys2Proof.Safety

/-! ### Rules that end alike -/

/-- Both rules ran to their end and left related states, or both made the same raise in the same stage. -/
inductive SameEnd (R : State → State → Prop) : Ran → Ran → Prop
  | done {u v : State} (h : R u v) : SameEnd R (.done u) (.done v)
  | raised (k : ErrKind) (info : Word) {u v : State} (h : u.stage = v.stage) :
    SameEnd R (.raised k info u) (.raised k info v)

/-- Stages that end alike one after the other, end alike as a whole. -/
theorem andThen_sameEnd {R Q : State → State → Prop} {r1 r2 : Ran} {f : State → Ran} (hr : SameEnd R r1 r2)
    (hf : ∀ u v, R u v → SameEnd Q (f u) (f v)) : SameEnd Q (andThen r1 f) (andThen r2 f) := by
  cases hr with
  | done h => exact hf _ _ h
  | raised k info h => exact .raised k info h

/-- What R283 compares in the end of a flow that ran to its end. -/
def SameResult (u v : State) : Prop := u.outLen = v.outLen ∧ outBytes u = outBytes v ∧ u.stage = v.stage

/-- Flows that end alike answer states that agree in everything R283 compares (70_reset_and_hazards.md R283). -/
theorem results_of_sameEnd {r1 r2 : Ran} {t1 t2 : State} (h : SameEnd SameResult r1 r2)
    (h1 : complete false (dropOutOnRaise r1) = .next t1) (h2 : complete false (dropOutOnRaise r2) = .next t2) :
    t1.outLen = t2.outLen ∧ outBytes t1 = outBytes t2 ∧ t1.errCode = t2.errCode ∧ t1.errInfo = t2.errInfo ∧
      t1.fsm = t2.fsm ∧ t1.stage = t2.stage := by
  cases h with
  | done h =>
    obtain ⟨hlen, hout, hstage⟩ := h
    obtain rfl := Host.Outcome.next.inj h1
    obtain rfl := Host.Outcome.next.inj h2
    exact ⟨hlen, hout, rfl, rfl, rfl, hstage⟩
  | raised k info hstage =>
    obtain rfl := Host.Outcome.next.inj h1
    obtain rfl := Host.Outcome.next.inj h2
    exact ⟨rfl, rfl, rfl, rfl, rfl, hstage⟩

theorem sameResult_setOut {bs : List Byte} (hfits : bs.length ≤ Config.bufCap) (i : Instr) (u v : State) :
    SameResult (setOut bs (setStage i u)) (setOut bs (setStage i v)) :=
  ⟨rfl, (output_setOut hfits _).1.trans (output_setOut hfits _).1.symm, rfl⟩

/-! ### COMP -/

/-- What the first four stages of COMP leave is a matter of the input (49_control.md R225). -/
theorem compFront_sameEnd {s1 s2 : State} (hlen : s1.inLen = s2.inLen) (hin : inBytes s1 = inBytes s2) :
    SameEnd (fun u v => ∃ x, FrontLeft (inBytes s1) x u ∧ FrontLeft (inBytes s1) x v) (compFront s1)
      (compFront s2) := by
  by_cases h0 : s1.inLen = 0
  · rw [compFront_of_empty h0, compFront_of_empty (hlen ▸ h0)]
    exact .raised _ _ rfl
  · obtain ⟨x, hfront⟩ := compFront_of_input h0
    obtain ⟨u, hu, hleft⟩ := hfront s1 h0 rfl
    obtain ⟨v, hv, hleft'⟩ := hfront s2 (hlen ▸ h0) hin.symm
    rw [hu, hv]
    exact .done ⟨x, hleft, hleft'⟩

theorem codesOf_congr {u v : State} (h : u.code = v.code) (bs : List Byte) : codesOf u bs = codesOf v bs := by
  simp only [codesOf, codeAt, h]

/-- From the same codes ENC leaves the parts of one container, or runs out of room (46_encoder.md R176). -/
theorem runEnc_sameEnd {bs : List Byte} {x : Tree} {u v : State} (hu : FrontLeft bs x u)
    (hv : FrontLeft bs x v) : SameEnd (fun w z => containerOf w = containerOf z) (runEnc u) (runEnc v) := by
  have hcodes : codesOf u (inBytes u) = codesOf v (inBytes v) := by
    rw [hu.input, hv.input, codesOf_congr (hu.code.trans hv.code.symm)]
  have htotal : codeTotal u (inBytes u) = codeTotal v (inBytes v) := by
    rw [← codesOf_length, hcodes, codesOf_length]
  by_cases hfits : codeTotal u (inBytes u) ≤ 8 * Config.bufCap
  · rw [runEnc_of_fits hu.codeValid hfits, runEnc_of_fits hv.codeValid (htotal ▸ hfits)]
    refine .done ?_
    rw [(container_withPayload hfits).2, (container_withPayload (htotal ▸ hfits)).2, hcodes, htotal,
      hu.alphaLen, hv.alphaLen, hu.topoBits, hv.topoBits, hu.alphaBytes, hv.alphaBytes, hu.topoBytes,
      hv.topoBytes]
  · rw [Nat.not_le] at hfits
    rw [runEnc_of_exceeds hu.codeValid hfits, runEnc_of_exceeds hv.codeValid (htotal ▸ hfits)]
    exact .raised _ _ rfl

/-- The container and its length are all ASM uses (48_container.md R201). -/
theorem runAsm_sameEnd {u v : State} (h : containerOf u = containerOf v) :
    SameEnd SameResult (runAsm u) (runAsm v) := by
  have hsize : containerSize u = containerSize v := by rw [← containerOf_length, h, containerOf_length]
  by_cases hfits : containerSize u ≤ Config.bufCap
  · rw [runAsm_of_fits hfits, runAsm_of_fits (hsize ▸ hfits), h]
    exact .done (sameResult_setOut ((containerOf_length v).trans_le (hsize ▸ hfits)) _ u v)
  · rw [Nat.not_le] at hfits
    rw [runAsm_of_exceeds hfits, runAsm_of_exceeds (hsize ▸ hfits)]
    exact .raised _ _ rfl

/-! ### PARSE -/

section Input

variable {s1 s2 : State} (hlen : s1.inLen = s2.inLen) (hin : inBytes s1 = inBytes s2)
include hlen hin

theorem memRead_of_inBytes_eq {j : Nat} (hj : j < s1.inLen.toNat) : memRead s1.inMem j = memRead s2.inMem j := by
  rw [← memBytes_getElem s1.inMem s1.inLen.toNat j (by simpa using hj),
    ← memBytes_getElem s2.inMem s2.inLen.toNat j (by simpa [← hlen] using hj)]
  exact List.getElem_of_eq hin _

theorem headerField_of_inBytes_eq {a : Nat} (ha : a + 4 ≤ s1.inLen.toNat) :
    headerField s1.inMem a = headerField s2.inMem a := by
  have hread : ∀ j, j < a + 4 → memRead s1.inMem j = memRead s2.inMem j := fun j hj =>
    memRead_of_inBytes_eq hlen hin (hj.trans_le ha)
  rw [headerField, headerField, hread a (by omega), hread (a + 1) (by omega), hread (a + 2) (by omega),
    hread (a + 3) (by omega)]

theorem memSlice_of_inBytes_eq {a n : Nat} (h : a + n ≤ s1.inLen.toNat) :
    memSlice s1.inMem a n = memSlice s2.inMem a n :=
  List.map_congr_left fun _ hj => memRead_of_inBytes_eq hlen hin
    ((Nat.add_lt_add_left (List.mem_range.1 hj) a).trans_le h)

end Input

/-- The parts set from the same regions are the same (48_container.md R202). -/
theorem sameParts_of_regions {alpha topo pay : List Byte} {t p : Nat} (ha : alpha.length ≤ 256) (ht : t ≤ 511)
    (hp : p < 2 ^ 32) (htopo : topo.length = ceil8 t) (hpay : pay.length = ceil8 p) (s s' : State) :
    SameParts (setParts alpha topo pay t p s) (setParts alpha topo pay t p s') := by
  have hbytes := bytes_setParts (ha.trans_lt (by decide)) (ht.trans_lt (by decide)) hp htopo hpay
  obtain ⟨ha1, ht1, hp1⟩ := hbytes s
  obtain ⟨ha2, ht2, hp2⟩ := hbytes s'
  exact ⟨rfl, rfl, rfl, ha2.trans ha1.symm, ht2.trans ht1.symm, hp2.trans hp1.symm⟩

/-- PARSE reads the input only, and that only as far as `IN_LEN` goes (48_container.md R202). -/
theorem runParse_sameEnd {s1 s2 : State} (hlen : s1.inLen = s2.inLen) (hin : inBytes s1 = inBytes s2) :
    SameEnd (fun u v => SameParts u v ∧ u.topoBits.toNat ≤ 511) (runParse s1) (runParse s2) := by
  by_cases hshort : s1.inLen.toNat < 12
  · rw [runParse_of_short hshort, runParse_of_short (hlen ▸ hshort)]
    exact .raised _ _ rfl
  rw [Nat.not_lt] at hshort
  have hshort' : 12 ≤ s2.inLen.toNat := hlen ▸ hshort
  have ha : headerAlphaLen s1 = headerAlphaLen s2 :=
    congrArg BitVec.toNat (headerField_of_inBytes_eq hlen hin (by omega))
  have ht : headerTopoBits s1 = headerTopoBits s2 :=
    congrArg BitVec.toNat (headerField_of_inBytes_eq hlen hin (by omega))
  have hp : headerPayBits s1 = headerPayBits s2 :=
    congrArg BitVec.toNat (headerField_of_inBytes_eq hlen hin (by omega))
  have hfill : RegionsFill s1 ↔ RegionsFill s2 := by rw [RegionsFill, RegionsFill, ha, ht, hp, hlen]
  by_cases h2 : RegionsFill s1
  swap
  · rw [runParse_of_not_fill hshort h2, runParse_of_not_fill hshort' (mt hfill.2 h2)]
    exact .raised _ _ rfl
  by_cases h3 : 256 < headerAlphaLen s1
  · rw [runParse_of_long_alphabet hshort h2 h3, runParse_of_long_alphabet hshort' (hfill.1 h2) (ha ▸ h3)]
    exact .raised _ _ rfl
  rw [Nat.not_lt] at h3
  by_cases h4 : 511 < headerTopoBits s1
  · rw [runParse_of_long_topology hshort h2 h3 h4,
      runParse_of_long_topology hshort' (hfill.1 h2) (ha ▸ h3) (ht ▸ h4)]
    exact .raised _ _ rfl
  rw [Nat.not_lt] at h4
  have hend : 12 + headerAlphaLen s1 + ceil8 (headerTopoBits s1) + ceil8 (headerPayBits s1) = s1.inLen.toNat := h2
  rw [runParse_of_fill h2 h3 h4, runParse_of_fill (hfill.1 h2) (ha ▸ h3) (ht ▸ h4), ← ha, ← ht, ← hp,
    ← memSlice_of_inBytes_eq hlen hin (by omega), ← memSlice_of_inBytes_eq hlen hin (by omega),
    ← memSlice_of_inBytes_eq hlen hin (by omega)]
  exact .done ⟨sameParts_of_regions ((memSlice_length ..).trans_le h3) h4 (headerField s1.inMem 8).isLt
    (memSlice_length ..) (memSlice_length ..) _ _, (Nat.mod_le ..).trans h4⟩

/-! ### TDES -/

/-- The walk reads one Alphabet byte for each 1 bit (44_tree_deserializer.md R145). -/
theorem rebuild_congr {m m' : Memory} (fuel : Nat) : ∀ (bits : BitSeq) (cnt ai : Nat),
    (∀ j, j < ai + bits.count true → memRead m j = memRead m' j) →
    rebuild m fuel bits cnt ai = rebuild m' fuel bits cnt ai := by
  induction fuel with
  | zero => exact fun _ _ _ _ => rfl
  | succ fuel ih =>
    intro bits cnt ai h
    match bits with
    | [] => rfl
    | true :: rest => rw [rebuild, rebuild, h ai (by simp)]
    | false :: rest =>
      have hcount : (false :: rest).count true = rest.count true := by simp
      rw [hcount] at h
      rw [rebuild, rebuild, ← ih rest (cnt + 1) ai h]
      cases hr : rebuild m fuel rest (cnt + 1) ai with
      | none => rfl
      | some r =>
        obtain ⟨x, _, hbits, _, hai, _⟩ := rebuild_only_topologies m _ _ _ _ _ hr
        have hleft : r.ai + r.rest.count true = ai + rest.count true := by
          rw [hbits, List.count_append, List.count_reverse, emitTopology_count, hai, Nat.add_assoc]
        dsimp only
        rw [← ih r.rest _ r.ai (hleft ▸ h)]

section Tdes

variable {u v : State} (h : SameParts u v)
include h

theorem memRead_alphaMem_of_sameParts {j : Nat} (hj : j < u.alphaLen.toNat) :
    memRead u.alphaMem j = memRead v.alphaMem j := by
  rw [memRead_alphaMem_of_alphaBytes rfl j (by rwa [alphaBytes_length]),
    memRead_alphaMem_of_alphaBytes h.alphaBytes j (by rwa [alphaBytes_length])]

theorem walkTopology_of_sameParts (hcount : (topoSeq u).count true = u.alphaLen.toNat) :
    walkTopology v = walkTopology u := by
  rw [walkTopology, walkTopology, h.topoSeq]
  refine rebuild_congr _ _ _ _ fun j hj => (memRead_alphaMem_of_sameParts h ?_).symm
  rwa [Nat.zero_add, List.count_reverse, hcount] at hj

/-- TDES makes one tree of the same parts, or the same raise (44_tree_deserializer.md R146). -/
theorem runTdes_sameEnd (hbits : u.topoBits.toNat ≤ 511) :
    SameEnd (fun w z => (∃ x, properTree x = true ∧ treeOf w = some x ∧ treeOf z = some x) ∧
      z.payBits = w.payBits ∧ paySeq z = paySeq w) (runTdes u) (runTdes v) := by
  by_cases hcount : (topoSeq u).count true = u.alphaLen.toNat
  swap
  · rw [runTdes_of_count_ne hcount, runTdes_of_count_ne (by rwa [h.topoSeq, h.alphaLen])]
    exact .raised _ _ rfl
  have hcount' : (topoSeq v).count true = v.alphaLen.toNat := by rwa [h.topoSeq, h.alphaLen]
  by_cases hw : topoSeq u = wrapperTopology
  · have hsym : memRead v.alphaMem 0 = memRead u.alphaMem 0 :=
      (memRead_alphaMem_of_sameParts h (by rw [← hcount, hw]; decide)).symm
    rw [runTdes_of_wrapper hcount hw, runTdes_of_wrapper hcount' (h.topoSeq.trans hw), hsym]
    exact .done ⟨⟨_, rfl, treeOf_setTree_wrapper _ _, treeOf_setTree_wrapper _ _⟩, h.payBits, h.paySeq⟩
  have hw' : topoSeq v ≠ wrapperTopology := h.topoSeq ▸ hw
  have hwalk := walkTopology_of_sameParts h hcount
  cases hb : walkTopology u with
  | none =>
    rw [runTdes_of_exhausted hcount hw hb, runTdes_of_exhausted hcount' hw' (hwalk.trans hb)]
    exact .raised _ _ rfl
  | some b =>
    by_cases hrest : b.rest = []
    · rw [runTdes_of_used_up hcount hw hb hrest, runTdes_of_used_up hcount' hw' (hwalk.trans hb) hrest]
      obtain ⟨x, hfull, hread, hentries, _⟩ := rebuild_only_topologies _ _ _ _ _ _ hb
      have htopo : topoSeq u = emitTopology x := by simpa [hrest] using hread
      have hsize : treeSize x ≤ 511 := (topoBits_of_topoSeq htopo).symm.trans_le hbits
      rw [hentries]
      exact .done ⟨⟨x, properTree_of_full hfull, treeOf_setTree_entriesOf hfull hsize _ _,
        treeOf_setTree_entriesOf hfull hsize _ _⟩, h.payBits, h.paySeq⟩
    · rw [runTdes_of_leftover hcount hw hb hrest, runTdes_of_leftover hcount' hw' (hwalk.trans hb) hrest]
      exact .raised _ _ rfl

end Tdes

/-! ### DEC -/

/-- The subtree a bit selects (47_decoder.md R185). -/
def childTree (l r : Tree) (bit : Bool) : Tree := if bit then r else l

theorem reads_childAt {t : Arena} {cur : NodeIdx} {l r : Tree} (h : Reads t cur (.internal l r)) (bit : Bool) :
    Reads t (childAt t cur bit) (childTree l r bit) := by
  obtain ⟨_, _, hl, hr⟩ := h.isInternal
  cases bit with
  | false => exact hl
  | true => exact hr

theorem treeSize_childTree_lt (l r : Tree) (bit : Bool) :
    treeSize (childTree l r bit) < treeSize (.internal l r) := by
  cases bit <;> simp [childTree, treeSize]

/-- A node that reads as a smaller tree than the root's is not the root. -/
theorem index_ne_of_treeSize_lt {t : Arena} {i root : NodeIdx} {x R : Tree} (hi : Reads t i x)
    (hR : Reads t root R) (hlt : treeSize x < treeSize R) : i ≠ root := by
  rintro rfl
  rw [Reads.unique t x R i hi hR] at hlt
  exact lt_irrefl _ hlt

/-- The loop of DEC sees the tree only, not where its nodes stand (R186). -/
theorem decodeLoop_of_reads (cap : Nat) {t t' : Arena} {root root' : NodeIdx} {L M : Tree}
    (hR : Reads t root (.internal L M)) (hR' : Reads t' root' (.internal L M)) (p : BitSeq) :
    ∀ (l r : Tree) (cur cur' : NodeIdx) (out : List Byte), Reads t cur (.internal l r) →
      Reads t' cur' (.internal l r) → (cur = root ↔ cur' = root') →
      treeSize (.internal l r) ≤ treeSize (.internal L M) →
      decodeLoop cap t root p cur out = decodeLoop cap t' root' p cur' out := by
  induction p with
  | nil =>
    intro l r cur cur' out _ _ hroot _
    rw [decodeLoop, decodeLoop]
    exact if_congr hroot rfl rfl
  | cons bit rest ih =>
    intro l r cur cur' out hcur hcur' _ hsize
    have hchild := reads_childAt hcur bit
    have hchild' := reads_childAt hcur' bit
    have hlt := (treeSize_childTree_lt l r bit).trans_le hsize
    rw [decodeLoop, decodeLoop]
    cases hc : childTree l r bit with
    | absent =>
      rw [hc] at hchild hchild'
      rw [if_pos hchild.isNil, if_pos hchild'.isNil]
    | leaf sym =>
      rw [hc] at hchild hchild'
      obtain ⟨hnil, hkind, hsym⟩ := hchild.isLeaf
      obtain ⟨hnil', hkind', hsym'⟩ := hchild'.isLeaf
      rw [if_neg hnil, if_neg hnil', hkind, hkind', hsym, hsym']
      exact if_congr Iff.rfl rfl (ih L M root root' _ hR hR' (iff_of_true rfl rfl) le_rfl)
    | internal l' r' =>
      rw [hc] at hchild hchild' hlt
      obtain ⟨hnil, hkind, _⟩ := hchild.isInternal
      obtain ⟨hnil', hkind', _⟩ := hchild'.isInternal
      rw [if_neg hnil, if_neg hnil', hkind, hkind']
      exact ih l' r' _ _ out hchild hchild' (iff_of_false (index_ne_of_treeSize_lt hchild hR hlt)
        (index_ne_of_treeSize_lt hchild' hR' hlt)) hlt.le

/-- DEC makes the same of one payload with one tree (47_decoder.md R186). -/
theorem decoded_of_same_tree {u v : State} {x : Tree} (hproper : properTree x = true)
    (hu : treeOf u = some x) (hv : treeOf v = some x) (hbits : v.payBits = u.payBits)
    (hpay : paySeq v = paySeq u) : decoded u = decoded v := by
  cases x with
  | absent => cases hproper
  | leaf sym => rw [decoded_of_leaf hu, decoded_of_leaf hv, hbits]
  | internal l r =>
    rw [decoded_of_internal hu, decoded_of_internal hv, hpay]
    exact decodeLoop_of_reads _ (reads_of_treeOf hu) (reads_of_treeOf hv) _ l r _ _ _ (reads_of_treeOf hu)
      (reads_of_treeOf hv) (iff_of_true rfl rfl) le_rfl

theorem runDec_sameEnd {u v : State} {x : Tree} (hproper : properTree x = true) (hu : treeOf u = some x)
    (hv : treeOf v = some x) (h : decoded u = decoded v) : SameEnd SameResult (runDec u) (runDec v) := by
  have hroot := root_ne_nil_of_proper hu hproper
  have hroot' := root_ne_nil_of_proper hv hproper
  rcases runDec_cases u with ⟨hnil, _⟩ | ⟨_, k, info, hraise, e⟩ | ⟨_, bs, hsymbols, hfits, e⟩
  · exact absurd hnil hroot
  · rw [e, runDec_of_raise hroot' (h.symm.trans hraise)]
    exact .raised _ _ rfl
  · rw [e, runDec_of_symbols hroot' (h.symm.trans hsymbols)]
    exact .done (sameResult_setOut hfits _ u v)

/-! ### The two flows -/

/-- Settles O53: each flow is its stages, and each stage ends alike from what the one before left alike. -/
theorem flowsDependOnInputOnly : Obligations.FlowsDependOnInputOnly := by
  intro i s1 s2 t1 t2 hi hlen hin h1 h2
  rcases hi with rfl | rfl
  · exact results_of_sameEnd (andThen_sameEnd (andThen_sameEnd (compFront_sameEnd hlen hin)
      fun _ _ ⟨_, hu, hv⟩ => runEnc_sameEnd hu hv) fun _ _ => runAsm_sameEnd) h1 h2
  · exact results_of_sameEnd (andThen_sameEnd (andThen_sameEnd (runParse_sameEnd hlen hin)
      fun _ _ ⟨hparts, hbits⟩ => runTdes_sameEnd hparts hbits)
      fun _ _ ⟨⟨_, hproper, hu, hv⟩, hbits, hpay⟩ =>
        runDec_sameEnd hproper hu hv (decoded_of_same_tree hproper hu hv hbits hpay)) h1 h2

end Sys2Proof.Proofs
end
